-- ==== Sys2Proof/Word.lean ====
section
/-!
DEFINITION. The widths of the ruBoy core (spec/00_scope.md R7): 8-bit bytes, 16-bit words, and a
memory as a list of addressed bytes.
-/
namespace Sys2Proof

/-- A byte of memory or an 8-bit register (R7). -/
abbrev Byte := BitVec 8

/-- A pair, `PC`, `SP` or an address (R7). -/
abbrev Word := BitVec 16

/-- One storage array: its bytes by offset, offsets strictly rising, holding no byte equal to what an
unlisted offset reads as (`Config.unlistedByte`). `Memory.wf` (WellFormed.lean) is that form. -/
abbrev Memory := List Host.Cell

end Sys2Proof
end

