-- ==== Sys2Proof/Config.lean ====
section
/-!
DEFINITION. What is fixed for a run: the parameters of spec/00_scope.md R8, the cartridge
configuration of spec/20_memory.md R80, the reset register table of spec/10_state.md R37, and the one
free value.
-/
namespace Sys2Proof

/-- `CART.color`: the colour support the header declares (R82). -/
inductive Color where
  | none | capable | only
deriving DecidableEq, Repr

/-- `IMM16_ORDER`: the order of the two immediate bytes of `LD rr,d16` (R8, R123). -/
inductive Imm16Order where
  | little | big
deriving DecidableEq, Repr

/-- `ADD16_Z`: whether the 16-bit add writes the Zero flag (R8, R162). -/
inductive Add16Z where
  | fromResult | unchanged
deriving DecidableEq, Repr

/-- The parameters of R8 that a step reads. `costs` lists the opcodes whose `COST` differs from the
table of R262. -/
structure Params where
  imm16Order : Imm16Order
  add16Z     : Add16Z
  costs      : List (Byte × Nat)
deriving DecidableEq, Repr

/-- The defaults of R8. -/
def Params.default : Params where
  imm16Order := .little
  add16Z     := .fromResult
  costs      := []

/-- `CART` (R80) of a machine that was created; its generation is the alternative that `State.mapper`
is. `battery`, `timer`, `rumble`, `accelerometer` and `special` have no effect on any rule (R80); a
machine whose cartridge is `special` is never created (R87). -/
structure Cart where
  rom           : Memory
  romSize       : Nat
  hasRam        : Bool
  ramSize       : Nat
  color         : Color
  battery       : Bool
  timer         : Bool
  rumble        : Bool
  accelerometer : Bool
  special       : Bool
deriving DecidableEq, Repr

/-- One column of the table of R37. -/
structure ResetColumn where
  a : Byte
  f : Byte
  b : Byte
  c : Byte
  d : Byte
  e : Byte
  h : Byte
  l : Byte
  sp : Word
  pc : Word
deriving DecidableEq, Repr

/-- `RESET_REGS` (R8): the two columns of R37. -/
structure ResetRegs where
  mono   : ResetColumn
  colour : ResetColumn
deriving DecidableEq, Repr

/-- The table of R37. PRESUMED (the Game Boy's values after its boot program), unsafe: log entry 3. -/
def ResetRegs.default : ResetRegs where
  mono   := { a := 0x01, f := 0xB0, b := 0x00, c := 0x13, d := 0x00, e := 0xD8, h := 0x01, l := 0x4D,
              sp := 0xFFFE, pc := 0x0100 }
  colour := { a := 0x11, f := 0x80, b := 0x00, c := 0x00, d := 0xFF, e := 0x56, h := 0x00, l := 0x0D,
              sp := 0xFFFE, pc := 0x0100 }

/-- "The colour column is used when `CART.color` is `capable` or `only`" (R37). -/
def ResetRegs.column (r : ResetRegs) : Color → ResetColumn
  | .none    => r.mono
  | .capable => r.colour
  | .only    => r.colour

/-- The size of a ROM image of size code 0 (R84), and the fallback size. -/
def Config.smallRom : Nat := 0x8000

/-- What an offset that a storage array does not list reads as: `RAM_INIT`'s default (R8, R38).
DESIGN CHOICE, unsafe: log entry 2. -/
def Config.unlistedByte : Byte := 0x00

/-- The cartridge of `State.reset`: a 32 KiB image of bytes 0x00, which R80 to R87 accept as
generation 0 without RAM. DESIGN CHOICE, unsafe: log entry 1. -/
def Config.blankCart : Cart where
  rom           := []
  romSize       := Config.smallRom
  hasRam        := false
  ramSize       := 0
  color         := .none
  battery       := false
  timer         := false
  rumble        := false
  accelerometer := false
  special       := false

/-- `RTC_READ` (R8, R102): the byte the `n`-th draw gives. A free value: it has no body, so nothing can
be proved of it. Log entry 18. -/
opaque Config.freeByte : Nat → Byte

end Sys2Proof
end

