-- ==== Sys2Proof/Syntax.lean ====
section
/-!
DEFINITION. The 31 admitted instructions (spec/30_encoding.md R126), one constructor per row of
spec/opcode_table.json, in the table's order.
-/
namespace Sys2Proof

/-- An instruction with its immediate operand, if it has one. -/
inductive Instr where
  | nop
  | ldBcD16 (d16 : Word)
  | ldDeD16 (d16 : Word)
  | ldHlD16 (d16 : Word)
  | ldSpD16 (d16 : Word)
  | addHlBc
  | addHlDe
  | addHlHl
  | addHlSp
  | addAB
  | addAC
  | addAD
  | addAE
  | addAH
  | addAL
  | addAMem
  | addAA
  | addAImm (d8 : Byte)
  | subB
  | subC
  | subD
  | subE
  | subH
  | subL
  | subMem
  | subA
  | subImm (d8 : Byte)
  | jp (a16 : Word)
  | call (a16 : Word)
  | ldhStore (a8 : Byte)
  | ldhLoad (a8 : Byte)
deriving DecidableEq, Repr

end Sys2Proof
end

