-- ==== Sys2Proof/WellFormed.lean ====
section
/-!
DEFINITION. Which data is well formed: an instruction, a storage array, a cartridge configuration.
-/
namespace Sys2Proof

/-- Every term of `Instr` is an instruction of R126: an immediate is typed at exactly the width its
format has (R121, R123), so there is nothing left to check. The arms are written out so that a new
constructor must say what it needs. -/
def Instr.wf : Instr → Bool
  | .nop => true
  | .ldBcD16 _ | .ldDeD16 _ | .ldHlD16 _ | .ldSpD16 _ => true
  | .addHlBc | .addHlDe | .addHlHl | .addHlSp => true
  | .addAB | .addAC | .addAD | .addAE | .addAH | .addAL | .addAMem | .addAA | .addAImm _ => true
  | .subB | .subC | .subD | .subE | .subH | .subL | .subMem | .subA | .subImm _ => true
  | .jp _ | .call _ => true
  | .ldhStore _ | .ldhLoad _ => true

/-- The canonical form of a storage array: offsets strictly rising, and no listed byte equal to what
an unlisted offset reads as. -/
abbrev Memory.wf (m : Memory) : Prop :=
  m.Pairwise (fun x y => x.1 < y.1) ∧ ∀ x ∈ m, x.2 ≠ Config.unlistedByte

/-- Every listed offset lies inside an array of `size` bytes. -/
abbrev Memory.within (m : Memory) (size : Nat) : Prop :=
  ∀ x ∈ m, x.1 < size

/-- A ROM size that R84 gives: `0x8000 << c` for `c` in 0..8. -/
abbrev Cart.romSizeWf (c : Cart) : Prop :=
  ∃ code < 9, c.romSize = 0x8000 <<< code

/-- A RAM size that R85 gives. -/
abbrev Cart.ramSizeWf (c : Cart) : Prop :=
  c.ramSize ∈ [0, 0x800, 0x2000, 0x8000, 0x20000, 0x10000]

/-- A configuration that R80 to R87 can produce: the sizes are sizes of R84 and R85, and the image is
canonical and lies inside the ROM. -/
abbrev Cart.wf (c : Cart) : Prop :=
  c.romSizeWf ∧ c.ramSizeWf ∧ Memory.wf c.rom ∧ Memory.within c.rom c.romSize

end Sys2Proof
end

