-- ==== Sys2Proof/Decode.lean ====
section
/-!
DEFINITION. The opcode map and the formats (spec/30_encoding.md R121, R123, R126, R127): the decoder of
a list of bytes, the encoder, and the cost of an opcode (R262).
-/
namespace Sys2Proof

/-- `h ++ l`: the 16-bit value of a high and a low byte (R21). -/
def Word.ofBytes (h l : Byte) : Word := h ++ l

/-- `v[15:8]`. -/
def Word.high (v : Word) : Byte := v.extractLsb' 8 8

/-- `v[7:0]`. -/
def Word.low (v : Word) : Byte := v.extractLsb' 0 8

/-- What follows an admitted opcode byte (R121). `ld16` is the `OP_D16` of `LD rr,d16`, whose two bytes
`IMM16_ORDER` may swap (R123); `d16` is that of `JP` and `CALL`, which it does not touch (R200). -/
inductive OpRow where
  | op (i : Instr)
  | d8 (k : Byte → Instr)
  | ld16 (k : Word → Instr)
  | d16 (k : Word → Instr)

/-- The opcode map of R126; `none` is an unrecognised opcode (R127). PRESUMED, unsafe: log entry 4. -/
def opRow (op : Byte) : Option OpRow :=
  match op.toNat with
  | 0x00 => some (.op .nop)
  | 0x01 => some (.ld16 .ldBcD16)
  | 0x11 => some (.ld16 .ldDeD16)
  | 0x21 => some (.ld16 .ldHlD16)
  | 0x31 => some (.ld16 .ldSpD16)
  | 0x09 => some (.op .addHlBc)
  | 0x19 => some (.op .addHlDe)
  | 0x29 => some (.op .addHlHl)
  | 0x39 => some (.op .addHlSp)
  | 0x80 => some (.op .addAB)
  | 0x81 => some (.op .addAC)
  | 0x82 => some (.op .addAD)
  | 0x83 => some (.op .addAE)
  | 0x84 => some (.op .addAH)
  | 0x85 => some (.op .addAL)
  | 0x86 => some (.op .addAMem)
  | 0x87 => some (.op .addAA)
  | 0xC6 => some (.d8 .addAImm)
  | 0x90 => some (.op .subB)
  | 0x91 => some (.op .subC)
  | 0x92 => some (.op .subD)
  | 0x93 => some (.op .subE)
  | 0x94 => some (.op .subH)
  | 0x95 => some (.op .subL)
  | 0x96 => some (.op .subMem)
  | 0x97 => some (.op .subA)
  | 0xD6 => some (.d8 .subImm)
  | 0xC3 => some (.d16 .jp)
  | 0xCD => some (.d16 .call)
  | 0xE0 => some (.d8 .ldhStore)
  | 0xF0 => some (.d8 .ldhLoad)
  | _    => none

/-- The 31 admitted opcode bytes, in the order of R126. -/
def admittedOpcodes : List Byte :=
  [0x00, 0x01, 0x11, 0x21, 0x31, 0x09, 0x19, 0x29, 0x39] ++
  [0x80, 0x81, 0x82, 0x83, 0x84, 0x85, 0x86, 0x87, 0xC6] ++
  [0x90, 0x91, 0x92, 0x93, 0x94, 0x95, 0x96, 0x97, 0xD6] ++
  [0xC3, 0xCD, 0xE0, 0xF0]

/-- The 16-bit immediate of `LD rr,d16` from byte 1 and byte 2 (R123): `byte2 ++ byte1` when little,
`byte1 ++ byte2` when big. DESIGN CHOICE, unsafe where the order is fixed: log entry 5. -/
def imm16 : Imm16Order → Byte → Byte → Word
  | .little, b1, b2 => Word.ofBytes b2 b1
  | .big,    b1, b2 => Word.ofBytes b1 b2

/-- Why a list of bytes is no instruction. -/
inductive DecodeError where
  /-- There is no byte. -/
  | empty
  /-- The first byte is not admitted (R127). -/
  | unsupportedOpcode (op : Byte)
  /-- The immediate bytes of `op` are missing. -/
  | truncated (op : Byte)
deriving DecidableEq, Repr

/-- The instruction of an opcode row with its immediate from the bytes after the opcode (R121). -/
def decodeOperand (o : Imm16Order) (op : Byte) :
    OpRow → List Byte → Except DecodeError (Instr × List Byte)
  | .op i, rest => .ok (i, rest)
  | .d8 k, b :: rest => .ok (k b, rest)
  | .ld16 k, b1 :: b2 :: rest => .ok (k (imm16 o b1 b2), rest)
  | .d16 k, b1 :: b2 :: rest => .ok (k (imm16 .little b1 b2), rest)
  | _, _ => .error (.truncated op)

/-- The instruction at the head of a list of bytes, with the bytes after it (R120 to R127). -/
def decode (o : Imm16Order) : List Byte → Except DecodeError (Instr × List Byte)
  | [] => .error .empty
  | op :: rest =>
    match opRow op with
    | none => .error (.unsupportedOpcode op)
    | some row => decodeOperand o op row rest

/-- The two immediate bytes of a 16-bit value, in stream order (R123). -/
def imm16Bytes : Imm16Order → Word → List Byte
  | .little, v => [v.low, v.high]
  | .big,    v => [v.high, v.low]

/-- The bytes of an instruction (R121, R126). -/
def encode (o : Imm16Order) : Instr → List Byte
  | .nop => [0x00]
  | .ldBcD16 v => 0x01 :: imm16Bytes o v
  | .ldDeD16 v => 0x11 :: imm16Bytes o v
  | .ldHlD16 v => 0x21 :: imm16Bytes o v
  | .ldSpD16 v => 0x31 :: imm16Bytes o v
  | .addHlBc => [0x09]
  | .addHlDe => [0x19]
  | .addHlHl => [0x29]
  | .addHlSp => [0x39]
  | .addAB => [0x80]
  | .addAC => [0x81]
  | .addAD => [0x82]
  | .addAE => [0x83]
  | .addAH => [0x84]
  | .addAL => [0x85]
  | .addAMem => [0x86]
  | .addAA => [0x87]
  | .addAImm d => [0xC6, d]
  | .subB => [0x90]
  | .subC => [0x91]
  | .subD => [0x92]
  | .subE => [0x93]
  | .subH => [0x94]
  | .subL => [0x95]
  | .subMem => [0x96]
  | .subA => [0x97]
  | .subImm d => [0xD6, d]
  | .jp t => 0xC3 :: imm16Bytes .little t
  | .call t => 0xCD :: imm16Bytes .little t
  | .ldhStore a => [0xE0, a]
  | .ldhLoad a => [0xF0, a]

/-- The opcode byte of an instruction (R126). -/
def Instr.opcode (i : Instr) : Byte :=
  (encode .little i).headD 0x00

/-- The length in bytes of an instruction (R121). -/
def Instr.length (i : Instr) : Nat :=
  (encode .little i).length

/-- The cycles column of R126, which is the table of R262; 0 stands for an opcode that has no entry
(the fault comes before the addition). PRESUMED, unsafe for claims on `CYC`: log entry 9. -/
def defaultCost (op : Byte) : Nat :=
  match op.toNat with
  | 0x00 => 4
  | 0x01 | 0x11 | 0x21 | 0x31 => 12
  | 0x09 | 0x19 | 0x29 | 0x39 => 8
  | 0x80 | 0x81 | 0x82 | 0x83 | 0x84 | 0x85 | 0x87 => 4
  | 0x86 => 8
  | 0xC6 => 8
  | 0x90 | 0x91 | 0x92 | 0x93 | 0x94 | 0x95 | 0x97 => 4
  | 0x96 => 8
  | 0xD6 => 8
  | 0xC3 => 16
  | 0xCD => 24
  | 0xE0 | 0xF0 => 12
  | _ => 0

/-- `COST[op]` under the parameters (R8, R133): the value the parameters list, else the table's. -/
def Params.cost (p : Params) (op : Byte) : Nat :=
  (p.costs.lookup op).getD (defaultCost op)

/-- The three bytes of a table word: bit 0 of `w` is the least significant bit of the opcode byte, and
the bits from `nbits` upward are 0. -/
def tableBytes (nbits w : Nat) : List Byte :=
  let v := w % 2 ^ nbits
  [BitVec.ofNat 8 v, BitVec.ofNat 8 (v / 2 ^ 8), BitVec.ofNat 8 (v / 2 ^ 16)]

/-- What the decoder reads from a word of spec/opcode_table.json, with the default `IMM16_ORDER`. -/
def decodeTableWord (nbits w : Nat) : Option Instr :=
  match decode .little (tableBytes nbits w) with
  | .ok (i, _) => some i
  | .error _ => none

end Sys2Proof
end

