-- ==== Sys2Proof/Machine/State.lean ====
section
/-!
DEFINITION. The state of the ruBoy core (spec/10_state.md R20 to R38): registers, storage arrays, mapper
registers, the cartridge and the parameters of the run; the reasons a step can stop; and the state
after reset.
-/
namespace Sys2Proof.Machine

/-- Whether a bus transaction reads or writes (R222). -/
inductive AccessKind where
  | read | write
deriving DecidableEq, Repr

/-- The run-time faults (R220), both terminal. -/
inductive Fault where
  /-- R221: the decode stage of a step read the byte `op`, no admitted opcode, at `pc`. Raised by
  `fetchInstr`. It is the spec's own fault: safe. -/
  | unsupportedOpcode (op : Byte) (pc : Word)
  /-- R222: a byte transaction addressed 0x8000-0x9FFF. Raised by `busPeek` (fetch and data reads) and
  `busWrite`. It is the spec's own fault: safe. -/
  | videoAccess (addr : Word) (kind : AccessKind)
deriving DecidableEq, Repr

/-- `CART.gen` (R80, R83): the controller family a cartridge-type byte names. `special` stands for
MMM01, camera, TAMA5, HuC3 and HuC1. -/
inductive Gen where
  | g0 | g1 | g2 | g3 | g5 | g6 | g7 | special
deriving DecidableEq, Repr

/-- The reasons of `UnsupportedCartridge` (R223). -/
inductive LoadReason where
  | type (byte : Byte)
  | romSize (code : Byte)
  | licensing
  | mapper (gen : Gen)
  | imageLength
deriving DecidableEq, Repr

/-- Why there is no next state although no fault was raised. -/
inductive Refusal where
  /-- An instruction without a meaning: raised by an arm of `exec` alone, and no arm raises it now. It
  would be safe. -/
  | notModelled (mnemonic : String)
  /-- R223: the cartridge is refused at load. Raised by `State.powerOn`, never by a step. It is the
  spec's own refusal: safe. -/
  | unsupportedCartridge (reason : LoadReason)
deriving DecidableEq, Repr

/-- The mapper registers, one alternative per generation (R32, R92, R96, R99, R103). PRESUMED, unsafe:
log entry 15; the generation is the alternative itself: DESIGN CHOICE, safe: log entry 26. -/
inductive Mapper where
  | gen0
  | gen1 (ramg : Bool) (bank1 : BitVec 5) (bank2 : BitVec 2) (mode : Bool)
  | gen2 (ramg : Bool) (romb : BitVec 4)
  | gen3 (ramg : Bool) (romb : BitVec 7) (sel : BitVec 4)
  | gen5 (ramg : Bool) (romb0 : BitVec 8) (romb1 : BitVec 1) (ramb : BitVec 4)
deriving DecidableEq, Repr

/-- The whole machine between two steps. `cart` and `params` are fixed for a run (R35): no step
changes them. `draws` counts the free values drawn (R102) and is the model's own. -/
structure State where
  /-- accumulator (R20) -/
  a      : Byte
  /-- flags `Z N H C` in bits 7 to 4 (R26) -/
  f      : Byte
  b      : Byte
  c      : Byte
  d      : Byte
  e      : Byte
  h      : Byte
  l      : Byte
  /-- stack pointer (R25) -/
  sp     : Word
  /-- program counter (R23) -/
  pc     : Word
  /-- cycle counter, a natural number (R30; DESIGN CHOICE, unsafe from 2^64 on: log entry 10) -/
  cyc    : Nat
  /-- external RAM by physical offset (R31, R60, R91, R96) -/
  eram   : Memory
  /-- work RAM, both banks (R61; DESIGN CHOICE, unsafe: log entry 14) -/
  wram   : Memory
  /-- object-attribute memory (R63) -/
  oam    : Memory
  /-- I/O registers 0xFF00-0xFF7F (R65; DESIGN CHOICE, unsafe: log entry 23) -/
  io     : Memory
  /-- high RAM (R66) -/
  hram   : Memory
  /-- interrupt-enable byte (R67) -/
  ie     : Byte
  mapper : Mapper
  /-- the fault record (R34) -/
  fault  : Option Fault
  cart   : Cart
  params : Params
  draws  : Nat
  deriving DecidableEq, Repr

/-- The machine right after reset (R37, R38, R251), created from the blank cartridge with the default
parameters (log entry 1). -/
def State.reset : State :=
  let r := ResetRegs.default.column Config.blankCart.color
  { a := r.a, f := r.f, b := r.b, c := r.c, d := r.d, e := r.e, h := r.h, l := r.l
    sp := r.sp, pc := r.pc, cyc := 0
    eram := [], wram := [], oam := [], io := [], hram := [], ie := Config.unlistedByte
    mapper := .gen0, fault := none
    cart := Config.blankCart, params := Params.default, draws := 0 }

end Sys2Proof.Machine
end

