-- ==== Sys2Proof/Machine/Mapper.lean ====
section
/-!
DEFINITION. The cartridge mapper (spec/20_memory.md R90 to R107): register writes, ROM windows and the
RAM window of generations 0, 1, 2, 3 and 5. The layouts are PRESUMED (log entry 15).
-/
namespace Sys2Proof.Machine

/-- The generation whose registers these are (R83). -/
def Mapper.gen : Mapper → Gen
  | .gen0 => .g0
  | .gen1 .. => .g1
  | .gen2 .. => .g2
  | .gen3 .. => .g3
  | .gen5 .. => .g5

/-- "if BANK = 0 then BANK <- 1" (R93, R97, R100). -/
def zeroToOne {w : Nat} (v : BitVec w) : BitVec w :=
  if v = 0 then 1 else v

/-- `1 if v[3:0] = 0xA else 0` (R93, R97, R100). -/
def ramGate (v : Byte) : Bool :=
  v.extractLsb' 0 4 == 0xA

/-- A bus write at `addr` in 0x0000-0x7FFF (R58 for generation 0, R93, R97, R100, R104). -/
def Mapper.write (m : Mapper) (addr : Word) (v : Byte) : Mapper :=
  match m with
  | .gen0 => .gen0
  | .gen1 ramg bank1 bank2 mode =>
    if addr.toNat < 0x2000 then .gen1 (ramGate v) bank1 bank2 mode
    else if addr.toNat < 0x4000 then .gen1 ramg (zeroToOne (v.extractLsb' 0 5)) bank2 mode
    else if addr.toNat < 0x6000 then .gen1 ramg bank1 (v.extractLsb' 0 2) mode
    else .gen1 ramg bank1 bank2 (v.getLsbD 0)
  | .gen2 ramg romb =>
    if addr.toNat < 0x4000 then
      if addr.getLsbD 8 then .gen2 ramg (zeroToOne (v.extractLsb' 0 4)) else .gen2 (ramGate v) romb
    else .gen2 ramg romb
  | .gen3 ramg romb sel =>
    if addr.toNat < 0x2000 then .gen3 (ramGate v) romb sel
    else if addr.toNat < 0x4000 then .gen3 ramg (zeroToOne (v.extractLsb' 0 7)) sel
    else if addr.toNat < 0x6000 then .gen3 ramg romb (v.extractLsb' 0 4)
    else .gen3 ramg romb sel
  | .gen5 ramg romb0 romb1 ramb =>
    if addr.toNat < 0x2000 then .gen5 (v == 0x0A) romb0 romb1 ramb
    else if addr.toNat < 0x3000 then .gen5 ramg v romb1 ramb
    else if addr.toNat < 0x4000 then .gen5 ramg romb0 (v.extractLsb' 0 1) ramb
    else if addr.toNat < 0x6000 then .gen5 ramg romb0 romb1 (v.extractLsb' 0 4)
    else .gen5 ramg romb0 romb1 ramb

/-- The bank seen at 0x0000-0x3FFF, before reduction (R91, R94, R97, R100, R104). -/
def Mapper.loBank : Mapper → Nat
  | .gen0 => 0
  | .gen1 _ _ bank2 mode => if mode then bank2.toNat * 32 else 0
  | .gen2 .. => 0
  | .gen3 .. => 0
  | .gen5 .. => 0

/-- The bank seen at 0x4000-0x7FFF, before reduction (R91, R94, R97, R100, R104). -/
def Mapper.hiBank : Mapper → Nat
  | .gen0 => 1
  | .gen1 _ bank1 bank2 _ => bank2.toNat * 32 + bank1.toNat
  | .gen2 _ romb => romb.toNat
  | .gen3 _ romb _ => romb.toNat
  | .gen5 _ romb0 romb1 _ => romb1.toNat * 256 + romb0.toNat

/-- `RomPhys(addr)` of R91 for `addr` in 0x0000-0x7FFF. -/
def romPhys (c : Cart) (m : Mapper) (addr : Nat) : Nat :=
  let banks := c.romSize / 0x4000
  if addr < 0x4000 then m.loBank % banks * 0x4000 + addr
  else m.hiBank % banks * 0x4000 + (addr - 0x4000)

/-- `RamPhys(addr)` of R91 for a RAM bank and `addr - 0xA000`. -/
def ramPhys (c : Cart) (bank off : Nat) : Nat :=
  (bank * 0x2000 + off) % c.ramSize

/-- "ERAM exists for generations 1, 3, 5 only when `has_ram` and `ram_size > 0`" (R85). -/
def eramExists (c : Cart) : Bool :=
  c.hasRam && c.ramSize != 0

/-- What lies behind the external-RAM window at one address. -/
inductive ExtCell where
  /-- A byte of `ERAM` (R60, R95, R101, R105). -/
  | byte (off : Nat)
  /-- A 4-bit cell of generation 2 (R98). -/
  | nibble (i : Nat)
  /-- A timer register of generation 3 (R102). -/
  | timer
  /-- Nothing (R107). -/
  | absent
deriving DecidableEq, Repr

/-- The RAM window of the generation, `off = addr - 0xA000` (R60, R95, R98, R101, R102, R105, R107). -/
def extCell (c : Cart) (m : Mapper) (off : Nat) : ExtCell :=
  match m with
  | .gen0 => .byte off
  | .gen1 ramg _ bank2 mode =>
    if eramExists c && ramg then .byte (ramPhys c (if mode then bank2.toNat else 0) off) else .absent
  | .gen2 ramg _ =>
    if ramg then .nibble (off % 512) else .absent
  | .gen3 ramg _ sel =>
    if ramg = false then .absent
    else if sel.toNat < 0x8 then
      if eramExists c then .byte (ramPhys c sel.toNat off) else .absent
    else if sel.toNat ≤ 0xC then .timer
    else .absent
  | .gen5 ramg _ _ ramb =>
    if eramExists c && ramg then .byte (ramPhys c ramb.toNat off) else .absent

/-- The size of `ERAM` (R31): how many cells the generation has. -/
def eramSize (c : Cart) (m : Mapper) : Nat :=
  match m with
  | .gen0 => 0x2000
  | .gen2 .. => 512
  | .gen1 .. | .gen3 .. | .gen5 .. => if eramExists c then c.ramSize else 0

end Sys2Proof.Machine
end

