-- ==== Sys2Proof/Machine/Memory.lean ====
section
/-!
DEFINITION. Reading and writing one byte of a storage array, keeping its canonical form.
-/
namespace Sys2Proof

/-- The byte at an offset. -/
def Memory.read : Memory → Nat → Byte
  | [], _ => Config.unlistedByte
  | (k', v) :: m, k => if k' = k then v else Memory.read m k

/-- The array without what it lists at an offset. -/
def Memory.erase (m : Memory) (k : Nat) : Memory :=
  m.filter (fun x => x.1 != k)

/-- The array with one more entry, before the first larger offset. -/
def Memory.insert : Memory → Nat → Byte → Memory
  | [], k, v => [(k, v)]
  | (k', v') :: m, k, v =>
    if k < k' then (k, v) :: (k', v') :: m else (k', v') :: Memory.insert m k v

/-- The array with the byte at an offset replaced; a byte equal to what an unlisted offset reads as is
not listed. -/
def Memory.write (m : Memory) (k : Nat) (v : Byte) : Memory :=
  if v = Config.unlistedByte then Memory.erase m k else Memory.insert (Memory.erase m k) k v

end Sys2Proof
end

