-- ==== Sys2Proof/Machine/Ops.lean ====
section
/-!
DEFINITION. The named operations over memory and registers: the address decoder and the bus
(spec/20_memory.md R50 to R70), the fetch helpers (spec/30_encoding.md R130, R131), the push
(spec/43_jump_call.md R202), what every instruction does to `PC` and `CYC` (R23, R132), and taking a
fault (spec/60_exceptions.md R225).
-/
namespace Sys2Proof.Machine

/-! ### The address decoder -/

/-- The ten ranges of R51, each with its offset. -/
inductive Region where
  | rom (off : Nat)
  | video
  | ext (off : Nat)
  | wram (off : Nat)
  | echo (off : Nat)
  | oam (off : Nat)
  | unused
  | io (off : Nat)
  | hram (off : Nat)
  | ie
deriving DecidableEq, Repr

/-- The decoder: "a single pure function from address to (region, offset)" (R51). -/
def decodeAddr (addr : Word) : Region :=
  let n := addr.toNat
  if n < 0x8000 then .rom n
  else if n < 0xA000 then .video
  else if n < 0xC000 then .ext (n - 0xA000)
  else if n < 0xE000 then .wram (n - 0xC000)
  else if n < 0xFE00 then .echo (n - 0xE000)
  else if n < 0xFEA0 then .oam (n - 0xFE00)
  else if n < 0xFF00 then .unused
  else if n < 0xFF80 then .io (n - 0xFF00)
  else if n < 0xFFFF then .hram (n - 0xFF80)
  else .ie

/-- One cell of the storage of R31 that a program can write. -/
inductive Loc where
  | eram (off : Nat)
  | wram (off : Nat)
  | oam (off : Nat)
  | io (off : Nat)
  | hram (off : Nat)
  | ie
deriving DecidableEq, Repr

/-- What a byte transaction at an address reaches now. -/
inductive Access where
  /-- A byte of the ROM image; a write is the mapper's (R58, R90). -/
  | rom (phys : Nat)
  /-- Plain storage (R60 to R67). -/
  | cell (loc : Loc)
  /-- A 4-bit cell of `ERAM` (R98). -/
  | nibble (i : Nat)
  /-- A generation-3 timer register (R102). -/
  | timer
  /-- No storage: reads as this byte, writes are dropped (R64, R107). -/
  | fixed (v : Byte)
  /-- The video range (R59). -/
  | video
deriving DecidableEq, Repr

/-- The access behind the external-RAM window; where nothing is, a read gives 0xFF (R107;
PRESUMED, unsafe: log entry 17). -/
def ExtCell.access : ExtCell → Access
  | .byte off => .cell (.eram off)
  | .nibble i => .nibble i
  | .timer => .timer
  | .absent => .fixed 0xFF

/-- The access an address decodes to under a cartridge and its mapper registers. -/
def resolve (c : Cart) (m : Mapper) (addr : Word) : Access :=
  match decodeAddr addr with
  | .rom off => .rom (romPhys c m off)
  | .video => .video
  | .ext off => (extCell c m off).access
  | .wram off => .cell (.wram off)
  | .echo off => .cell (.wram off)
  | .oam off => .cell (.oam off)
  | .unused => .fixed 0x00
  | .io off => .cell (.io off)
  | .hram off => .cell (.hram off)
  | .ie => .cell .ie

/-- The access an address decodes to in a state. -/
def State.access (s : State) (addr : Word) : Access :=
  resolve s.cart s.mapper addr

/-! ### Storage cells -/

/-- The byte a cell holds. -/
def State.readCell (s : State) : Loc → Byte
  | .eram off => s.eram.read off
  | .wram off => s.wram.read off
  | .oam off => s.oam.read off
  | .io off => s.io.read off
  | .hram off => s.hram.read off
  | .ie => s.ie

/-- The state with one cell replaced. -/
def State.writeCell (s : State) (loc : Loc) (v : Byte) : State :=
  match loc with
  | .eram off => { s with eram := s.eram.write off v }
  | .wram off => { s with wram := s.wram.write off v }
  | .oam off => { s with oam := s.oam.write off v }
  | .io off => { s with io := s.io.write off v }
  | .hram off => { s with hram := s.hram.write off v }
  | .ie => { s with ie := v }

/-- The state with a mapper register written (R90); generation 0 drops the write (R58). -/
def State.writeMapper (s : State) (addr : Word) (v : Byte) : State :=
  { s with mapper := s.mapper.write addr v }

/-- The state after a free value was drawn (R102). -/
def State.drawn (s : State) : State :=
  { s with draws := s.draws + 1 }

/-- The state with the ROM image byte at a physical offset replaced. No step does this; it stands for
the host's load (R36). -/
def State.placeRom (s : State) (phys : Nat) (v : Byte) : State :=
  { s with cart := { s.cart with rom := s.cart.rom.write phys v } }

/-! ### The bus -/

/-- The byte a read of `addr` gives now, `none` where it is a draw (R102); the video range faults (R59;
DESIGN CHOICE, safe: log entry 13). The upper bits of a 4-bit cell are PRESUMED, unsafe: log entry 16. -/
def busPeek (s : State) (addr : Word) : Except Fault (Option Byte) :=
  match s.access addr with
  | .rom phys => .ok (some (s.cart.rom.read phys))
  | .cell loc => .ok (some (s.readCell loc))
  | .nibble i => .ok (some (0xF0 ||| s.readCell (.eram i)))
  | .timer => .ok none
  | .fixed v => .ok (some v)
  | .video => .error (.videoAccess addr .read)

/-- `MemRead(addr, 1)` (R52). It changes nothing but the count of free values drawn (DESIGN CHOICE, safe:
log entry 18). -/
def busRead (s : State) (addr : Word) : Except Fault (Byte × State) :=
  match busPeek s addr with
  | .error f => .error f
  | .ok (some v) => .ok (v, s)
  | .ok none => .ok (Config.freeByte s.draws, s.drawn)

/-- `MemWrite(addr, 1, v)` (R53). -/
def busWrite (s : State) (addr : Word) (v : Byte) : Except Fault State :=
  match s.access addr with
  | .rom _ => .ok (s.writeMapper addr v)
  | .cell loc => .ok (s.writeCell loc v)
  | .nibble i => .ok (s.writeCell (.eram i) (v &&& 0x0F))
  | .timer => .ok s
  | .fixed _ => .ok s
  | .video => .error (.videoAccess addr .write)

/-- `MemRead(addr, 2)`: low byte first, high byte at `addr + 1` modulo 2^16 (R54, R57). -/
def memRead16 (s : State) (addr : Word) : Except Fault (Word × State) :=
  match busRead s addr with
  | .error f => .error f
  | .ok (lo, s1) =>
    match busRead s1 (addr + 1) with
    | .error f => .error f
    | .ok (hi, s2) => .ok (Word.ofBytes hi lo, s2)

/-- `MemWrite(addr, 2, v)`: low byte first, high byte at `addr + 1` modulo 2^16 (R55, R57). The order in
time is a DESIGN CHOICE, unsafe in one corner: log entry 22. The wrap is log entry 11. -/
def memWrite16 (s : State) (addr : Word) (v : Word) : Except Fault State :=
  match busWrite s addr v.low with
  | .error f => .error f
  | .ok s1 => busWrite s1 (addr + 1) v.high

/-- The host's placing of a byte where a read of `addr` finds it; where no storage lies behind `addr`
nothing changes. -/
def State.place (s : State) (addr : Word) (v : Byte) : State :=
  match s.access addr with
  | .rom phys => s.placeRom phys v
  | .cell loc => s.writeCell loc v
  | .nibble i => s.writeCell (.eram i) (v &&& 0x0F)
  | .timer => s
  | .fixed _ => s
  | .video => s

/-- The bytes of a list placed from `addr` upward, modulo 2^16. -/
def State.placeBytes (s : State) (addr : Word) : List Byte → State
  | [] => s
  | v :: vs => State.placeBytes (s.place addr v) (addr + 1) vs

/-! ### Registers -/

/-- `PC <- target` (R11). -/
def State.setPc (s : State) (target : Word) : State :=
  { s with pc := target }

/-- `SP <- v`. -/
def State.setSp (s : State) (v : Word) : State :=
  { s with sp := v }

/-- `A <- v`. -/
def State.setA (s : State) (v : Byte) : State :=
  { s with a := v }

/-- What every instruction does besides its effect: `CYC <- CYC + COST[op]` (R132), and `PC` advanced
over its `len` bytes, modulo 2^16 (R23, R24; DESIGN CHOICE, unsafe at the wrap: log entry 11). -/
def State.retire (s : State) (op : Byte) (len : Nat) : State :=
  { s with pc := s.pc + BitVec.ofNat 16 len, cyc := s.cyc + s.params.cost op }

/-! ### Fetch -/

/-- `Fetch8()` (R130). -/
def fetch8 (s : State) : Except Fault (Byte × State) :=
  match busRead s s.pc with
  | .error f => .error f
  | .ok (b, s1) => .ok (b, s1.setPc (s.pc + 1))

/-- `Fetch16()` (R131). -/
def fetch16 (s : State) : Except Fault (Word × State) :=
  match memRead16 s s.pc with
  | .error f => .error f
  | .ok (w, s1) => .ok (w, s1.setPc (s.pc + 2))

/-- The fetch of the 16-bit immediate of `LD rr,d16`: `Fetch16()`, or two single fetches, high byte
first, with `IMM16_ORDER = big` (R131). -/
def fetchImm16 (s : State) : Except Fault (Word × State) :=
  match s.params.imm16Order with
  | .little => fetch16 s
  | .big =>
    match fetch8 s with
    | .error f => .error f
    | .ok (hi, s1) =>
      match fetch8 s1 with
      | .error f => .error f
      | .ok (lo, s2) => .ok (Word.ofBytes hi lo, s2)

/-- The operand fetch of an opcode row, giving the instruction. -/
def fetchOperand (s : State) : OpRow → Except Fault (Instr × State)
  | .op i => .ok (i, s)
  | .d8 k =>
    match fetch8 s with
    | .error f => .error f
    | .ok (b, s1) => .ok (k b, s1)
  | .ld16 k =>
    match fetchImm16 s with
    | .error f => .error f
    | .ok (w, s1) => .ok (k w, s1)
  | .d16 k =>
    match fetch16 s with
    | .error f => .error f
    | .ok (w, s1) => .ok (k w, s1)

/-- The fetch and decode part of `Step` (R132): the opcode, the decode check right after it (R226), the
operands. A machine whose fault record is set has no step (R34): it answers its fault again. The state
that is answered has `PC` back at `pc0`, so that an instruction's meaning is stated from there
(DEDUCED, safe: log entry 24). -/
def fetchInstr (s : State) : Except Fault (Instr × State) :=
  match s.fault with
  | some f => .error f
  | none =>
    match fetch8 s with
    | .error f => .error f
    | .ok (op, s1) =>
      match opRow op with
      | none => .error (.unsupportedOpcode op s.pc)
      | some row =>
        match fetchOperand s1 row with
        | .error f => .error f
        | .ok (i, s2) => .ok (i, s2.setPc s.pc)

/-! ### The stack -/

/-- `Push16(v)` (R202). -/
def push16 (s : State) (v : Word) : Except Fault State :=
  memWrite16 (s.setSp (s.sp - 2)) (s.sp - 2) v

/-! ### Taking a fault -/

/-- The state after a step that raised `f`: only the fault record changes (R34, R225). DESIGN CHOICE,
unsafe for the video fault: log entry 12. -/
def State.recordFault (s : State) (f : Fault) : State :=
  { s with fault := some f }

end Sys2Proof.Machine
end

