-- ==== Sys2Proof/Machine/Flags.lean ====
section
/-!
DEFINITION. The flags (spec/10_state.md R26, R27) and the ALU functions that compute them
(spec/42_alu.md R160 to R163).
-/
namespace Sys2Proof.Machine

/-- The four flags (R26). -/
inductive Flag where
  | z | n | h | c
deriving DecidableEq, Repr

/-- The bit of `F` a flag is (R26). -/
def Flag.bit : Flag → Nat
  | .z => 7
  | .n => 6
  | .h => 5
  | .c => 4

/-- The value of a flag. -/
def State.flag (s : State) (x : Flag) : Bool :=
  s.f.getLsbD x.bit

/-- `F` with one flag set or cleared, the other bits as they were (R27). -/
def setFlag (f : Byte) (x : Flag) (v : Bool) : Byte :=
  if v then f ||| (1#8 <<< x.bit) else f &&& ~~~(1#8 <<< x.bit)

/-- `Z ++ N ++ H ++ C ++ 0b0000` (R163). -/
def packFlags (z n h c : Bool) : Byte :=
  BitVec.ofBool z ++ BitVec.ofBool n ++ BitVec.ofBool h ++ BitVec.ofBool c ++ 0#4

/-- `WriteFlags(Z, N, H, C)` (R163). -/
def State.writeFlags (s : State) (z n h c : Bool) : State :=
  { s with f := packFlags z n h c }

/-- What an ALU function of width `w` returns. -/
structure AluResult (w : Nat) where
  r : BitVec w
  z : Bool
  n : Bool
  h : Bool
  c : Bool
deriving DecidableEq, Repr

/-- `ALU_ADD8(a, b)` (R160). -/
def aluAdd8 (a b : Byte) : AluResult 8 where
  r := a + b
  z := a + b == 0
  n := false
  h := decide ((a.extractLsb' 0 4).toNat + (b.extractLsb' 0 4).toNat > 0xF)
  c := decide (a.toNat + b.toNat > 0xFF)

/-- `ALU_SUB8(a, b)` (R161). The sense of `H` and `C` is PRESUMED, unsafe: log entry 7. -/
def aluSub8 (a b : Byte) : AluResult 8 where
  r := a - b
  z := a - b == 0
  n := true
  h := decide ((a.extractLsb' 0 4).toNat < (b.extractLsb' 0 4).toNat)
  c := decide (a.toNat < b.toNat)

/-- `ALU_ADD16(a, b, Zold)` (R162); `ADD16_Z` says whether `Z` comes from the result
(DESIGN CHOICE, unsafe where it is fixed: log entry 6). -/
def aluAdd16 (mode : Add16Z) (a b : Word) (zold : Bool) : AluResult 16 where
  r := a + b
  z := match mode with
       | .fromResult => a + b == 0
       | .unchanged => zold
  n := false
  h := decide ((a.extractLsb' 0 12).toNat + (b.extractLsb' 0 12).toNat > 0xFFF)
  c := decide (a.toNat + b.toNat > 0xFFFF)

/-- `A <- r` and `WriteFlags` of an 8-bit ALU result (R168, R179). -/
def State.commit8 (s : State) (x : AluResult 8) : State :=
  (s.setA x.r).writeFlags x.z x.n x.h x.c

end Sys2Proof.Machine
end

