-- ==== Sys2Proof/Machine/Operands.lean ====
section
/-!
DEFINITION. The operand forms: the pair view (spec/10_state.md R21), the 8-bit operand `x[i]` and the
16-bit operand `xx[p]` (spec/30_encoding.md R124, R125), the high-memory address (spec/44_ldh.md R212).
-/
namespace Sys2Proof.Machine

/-- The 8-bit operand `x[i]`, in index order (R124). PRESUMED, unsafe: log entry 30. -/
inductive Op8 where
  | b | c | d | e | h | l | mem | a
deriving DecidableEq, Repr

/-- The 16-bit operand `xx[p]`, in index order (R125). PRESUMED, unsafe: log entry 30. -/
inductive Op16 where
  | bc | de | hl | sp
deriving DecidableEq, Repr

/-- The pair view `AF` (R21). -/
def State.af (s : State) : Word := Word.ofBytes s.a s.f

/-- The pair view `BC` (R21). -/
def State.bc (s : State) : Word := Word.ofBytes s.b s.c

/-- The pair view `DE` (R21). -/
def State.de (s : State) : Word := Word.ofBytes s.d s.e

/-- The pair view `HL` (R21). -/
def State.hl (s : State) : Word := Word.ofBytes s.h s.l

/-- `x[i]` as a value; `x[6]` is `MemRead(HL, 1)` (R124). -/
def State.readOp8 (s : State) : Op8 → Except Fault (Byte × State)
  | .b => .ok (s.b, s)
  | .c => .ok (s.c, s)
  | .d => .ok (s.d, s)
  | .e => .ok (s.e, s)
  | .h => .ok (s.h, s)
  | .l => .ok (s.l, s)
  | .mem => busRead s s.hl
  | .a => .ok (s.a, s)

/-- `xx[p]` as a value (R125). -/
def State.readOp16 (s : State) : Op16 → Word
  | .bc => s.bc
  | .de => s.de
  | .hl => s.hl
  | .sp => s.sp

/-- `xx[p] <- v`; a pair takes `v[15:8]` and `v[7:0]` (R21), `SP` is not split (R20). -/
def State.writeOp16 (s : State) (p : Op16) (v : Word) : State :=
  match p with
  | .bc => { s with b := v.high, c := v.low }
  | .de => { s with d := v.high, e := v.low }
  | .hl => { s with h := v.high, l := v.low }
  | .sp => { s with sp := v }

/-- `ea = 0xFF00 + zext_16(a8)` (R212). That the offset is an immediate is PRESUMED, unsafe: log
entry 8. -/
def ldhAddr (a8 : Byte) : Word :=
  0xFF00 + a8.setWidth 16

end Sys2Proof.Machine
end

