-- ==== Sys2Proof/Machine/Alu.lean ====
section
/-!
DEFINITION. The arithmetic instructions (spec/42_alu.md R164 to R188).
-/
namespace Sys2Proof.Machine

/-- `ADD HL,xx[p]` (R164): both operands are read before `HL` is written. -/
def addHl (op : Byte) (p : Op16) (s : State) : Host.Outcome State Fault Refusal :=
  let x := aluAdd16 s.params.add16Z s.hl (s.readOp16 p) (s.flag .z)
  .next (((s.writeOp16 .hl x.r).writeFlags x.z x.n x.h x.c).retire op 1)

/-- ADD HL,BC (R164). -/
def execAddHlBc (s : State) : Host.Outcome State Fault Refusal :=
  addHl 0x09 .bc s

/-- ADD HL,DE (R165). -/
def execAddHlDe (s : State) : Host.Outcome State Fault Refusal :=
  addHl 0x19 .de s

/-- ADD HL,HL (R166). -/
def execAddHlHl (s : State) : Host.Outcome State Fault Refusal :=
  addHl 0x29 .hl s

/-- ADD HL,SP (R167). -/
def execAddHlSp (s : State) : Host.Outcome State Fault Refusal :=
  addHl 0x39 .sp s

/-- An 8-bit ALU function applied to `A` and `x[i]` (R168, R179). -/
def accumulate (alu : Byte → Byte → AluResult 8) (op : Byte) (x : Op8) (s : State) :
    Host.Outcome State Fault Refusal :=
  match s.readOp8 x with
  | .error f => .fault f
  | .ok (b, s1) => .next ((s1.commit8 (alu s1.a b)).retire op 1)

/-- An 8-bit ALU function applied to `A` and the immediate `d8` (R178, R188). -/
def accumulateImm (alu : Byte → Byte → AluResult 8) (op : Byte) (d8 : Byte) (s : State) :
    Host.Outcome State Fault Refusal :=
  .next ((s.commit8 (alu s.a d8)).retire op 2)

/-- ADD A,B (R170). -/
def execAddAB (s : State) : Host.Outcome State Fault Refusal :=
  accumulate aluAdd8 0x80 .b s

/-- ADD A,C (R171). -/
def execAddAC (s : State) : Host.Outcome State Fault Refusal :=
  accumulate aluAdd8 0x81 .c s

/-- ADD A,D (R172). -/
def execAddAD (s : State) : Host.Outcome State Fault Refusal :=
  accumulate aluAdd8 0x82 .d s

/-- ADD A,E (R173). -/
def execAddAE (s : State) : Host.Outcome State Fault Refusal :=
  accumulate aluAdd8 0x83 .e s

/-- ADD A,H (R174). -/
def execAddAH (s : State) : Host.Outcome State Fault Refusal :=
  accumulate aluAdd8 0x84 .h s

/-- ADD A,L (R175). -/
def execAddAL (s : State) : Host.Outcome State Fault Refusal :=
  accumulate aluAdd8 0x85 .l s

/-- ADD A,(HL) (R176). -/
def execAddAMem (s : State) : Host.Outcome State Fault Refusal :=
  accumulate aluAdd8 0x86 .mem s

/-- ADD A,A (R177). -/
def execAddAA (s : State) : Host.Outcome State Fault Refusal :=
  accumulate aluAdd8 0x87 .a s

/-- ADD A,d8 (R178). -/
def execAddAImm (d8 : Byte) (s : State) : Host.Outcome State Fault Refusal :=
  accumulateImm aluAdd8 0xC6 d8 s

/-- SUB B (R180). -/
def execSubB (s : State) : Host.Outcome State Fault Refusal :=
  accumulate aluSub8 0x90 .b s

/-- SUB C (R181). -/
def execSubC (s : State) : Host.Outcome State Fault Refusal :=
  accumulate aluSub8 0x91 .c s

/-- SUB D (R182). -/
def execSubD (s : State) : Host.Outcome State Fault Refusal :=
  accumulate aluSub8 0x92 .d s

/-- SUB E (R183). -/
def execSubE (s : State) : Host.Outcome State Fault Refusal :=
  accumulate aluSub8 0x93 .e s

/-- SUB H (R184). -/
def execSubH (s : State) : Host.Outcome State Fault Refusal :=
  accumulate aluSub8 0x94 .h s

/-- SUB L (R185). -/
def execSubL (s : State) : Host.Outcome State Fault Refusal :=
  accumulate aluSub8 0x95 .l s

/-- SUB (HL) (R186). -/
def execSubMem (s : State) : Host.Outcome State Fault Refusal :=
  accumulate aluSub8 0x96 .mem s

/-- SUB A (R187). -/
def execSubA (s : State) : Host.Outcome State Fault Refusal :=
  accumulate aluSub8 0x97 .a s

/-- SUB d8 (R188). -/
def execSubImm (d8 : Byte) (s : State) : Host.Outcome State Fault Refusal :=
  accumulateImm aluSub8 0xD6 d8 s

end Sys2Proof.Machine
end

