-- ==== Sys2Proof/Machine/Jump.lean ====
section
/-!
DEFINITION. Jump and call (spec/43_jump_call.md).
-/
namespace Sys2Proof.Machine

/-- JP a16 (R200). The target is not checked: a video address faults at the next fetch. -/
def execJp (target : Word) (s : State) : Host.Outcome State Fault Refusal :=
  .next ((s.retire 0xC3 3).setPc target)

/-- CALL a16 (R201): the return address `pc0 + 3` is pushed, then `PC <- a16`. -/
def execCall (target : Word) (s : State) : Host.Outcome State Fault Refusal :=
  match push16 s (s.pc + 3) with
  | .error f => .fault f
  | .ok s1 => .next ((s1.retire 0xCD 3).setPc target)

end Sys2Proof.Machine
end

