-- ==== Sys2Proof/Machine/Ldh.lean ====
section
/-!
DEFINITION. The I/O-port shorthand store and load (spec/44_ldh.md).
-/
namespace Sys2Proof.Machine

/-- LDH (a8),A (R210). -/
def execLdhStore (a8 : Byte) (s : State) : Host.Outcome State Fault Refusal :=
  match busWrite s (ldhAddr a8) s.a with
  | .error f => .fault f
  | .ok s1 => .next (s1.retire 0xE0 2)

/-- LDH A,(a8) (R211). -/
def execLdhLoad (a8 : Byte) (s : State) : Host.Outcome State Fault Refusal :=
  match busRead s (ldhAddr a8) with
  | .error f => .fault f
  | .ok (v, s1) => .next ((s1.setA v).retire 0xF0 2)

end Sys2Proof.Machine
end

