-- ==== Sys2Proof/Machine/Load16.lean ====
section
/-!
DEFINITION. The 16-bit immediate loads (spec/41_load16.md).
-/
namespace Sys2Proof.Machine

/-- `LD xx[p],d16` (R150); the immediate was assembled by the fetch (R131). -/
def loadPair (op : Byte) (p : Op16) (v : Word) (s : State) : Host.Outcome State Fault Refusal :=
  .next ((s.writeOp16 p v).retire op 3)

/-- LD BC,d16 (R151). -/
def execLdBcD16 (v : Word) (s : State) : Host.Outcome State Fault Refusal :=
  loadPair 0x01 .bc v s

/-- LD DE,d16 (R152). -/
def execLdDeD16 (v : Word) (s : State) : Host.Outcome State Fault Refusal :=
  loadPair 0x11 .de v s

/-- LD HL,d16 (R153). -/
def execLdHlD16 (v : Word) (s : State) : Host.Outcome State Fault Refusal :=
  loadPair 0x21 .hl v s

/-- LD SP,d16 (R154). -/
def execLdSpD16 (v : Word) (s : State) : Host.Outcome State Fault Refusal :=
  loadPair 0x31 .sp v s

end Sys2Proof.Machine
end

