-- ==== Sys2Proof/Machine/Nop.lean ====
section
/-!
DEFINITION. The no-op (spec/40_nop.md).
-/
namespace Sys2Proof.Machine

/-- NOP (R140). -/
def execNop (s : State) : Host.Outcome State Fault Refusal :=
  .next (s.retire 0x00 1)

end Sys2Proof.Machine
end

