-- ==== Sys2Proof/Machine/Dispatch.lean ====
section
/-!
DEFINITION. The dispatch of spec/30_encoding.md R126: one arm per constructor of Instr.
-/
namespace Sys2Proof.Machine

/-- The meaning of an instruction whose opcode byte is at `s.pc` and whose operands are fetched. -/
def exec (i : Instr) (s : State) : Host.Outcome State Fault Refusal :=
  match i with
  | .nop => Sys2Proof.Machine.execNop s
  | .ldBcD16 x => Sys2Proof.Machine.execLdBcD16 x s
  | .ldDeD16 x => Sys2Proof.Machine.execLdDeD16 x s
  | .ldHlD16 x => Sys2Proof.Machine.execLdHlD16 x s
  | .ldSpD16 x => Sys2Proof.Machine.execLdSpD16 x s
  | .addHlBc => Sys2Proof.Machine.execAddHlBc s
  | .addHlDe => Sys2Proof.Machine.execAddHlDe s
  | .addHlHl => Sys2Proof.Machine.execAddHlHl s
  | .addHlSp => Sys2Proof.Machine.execAddHlSp s
  | .addAB => Sys2Proof.Machine.execAddAB s
  | .addAC => Sys2Proof.Machine.execAddAC s
  | .addAD => Sys2Proof.Machine.execAddAD s
  | .addAE => Sys2Proof.Machine.execAddAE s
  | .addAH => Sys2Proof.Machine.execAddAH s
  | .addAL => Sys2Proof.Machine.execAddAL s
  | .addAMem => Sys2Proof.Machine.execAddAMem s
  | .addAA => Sys2Proof.Machine.execAddAA s
  | .addAImm x => Sys2Proof.Machine.execAddAImm x s
  | .subB => Sys2Proof.Machine.execSubB s
  | .subC => Sys2Proof.Machine.execSubC s
  | .subD => Sys2Proof.Machine.execSubD s
  | .subE => Sys2Proof.Machine.execSubE s
  | .subH => Sys2Proof.Machine.execSubH s
  | .subL => Sys2Proof.Machine.execSubL s
  | .subMem => Sys2Proof.Machine.execSubMem s
  | .subA => Sys2Proof.Machine.execSubA s
  | .subImm x => Sys2Proof.Machine.execSubImm x s
  | .jp x => Sys2Proof.Machine.execJp x s
  | .call x => Sys2Proof.Machine.execCall x s
  | .ldhStore x => Sys2Proof.Machine.execLdhStore x s
  | .ldhLoad x => Sys2Proof.Machine.execLdhLoad x s

end Sys2Proof.Machine
end

