-- ==== Sys2Proof/Machine/Step.lean ====
section
/-!
DEFINITION. One step (spec/30_encoding.md R132), and an instruction placed where the next step fetches.
-/
namespace Sys2Proof.Machine

/-- One step (R132): fetch and decode, then the meaning of the instruction. -/
def step (s : State) : Host.Outcome State Fault Refusal :=
  match fetchInstr s with
  | .error f => .fault f
  | .ok (i, s1) => exec i s1

/-- `s` with the instruction of a table word stored at `PC` and the two addresses after it. -/
def State.withFetchWord (s : State) (nbits w : Nat) : State :=
  s.placeBytes s.pc (tableBytes nbits w)

end Sys2Proof.Machine
end

