-- ==== Sys2Proof/Machine/Load.lean ====
section
/-!
DEFINITION. The cartridge configuration and the creation of the machine from a ROM image
(spec/20_memory.md R80 to R87, spec/60_exceptions.md R223, spec/70_reset_and_hazards.md R250). The byte
tables are PRESUMED (log entry 20).
-/
namespace Sys2Proof.Machine

/-- A ROM image: its length and its bytes by offset. -/
structure Image where
  length : Nat
  bytes  : Memory
deriving DecidableEq, Repr

/-- `rom[off]` of an image. -/
def Image.byte (img : Image) (off : Nat) : Byte :=
  img.bytes.read off

/-- What the cartridge-type byte says (R80, R83). -/
structure CartType where
  gen           : Gen
  hasRam        : Bool := false
  battery       : Bool := false
  timer         : Bool := false
  rumble        : Bool := false
  accelerometer : Bool := false
deriving DecidableEq, Repr

/-- The cartridge-type table (R83); `none` is an unrecognised byte. Generation 2 has its RAM built
in. -/
def cartType (byte : Byte) : Option CartType :=
  match byte.toNat with
  | 0x00 => some { gen := .g0 }
  | 0x01 => some { gen := .g1 }
  | 0x02 => some { gen := .g1, hasRam := true }
  | 0x03 => some { gen := .g1, hasRam := true, battery := true }
  | 0x05 => some { gen := .g2, hasRam := true }
  | 0x06 => some { gen := .g2, hasRam := true, battery := true }
  | 0x08 => some { gen := .g0, hasRam := true }
  | 0x09 => some { gen := .g0, hasRam := true, battery := true }
  | 0x0B => some { gen := .special }
  | 0x0C => some { gen := .special, hasRam := true }
  | 0x0D => some { gen := .special, hasRam := true, battery := true }
  | 0x0F => some { gen := .g3, timer := true, battery := true }
  | 0x10 => some { gen := .g3, hasRam := true, timer := true, battery := true }
  | 0x11 => some { gen := .g3 }
  | 0x12 => some { gen := .g3, hasRam := true }
  | 0x13 => some { gen := .g3, hasRam := true, battery := true }
  | 0x19 => some { gen := .g5 }
  | 0x1A => some { gen := .g5, hasRam := true }
  | 0x1B => some { gen := .g5, hasRam := true, battery := true }
  | 0x1C => some { gen := .g5, rumble := true }
  | 0x1D => some { gen := .g5, hasRam := true, rumble := true }
  | 0x1E => some { gen := .g5, hasRam := true, rumble := true, battery := true }
  | 0x20 => some { gen := .g6 }
  | 0x22 => some { gen := .g7, hasRam := true, accelerometer := true, rumble := true, battery := true }
  | 0xFC => some { gen := .special }
  | 0xFD => some { gen := .special }
  | 0xFE => some { gen := .special }
  | 0xFF => some { gen := .special }
  | _ => none

/-- The ROM size of a size code (R84); `none` is one of the three refused codes. -/
def romSizeOf (code : Byte) : Option Nat :=
  if code.toNat ≤ 8 then some (0x8000 <<< code.toNat)
  else if code = 0x52 ∨ code = 0x53 ∨ code = 0x54 then none
  else some Config.smallRom

/-- The RAM size of a size code (R85). -/
def ramSizeOf (code : Byte) : Nat :=
  match code.toNat with
  | 0 => 0
  | 1 => 0x800
  | 2 => 0x2000
  | 3 => 0x8000
  | 4 => 0x20000
  | 5 => 0x10000
  | _ => 0

/-- The colour support of header byte 0x0143 (R82). -/
def colorOf (byte : Byte) : Color :=
  if byte = 0xC0 then .only else if byte = 0x80 then .capable else .none

/-- The licensing rule R86 holds of the super-console flag and the old licence byte. -/
def licensed (super old : Byte) : Bool :=
  !(super == 0x03 && old != 0x33)

/-- The mapper registers at reset (R92, R96, R99, R103); `none` for a generation without a mapper rule
(R106). -/
def resetMapper : Gen → Option Mapper
  | .g0 => some .gen0
  | .g1 => some (.gen1 false 1 0 false)
  | .g2 => some (.gen2 false 1)
  | .g3 => some (.gen3 false 1 0)
  | .g5 => some (.gen5 false 1 0 0)
  | .g6 => none
  | .g7 => none
  | .special => none

/-- The configuration and the reset mapper of an image, or the reason it is refused (R80 to R87). The
order of the checks where several conditions hold is the model's: log entry 21. -/
def loadCart (img : Image) : Except LoadReason (Cart × Mapper) :=
  if img.length < 0x150 then .error .imageLength
  else
    match cartType (img.byte 0x147), romSizeOf (img.byte 0x148) with
    | none, _ => .error (.type (img.byte 0x147))
    | some _, none => .error (.romSize (img.byte 0x148))
    | some t, some size =>
      if licensed (img.byte 0x146) (img.byte 0x14B) = false then .error .licensing
      else
        match resetMapper t.gen with
        | none => .error (.mapper t.gen)
        | some m =>
          if img.length ≠ size then .error .imageLength
          else
            .ok ({ rom := img.bytes, romSize := size, hasRam := t.hasRam
                   ramSize := ramSizeOf (img.byte 0x149), color := colorOf (img.byte 0x143)
                   battery := t.battery, timer := t.timer, rumble := t.rumble
                   accelerometer := t.accelerometer, special := t.gen == .special }, m)

/-- `RAM_INIT` (R8, R38): the initial contents of the writable storage. -/
structure RamInit where
  eram : Memory
  wram : Memory
  oam  : Memory
  io   : Memory
  hram : Memory
  ie   : Byte
deriving DecidableEq, Repr

/-- The default of `RAM_INIT`: every byte 0x00 (R8). -/
def RamInit.default : RamInit where
  eram := []
  wram := []
  oam  := []
  io   := []
  hram := []
  ie   := Config.unlistedByte

/-- The state of steps 4 to 6 of R250. -/
def State.boot (p : Params) (regs : ResetRegs) (ram : RamInit) (c : Cart) (m : Mapper) : State :=
  let r := regs.column c.color
  { a := r.a, f := r.f, b := r.b, c := r.c, d := r.d, e := r.e, h := r.h, l := r.l
    sp := r.sp, pc := r.pc, cyc := 0
    eram := ram.eram, wram := ram.wram, oam := ram.oam, io := ram.io, hram := ram.hram, ie := ram.ie
    mapper := m, fault := none
    cart := c, params := p, draws := 0 }

/-- The creation of the machine from a ROM image (R250) under the parameters of R8: the state after
reset, or the refusal of the cartridge (R223). -/
def State.powerOn (p : Params) (regs : ResetRegs) (ram : RamInit) (img : Image) :
    Host.Outcome State Fault Refusal :=
  match loadCart img with
  | .error r => .refused (.unsupportedCartridge r)
  | .ok (c, m) => .next (State.boot p regs ram c m)

end Sys2Proof.Machine
end

