-- ==== Sys2Proof/Machine/Run.lean ====
section
/-!
DEFINITION. The state after a step, a faulting one too (spec/60_exceptions.md R225, R227).
-/
namespace Sys2Proof.Machine

/-- The state after a step: the next state; or, when the step raised a fault, the state before it with
the fault record set (R225). A refused step would change nothing. -/
def State.afterStep (s : State) : State :=
  match step s with
  | .next t => t
  | .fault f => s.recordFault f
  | .refused _ => s

/-- The state after a number of steps. -/
def State.afterSteps (s : State) : Nat → State
  | 0 => s
  | k + 1 => State.afterSteps s.afterStep k

end Sys2Proof.Machine
end

