-- ==== Sys2Proof/Safety.lean ====
section
/-!
DEFINITION. The terms claims are stated in: the invariants of the machine, the parts of a state an
instruction leaves alone, and the conditions under which an access completes.
-/
namespace Sys2Proof.Machine

/-! ### Invariants -/

/-- "bits 3–0 are always zero" (R26). -/
abbrev State.FlagsInv (s : State) : Prop :=
  s.f.extractLsb' 0 4 = 0

/-- Every storage array is in its canonical form and inside its size (R31). -/
abbrev State.MemoryInv (s : State) : Prop :=
  (Memory.wf s.eram ∧ Memory.within s.eram (eramSize s.cart s.mapper)) ∧
  (Memory.wf s.wram ∧ Memory.within s.wram 0x2000) ∧
  (Memory.wf s.oam ∧ Memory.within s.oam 0xA0) ∧
  (Memory.wf s.io ∧ Memory.within s.io 0x80) ∧
  (Memory.wf s.hram ∧ Memory.within s.hram 0x7F)

/-- The bank registers with the zero-to-one adjustment are not zero (R93, R97, R100), and a
generation-2 cell holds four bits (R98). -/
def State.MapperInv (s : State) : Prop :=
  match s.mapper with
  | .gen0 => True
  | .gen1 _ bank1 _ _ => bank1 ≠ 0
  | .gen2 _ romb => romb ≠ 0 ∧ ∀ x ∈ s.eram, x.2.extractLsb' 4 4 = 0
  | .gen3 _ romb _ => romb ≠ 0
  | .gen5 .. => True

/-- With the table's costs, "`CYC` is a multiple of 4 in every reachable state" (R264). -/
abbrev State.CyclesInv (s : State) : Prop :=
  s.params.costs = [] → s.cyc % 4 = 0

/-- The invariants together, and a cartridge configuration that R80 to R87 can produce. -/
abbrev State.Inv (s : State) : Prop :=
  s.FlagsInv ∧ s.MemoryInv ∧ s.MapperInv ∧ s.CyclesInv ∧ Cart.wf s.cart

/-! ### What stays -/

/-- The two states agree on all storage, the mapper registers and `IE`. -/
abbrev State.SameMemory (s t : State) : Prop :=
  t.eram = s.eram ∧ t.wram = s.wram ∧ t.oam = s.oam ∧ t.io = s.io ∧ t.hram = s.hram ∧ t.ie = s.ie ∧
  t.mapper = s.mapper ∧ t.cart = s.cart

/-! ### Conditions on addresses -/

/-- The address is in the video range 0x8000-0x9FFF (R59). -/
abbrev InVideo (addr : Word) : Prop :=
  0x8000 ≤ addr.toNat ∧ addr.toNat < 0xA000

/-- The parameters give every opcode the cost of the table of R262. -/
abbrev State.TableCosts (s : State) : Prop :=
  s.params.costs = []

/-- With the table's costs, `COST[op]` is `n` (R262). -/
abbrev State.CostIs (s : State) (op : Byte) (n : Nat) : Prop :=
  s.TableCosts → s.params.cost op = n

/-- The storage cell a write to an address would replace, if it reaches one. -/
def storedCell (s : State) (addr : Word) : Option Loc :=
  match s.access addr with
  | .cell loc => some loc
  | .nibble i => some (.eram i)
  | _ => none

/-! ### Bytes in a row -/

/-- `n` bytes read from an address upward, modulo 2^16, with the free values they draw. -/
def readBytes : Nat → State → Word → Except Fault (List Byte × State)
  | 0, s, _ => .ok ([], s)
  | n + 1, s, addr =>
    match busRead s addr with
    | .error f => .error f
    | .ok (b, s1) =>
      match readBytes n s1 (addr + 1) with
      | .error f => .error f
      | .ok (bs, s2) => .ok (b :: bs, s2)

/-! ### What the arithmetic instructions do, in exact arithmetic -/

/-- `t` is `s` after adding `b` to `A` with the flags of R160, over an instruction of opcode `op`,
`len` bytes and `n` cycles; nothing else changes. -/
def Add8Post (s t : State) (b op : Byte) (len n : Nat) : Prop :=
  t.a.toNat = (s.a.toNat + b.toNat) % 256 ∧
  t.f.toNat = (if (s.a.toNat + b.toNat) % 256 = 0 then 128 else 0) +
    (if s.a.toNat % 16 + b.toNat % 16 > 15 then 32 else 0) +
    (if s.a.toNat + b.toNat > 255 then 16 else 0) ∧
  t = { s with a := t.a, f := t.f, pc := s.pc + BitVec.ofNat 16 len
               cyc := s.cyc + s.params.cost op } ∧
  s.CostIs op n

/-- `t` is `s` after subtracting `b` from `A` with the flags of R161, over an instruction of opcode
`op`, `len` bytes and `n` cycles; nothing else changes. -/
def Sub8Post (s t : State) (b op : Byte) (len n : Nat) : Prop :=
  t.a.toNat = (s.a.toNat + 256 - b.toNat) % 256 ∧
  t.f.toNat = (if s.a.toNat = b.toNat then 128 else 0) + 64 +
    (if s.a.toNat % 16 < b.toNat % 16 then 32 else 0) +
    (if s.a.toNat < b.toNat then 16 else 0) ∧
  t = { s with a := t.a, f := t.f, pc := s.pc + BitVec.ofNat 16 len
               cyc := s.cyc + s.params.cost op } ∧
  s.CostIs op n

/-- `t` is `s` after adding `w` to `HL` with the flags of R162, over an instruction of opcode `op`, one
byte and 8 cycles; nothing else changes. -/
def AddHlPost (s t : State) (w : Nat) (op : Byte) : Prop :=
  let hl := s.h.toNat * 256 + s.l.toNat
  t.h.toNat * 256 + t.l.toNat = (hl + w) % 65536 ∧
  t.f.toNat =
    (match s.params.add16Z with
     | .fromResult => if (hl + w) % 65536 = 0 then 128 else 0
     | .unchanged => s.f.toNat / 128 * 128) +
    (if hl % 4096 + w % 4096 > 4095 then 32 else 0) +
    (if hl + w > 65535 then 16 else 0) ∧
  t = { s with h := t.h, l := t.l, f := t.f, pc := s.pc + 1, cyc := s.cyc + s.params.cost op } ∧
  s.CostIs op 8

/-! ### Who writes what -/

/-- The registers an instruction can write besides `PC` and `CYC` (R22). -/
inductive Reg where
  | a | f | b | c | d | e | h | l | sp
deriving DecidableEq, Repr

/-- The value of a register, zero-extended. -/
def State.reg (s : State) : Reg → Word
  | .a => s.a.setWidth 16
  | .f => s.f.setWidth 16
  | .b => s.b.setWidth 16
  | .c => s.c.setWidth 16
  | .d => s.d.setWidth 16
  | .e => s.e.setWidth 16
  | .h => s.h.setWidth 16
  | .l => s.l.setWidth 16
  | .sp => s.sp

/-- The "written by" column of the table of R22, with R28 for `F`. -/
def writtenRegs : Instr → List Reg
  | .nop => []
  | .ldBcD16 _ => [.b, .c]
  | .ldDeD16 _ => [.d, .e]
  | .ldHlD16 _ => [.h, .l]
  | .ldSpD16 _ => [.sp]
  | .addHlBc | .addHlDe | .addHlHl | .addHlSp => [.h, .l, .f]
  | .addAB | .addAC | .addAD | .addAE | .addAH | .addAL | .addAMem | .addAA | .addAImm _ => [.a, .f]
  | .subB | .subC | .subD | .subE | .subH | .subL | .subMem | .subA | .subImm _ => [.a, .f]
  | .jp _ => []
  | .call _ => [.sp]
  | .ldhStore _ => []
  | .ldhLoad _ => [.a]

end Sys2Proof.Machine
end

