-- ==== Sys2Proof/Certificates/Slice0/Obligations.lean ====
section
/-!
DEFINITION. The statements for the provers, from the numbered rules of spec/.
-/
open Sys2Proof Sys2Proof.Machine

/-! ### Encoding -/

/-- The words of one instruction of each family, written out from R121, R123 and R126, decode to it.
The opcode bytes and the two immediate orders are decisions of the spec (log entries 4 and 5). -/
def Obligations.DecodeKnownWords : Prop :=
  decode .little [0x00] = .ok (.nop, []) ∧
  decode .little [0x01, 0x34, 0x12] = .ok (.ldBcD16 0x1234, []) ∧
  decode .big [0x01, 0x34, 0x12] = .ok (.ldBcD16 0x3412, []) ∧
  decode .little [0x31, 0xFE, 0xFF, 0x00] = .ok (.ldSpD16 0xFFFE, [0x00]) ∧
  decode .little [0x29] = .ok (.addHlHl, []) ∧
  decode .little [0x86] = .ok (.addAMem, []) ∧
  decode .little [0xC6, 0xFF] = .ok (.addAImm 0xFF, []) ∧
  decode .little [0x97] = .ok (.subA, []) ∧
  decode .little [0xD6, 0x0F] = .ok (.subImm 0x0F, []) ∧
  decode .big [0xC3, 0x50, 0x01] = .ok (.jp 0x0150, []) ∧
  decode .little [0xCD, 0x10, 0x01] = .ok (.call 0x0110, []) ∧
  decode .little [0xE0, 0x81] = .ok (.ldhStore 0x81, []) ∧
  decode .little [0xF0, 0x80] = .ok (.ldhLoad 0x80, [])

/-- Decoding the bytes of any instruction gives it back, whatever follows them.
The opcode bytes and the immediate order are decisions of the spec (log entries 4 and 5). -/
def Obligations.DecodeOfEncode : Prop :=
  ∀ (o : Imm16Order) (i : Instr) (rest : List Byte), i.wf = true →
    decode o (encode o i ++ rest) = .ok (i, rest)

/-- Bytes that decode to an instruction are its encoding: every instruction has one encoding.
The opcode bytes and the immediate order are decisions of the spec (log entries 4 and 5). -/
def Obligations.EncodeOfDecode : Prop :=
  ∀ (o : Imm16Order) (bs rest : List Byte) (i : Instr), decode o bs = .ok (i, rest) →
    bs = encode o i ++ rest ∧ i.wf = true

/-- The 31 opcode bytes of R126 are the admitted ones, and the decoder rejects every other opcode byte
by name, whatever follows it (R127).
The byte values are a decision of the spec (log entry 4). -/
def Obligations.OnlyAdmittedOpcodesDecode : Prop :=
  admittedOpcodes.length = 31 ∧ admittedOpcodes.Nodup ∧
  (∀ i : Instr, i.opcode ∈ admittedOpcodes) ∧
  ∀ (o : Imm16Order) (op : Byte) (rest : List Byte),
    decode o (op :: rest) = .error (.unsupportedOpcode op) ↔ op ∉ admittedOpcodes

/-! ### The step -/

/-- When the bytes read from `PC` decode to an instruction, the step is that instruction's meaning, run
in the state before the step but for the free values the fetch drew; it draws none unless a byte comes
from a timer register (R132, R102).
The state exec starts from, with `PC` at the opcode, is the model's (log entry 24); so is the count of
draws (log entry 18). -/
def Obligations.StepRunsFetchedInstruction : Prop :=
  ∀ (s t : State) (n : Nat) (bs : List Byte) (i : Instr),
    s.fault = none → readBytes n s s.pc = .ok (bs, t) →
    decode s.params.imm16Order bs = .ok (i, []) →
    step s = exec i t ∧ t = { s with draws := t.draws } ∧
    ((∀ k < n, busPeek s (s.pc + BitVec.ofNat 16 k) ≠ .ok none) → t = s)

/-- A fetched byte that is not admitted faults with the byte and its address, and only the fault record
changes (R221).
That `CYC` stays is a decision of the spec (log entry 12). -/
def Obligations.UnsupportedOpcodeFaults : Prop :=
  ∀ (s t : State) (op : Byte),
    s.fault = none → busRead s s.pc = .ok (op, t) → op ∉ admittedOpcodes →
    step s = .fault (.unsupportedOpcode op s.pc) ∧
    s.afterStep = { s with fault := some (.unsupportedOpcode op s.pc) }

/-- The first byte of an instruction that lies in the video range faults the fetch, after the bytes
before it were read and the opcode was found admitted (R222, R226).
The fault on reads is a decision of the spec (log entry 13). -/
def Obligations.FetchInVideoFaults : Prop :=
  ∀ (s t : State) (n : Nat) (bs : List Byte),
    s.fault = none → readBytes n s s.pc = .ok (bs, t) →
    (n = 0 ∨ ∃ i : Instr, bs.head? = some i.opcode ∧ n < i.length) →
    InVideo (s.pc + BitVec.ofNat 16 n) →
    step s = .fault (.videoAccess (s.pc + BitVec.ofNat 16 n) .read)

/-- A step is a next state or a fault, never a refusal (R6). -/
def Obligations.StepNeverRefuses : Prop :=
  ∀ (s : State) (r : Refusal), step s ≠ .refused r

/-- A fault keeps no effect of its step but the fault record, and the machine never steps again
(R225, R228).
Precision of the video fault is a decision of the spec, the answer of a faulted machine the model's (log
entry 12). -/
def Obligations.FaultIsPreciseAndTerminal : Prop :=
  ∀ (s : State) (x : Fault), s.fault = none → step s = .fault x →
    s.afterStep = { s with fault := some x } ∧
    step s.afterStep = .fault x ∧
    ∀ k, State.afterSteps s.afterStep k = s.afterStep

/-- The only faults of a meaning are the data read of the two `(HL)` forms and the push of `CALL` in
the video range (R222); so every other instruction completes in every state. -/
def Obligations.MeaningsFaultOnlyInVideo : Prop :=
  ∀ (i : Instr) (s : State) (x : Fault), exec i s = .fault x →
    ((i = .addAMem ∨ i = .subMem) ∧ InVideo s.hl ∧ x = .videoAccess s.hl .read) ∨
    (∃ target addr, i = .call target ∧ (addr = s.sp - 2 ∨ addr = s.sp - 1) ∧ InVideo addr ∧
      x = .videoAccess addr .write)

/-- An instruction's bytes placed at the reset `PC` are what the first step after reset runs.
The blank cartridge is the model's choice (log entry 1), the reset `PC` a decision of the spec (log entry
3). -/
def Obligations.PlacedInstructionRunsAfterReset : Prop :=
  ∀ (i : Instr),
    let s := State.reset.placeBytes State.reset.pc (encode State.reset.params.imm16Order i)
    step s = exec i s ∧ s.pc = 0x0100 ∧ s.cyc = 0

/-! ### The instructions -/

/-- NOP advances `PC` by one and `CYC` by its cost, 4 in the table; nothing else changes (R140).
The opcode byte is a decision of the spec (log entry 4). -/
def Obligations.NopEffect : Prop :=
  ∀ (s : State),
    exec .nop s = .next { s with pc := s.pc + 1, cyc := s.cyc + s.params.cost 0x00 } ∧
    s.CostIs 0x00 4

/-- The four pair loads write the high and the low half of the immediate, `SP` whole; `PC` moves by 3,
`CYC` by 12; nothing else changes (R150 to R154).
The pair encodings and register names are decisions of the spec (log entries 4 and 30). -/
def Obligations.LoadPairEffect : Prop :=
  ∀ (s : State) (v : Word),
    (∃ t, exec (.ldBcD16 v) s = .next t ∧ t.b.toNat = v.toNat / 256 ∧ t.c.toNat = v.toNat % 256 ∧
      t = { s with b := t.b, c := t.c, pc := s.pc + 3, cyc := s.cyc + s.params.cost 0x01 }) ∧
    (∃ t, exec (.ldDeD16 v) s = .next t ∧ t.d.toNat = v.toNat / 256 ∧ t.e.toNat = v.toNat % 256 ∧
      t = { s with d := t.d, e := t.e, pc := s.pc + 3, cyc := s.cyc + s.params.cost 0x11 }) ∧
    (∃ t, exec (.ldHlD16 v) s = .next t ∧ t.h.toNat = v.toNat / 256 ∧ t.l.toNat = v.toNat % 256 ∧
      t = { s with h := t.h, l := t.l, pc := s.pc + 3, cyc := s.cyc + s.params.cost 0x21 }) ∧
    exec (.ldSpD16 v) s =
      .next { s with sp := v, pc := s.pc + 3, cyc := s.cyc + s.params.cost 0x31 } ∧
    s.CostIs 0x01 12 ∧ s.CostIs 0x11 12 ∧ s.CostIs 0x21 12 ∧ s.CostIs 0x31 12

/-- ADD HL,BC/DE/HL/SP: the sum modulo 2^16, `N = 0`, half-carry out of bit 11, carry out of bit 15,
`Z` as `ADD16_Z` says; nothing else changes (R162, R164 to R167).
The choice of `Z` and the cost are decisions of the spec (log entries 6 and 9). -/
def Obligations.AddHlEffect : Prop :=
  ∀ (s : State),
    (∃ t, exec .addHlBc s = .next t ∧ AddHlPost s t (s.b.toNat * 256 + s.c.toNat) 0x09) ∧
    (∃ t, exec .addHlDe s = .next t ∧ AddHlPost s t (s.d.toNat * 256 + s.e.toNat) 0x19) ∧
    (∃ t, exec .addHlHl s = .next t ∧ AddHlPost s t (s.h.toNat * 256 + s.l.toNat) 0x29) ∧
    (∃ t, exec .addHlSp s = .next t ∧ AddHlPost s t s.sp.toNat 0x39)

/-- ADD A with a register or an immediate: the sum modulo 2^8 and all four flags; nothing else changes
(R160, R168 to R178).
The costs are a decision of the spec (log entry 9). -/
def Obligations.AddAEffect : Prop :=
  ∀ (s : State),
    (∃ t, exec .addAB s = .next t ∧ Add8Post s t s.b 0x80 1 4) ∧
    (∃ t, exec .addAC s = .next t ∧ Add8Post s t s.c 0x81 1 4) ∧
    (∃ t, exec .addAD s = .next t ∧ Add8Post s t s.d 0x82 1 4) ∧
    (∃ t, exec .addAE s = .next t ∧ Add8Post s t s.e 0x83 1 4) ∧
    (∃ t, exec .addAH s = .next t ∧ Add8Post s t s.h 0x84 1 4) ∧
    (∃ t, exec .addAL s = .next t ∧ Add8Post s t s.l 0x85 1 4) ∧
    (∃ t, exec .addAA s = .next t ∧ Add8Post s t s.a 0x87 1 4) ∧
    (∀ d8, ∃ t, exec (.addAImm d8) s = .next t ∧ Add8Post s t d8 0xC6 2 8)

/-- SUB with a register or an immediate: the difference modulo 2^8 and all four flags; nothing else
changes (R161, R179 to R188).
The sense of `H` and `C` and the costs are decisions of the spec (log entries 7 and 9). -/
def Obligations.SubEffect : Prop :=
  ∀ (s : State),
    (∃ t, exec .subB s = .next t ∧ Sub8Post s t s.b 0x90 1 4) ∧
    (∃ t, exec .subC s = .next t ∧ Sub8Post s t s.c 0x91 1 4) ∧
    (∃ t, exec .subD s = .next t ∧ Sub8Post s t s.d 0x92 1 4) ∧
    (∃ t, exec .subE s = .next t ∧ Sub8Post s t s.e 0x93 1 4) ∧
    (∃ t, exec .subH s = .next t ∧ Sub8Post s t s.h 0x94 1 4) ∧
    (∃ t, exec .subL s = .next t ∧ Sub8Post s t s.l 0x95 1 4) ∧
    (∃ t, exec .subA s = .next t ∧ Sub8Post s t s.a 0x97 1 4 ∧ t.a = 0x00 ∧ t.f = 0xC0) ∧
    (∀ d8, ∃ t, exec (.subImm d8) s = .next t ∧ Sub8Post s t d8 0xD6 2 8)

/-- ADD A,(HL) and SUB (HL) complete outside the video range, on the byte a read of `HL` gives; a draw
is counted, nothing else changes (R176, R186, R102).
The cost and the draw are decisions of the spec (log entries 9 and 18). -/
def Obligations.MemoryOperandEffect : Prop :=
  ∀ (s : State), ¬ InVideo s.hl →
    ∃ b u, busRead s s.hl = .ok (b, u) ∧ u = { s with draws := u.draws } ∧
      (∀ v, busPeek s s.hl = .ok (some v) → b = v ∧ u = s) ∧
      (∃ t, exec .addAMem s = .next t ∧ Add8Post u t b 0x86 1 8) ∧
      (∃ t, exec .subMem s = .next t ∧ Sub8Post u t b 0x96 1 8)

/-- ADD A,(HL) and SUB (HL) with `HL` in the video range raise the read fault of `HL` (R168, R222).
The fault on reads is a decision of the spec (log entry 13). -/
def Obligations.MemoryOperandTraps : Prop :=
  ∀ (s : State), InVideo (s.h ++ s.l) →
    exec .addAMem s = .fault (.videoAccess (s.h ++ s.l) .read) ∧
    exec .subMem s = .fault (.videoAccess (s.h ++ s.l) .read)

/-- JP writes `PC` and adds its cost; the target is not checked and nothing else changes (R200).
The cost is a decision of the spec (log entry 9). -/
def Obligations.JumpEffect : Prop :=
  ∀ (s : State) (target : Word),
    exec (.jp target) s = .next { s with pc := target, cyc := s.cyc + s.params.cost 0xC3 } ∧
    s.CostIs 0xC3 16

/-- CALL completes when neither pushed byte falls in the video range: `SP` goes down by two, the low
byte of `pc0 + 3` is written at the new `SP`, then its high byte at the address after it, each by the
write rule of its region, and `PC` becomes the target (R201, R202).
The wrap, the order in time and the cost are decisions of the spec (log entries 9, 11 and 22). -/
def Obligations.CallEffect : Prop :=
  ∀ (s : State) (target : Word), ¬ InVideo (s.sp - 2) → ¬ InVideo (s.sp - 1) →
    ∃ u w,
      busWrite { s with sp := s.sp - 2 } (s.sp - 2) (BitVec.ofNat 8 ((s.pc + 3).toNat % 256)) = .ok u ∧
      busWrite u (s.sp - 1) (BitVec.ofNat 8 ((s.pc + 3).toNat / 256)) = .ok w ∧
      exec (.call target) s =
        .next { w with pc := target, cyc := s.cyc + s.params.cost 0xCD } ∧
      w = { s with sp := s.sp - 2, eram := w.eram, wram := w.wram, oam := w.oam, io := w.io
                   hram := w.hram, ie := w.ie, mapper := w.mapper } ∧
      s.CostIs 0xCD 24

/-- CALL with its stack in plain storage: the two cells are different, hold the return address with its
low byte first, read back at `SP` and `SP + 1`, and every other cell is as before (R201, R202).
The wrap is a decision of the spec (log entry 11). -/
def Obligations.CallPushesReturnAddress : Prop :=
  ∀ (s : State) (target : Word) (x y : Loc), Cart.wf s.cart →
    s.access (s.sp - 2) = .cell x → s.access (s.sp - 1) = .cell y →
    x ≠ y ∧ ∃ t, exec (.call target) s = .next t ∧ t.pc = target ∧ t.sp = s.sp - 2 ∧
      (t.readCell x).toNat = (s.pc + 3).toNat % 256 ∧
      (t.readCell y).toNat = (s.pc + 3).toNat / 256 ∧
      busPeek t t.sp = .ok (some (t.readCell x)) ∧
      busPeek t (t.sp + 1) = .ok (some (t.readCell y)) ∧
      ∀ z, z ≠ x → z ≠ y → t.readCell z = s.readCell z

/-- CALL with a pushed byte in the video range raises the write fault of the first such byte, the low
one before the high one (R201, R222, R226).
The wrap and the order in time are decisions of the spec (log entries 11 and 22). -/
def Obligations.CallTrapsInVideo : Prop :=
  ∀ (s : State) (target : Word),
    (InVideo (s.sp - 2) → exec (.call target) s = .fault (.videoAccess (s.sp - 2) .write)) ∧
    (¬ InVideo (s.sp - 2) → InVideo (s.sp - 1) →
      exec (.call target) s = .fault (.videoAccess (s.sp - 1) .write))

/-- LDH (a8),A always completes: afterwards the byte at `0xFF00 + a8` reads as `A` and every other
address reads as before; no register but `PC` and `CYC` changes (R210, R212, R65 to R67).
The register, the offset, the plain I/O storage and the cost are decisions of the spec (log entries 8, 9
and 23). -/
def Obligations.LdhStoreEffect : Prop :=
  ∀ (s : State) (a8 : Byte),
    ∃ t, exec (.ldhStore a8) s = .next t ∧
      (∀ addr, busPeek t addr =
        if addr.toNat = 0xFF00 + a8.toNat then .ok (some s.a) else busPeek s addr) ∧
      t = { s with io := t.io, hram := t.hram, ie := t.ie, pc := s.pc + 2
                   cyc := s.cyc + s.params.cost 0xE0 } ∧
      s.CostIs 0xE0 12

/-- LDH A,(a8) always completes: `A` is the byte at `0xFF00 + a8`; the flags and all else are as before
(R211, R212).
The register, the offset, the plain I/O storage and the cost are decisions of the spec (log entries 8, 9
and 23). -/
def Obligations.LdhLoadEffect : Prop :=
  ∀ (s : State) (a8 : Byte) (addr : Word), addr.toNat = 0xFF00 + a8.toNat →
    ∃ v, busPeek s addr = .ok (some v) ∧
      exec (.ldhLoad a8) s =
        .next { s with a := v, pc := s.pc + 2, cyc := s.cyc + s.params.cost 0xF0 } ∧
      s.CostIs 0xF0 12

/-! ### Frames and whole-machine rules -/

/-- Every instruction but CALL and LDH (a8),A leaves all storage, the mapper and the byte every address
reads as it was (R22, R70). -/
def Obligations.OtherInstructionsKeepMemory : Prop :=
  ∀ (i : Instr) (s t : State), exec i s = .next t →
    (∀ target, i ≠ .call target) → (∀ a8, i ≠ .ldhStore a8) →
    s.SameMemory t ∧ ∀ addr, busPeek t addr = busPeek s addr

/-- What CALL leaves alone: every register but `SP`, `PC` and `CYC`; every storage cell that is not the
one of a pushed byte; and, where neither pushed byte is a mapper register write, every address that does
not read such a cell (R201). -/
def Obligations.CallFrame : Prop :=
  ∀ (s t : State) (target : Word), exec (.call target) s = .next t →
    t = { s with sp := s.sp - 2, pc := target, cyc := s.cyc + s.params.cost 0xCD, eram := t.eram
                 wram := t.wram, oam := t.oam, io := t.io, hram := t.hram, ie := t.ie
                 mapper := t.mapper } ∧
    (∀ z, storedCell s (s.sp - 2) ≠ some z → storedCell s (s.sp - 1) ≠ some z →
      t.readCell z = s.readCell z) ∧
    (s.mapper = .gen0 ∨ (0x8000 ≤ (s.sp - 2).toNat ∧ 0x8000 ≤ (s.sp - 1).toNat) →
      t.mapper = s.mapper ∧
      ∀ addr, (storedCell s addr = none ∨ (storedCell s addr ≠ storedCell s (s.sp - 2) ∧
          storedCell s addr ≠ storedCell s (s.sp - 1))) →
        busPeek t addr = busPeek s addr)

/-- An instruction changes no register but those the table of R22 gives it (R22, R28). -/
def Obligations.RegistersChangeOnlyWhereWritten : Prop :=
  ∀ (i : Instr) (s t : State) (r : Reg), exec i s = .next t → t.reg r ≠ s.reg r → r ∈ writtenRegs i

/-- The flags steer nothing: with `ADD16_Z = from_result`, two states that differ in `F` alone run the
same instruction to the same fault, or to two states that differ in `F` at most, where each kept its own
`F` or both wrote the same (R28). -/
def Obligations.FlagsSteerNothing : Prop :=
  ∀ (i : Instr) (s : State) (g : Byte), s.params.add16Z = .fromResult →
    match exec i s, exec i { s with f := g } with
    | .next t, .next u => u = { t with f := u.f } ∧ ((t.f = s.f ∧ u.f = g) ∨ t.f = u.f)
    | .fault x, .fault y => x = y
    | _, _ => False

/-- The cycle counter steers nothing: a step from a counter `n` higher does the same with a counter `n`
higher (R30, R261). -/
def Obligations.CycleCounterSteersNothing : Prop :=
  ∀ (s : State) (n : Nat),
    step { s with cyc := s.cyc + n } =
      match step s with
      | .next t => .next { t with cyc := t.cyc + n }
      | .fault x => .fault x
      | .refused r => .refused r

/-- Every completed instruction adds `COST` of its opcode, once; with the table's costs a step adds 4,
8, 12, 16 or 24 (R132, R263, R264).
The table is a decision of the spec (log entry 9). -/
def Obligations.CycleLaw : Prop :=
  (∀ (i : Instr) (s t : State), exec i s = .next t → t.cyc = s.cyc + s.params.cost i.opcode) ∧
  ∀ (s t : State), s.TableCosts → step s = .next t → ∃ n ∈ [4, 8, 12, 16, 24], t.cyc = s.cyc + n

/-- A step changes neither the cartridge nor the parameters nor the mapper's generation, and leaves the
fault record none (R34, R35). -/
def Obligations.FixedPartsStay : Prop :=
  ∀ (s t : State), step s = .next t →
    t.cart = s.cart ∧ t.params = s.params ∧ t.mapper.gen = s.mapper.gen ∧ s.fault = none ∧
    t.fault = none

/-- The mapper registers change only by a write into 0x0000-0x7FFF with a generation above 0, and among
the instructions only by CALL with a pushed byte there (R32, R58, R90). -/
def Obligations.MapperChangesOnlyByRomWrites : Prop :=
  (∀ (s t : State) (addr : Word) (v : Byte), busWrite s addr v = .ok t → t.mapper ≠ s.mapper →
    addr.toNat < 0x8000 ∧ s.mapper ≠ .gen0) ∧
  ∀ (i : Instr) (s t : State), exec i s = .next t → t.mapper ≠ s.mapper →
    (∃ target, i = .call target) ∧ s.mapper ≠ .gen0 ∧
    ((s.sp - 2).toNat < 0x8000 ∨ (s.sp - 1).toNat < 0x8000)

/-! ### Invariants -/

/-- Every step keeps: `F[3:0] = 0`; every storage array canonical and inside its size; the bank
registers with the zero-to-one adjustment not zero and the generation-2 cells four bits wide; `CYC` a
multiple of 4 with the table's costs; the cartridge configuration (R26, R31, R93, R97, R98, R100,
R264).
The mapper layouts, the form of a 4-bit cell and the costs are decisions (log entries 9, 15 and 27). -/
def Obligations.StepKeepsInvariant : Prop :=
  ∀ (s t : State), s.Inv → step s = .next t → t.Inv

/-- The invariant holds right after reset.
The reset cartridge is the model's choice (log entry 1), the registers a decision of the spec (log entry
3). -/
def Obligations.InvariantHoldsAtReset : Prop :=
  State.reset.Inv

/-- The invariant holds of every machine created, with the default reset registers and memory, from an
image whose bytes are canonical and inside its length (R250).
The reset registers are a decision of the spec (log entry 3). -/
def Obligations.InvariantHoldsAtPowerOn : Prop :=
  ∀ (p : Params) (img : Image) (s : State), Memory.wf img.bytes →
    Memory.within img.bytes img.length →
    State.powerOn p ResetRegs.default RamInit.default img = .next s → s.Inv

/-! ### The bus -/

/-- The ten ranges of the address decoder and what lies in each (R51, R60 to R67); behind the external-RAM
window the mapper's access (R98, R102, R107).
The flat arrays, the plain I/O block, the mapper layouts with the 4-bit cells, the 0xFF of absent RAM and
the timer draw are decisions of the spec (log entries 14, 15, 17, 18 and 23). -/
def Obligations.EveryAddressHasItsRegion : Prop :=
  ∀ (s : State) (addr : Word),
    (addr.toNat < 0x8000 → ∃ p, s.access addr = .rom p) ∧
    (InVideo addr → s.access addr = .video) ∧
    (0xA000 ≤ addr.toNat → addr.toNat < 0xC000 →
      (s.mapper = .gen0 → s.access addr = .cell (.eram (addr.toNat - 0xA000))) ∧
      ((∃ o, s.access addr = .cell (.eram o)) ∨ (∃ i, s.access addr = .nibble i) ∨
        s.access addr = .timer ∨ s.access addr = .fixed 0xFF)) ∧
    (0xC000 ≤ addr.toNat → addr.toNat < 0xE000 →
      s.access addr = .cell (.wram (addr.toNat - 0xC000))) ∧
    (0xE000 ≤ addr.toNat → addr.toNat < 0xFE00 →
      s.access addr = .cell (.wram (addr.toNat - 0xE000))) ∧
    (0xFE00 ≤ addr.toNat → addr.toNat < 0xFEA0 →
      s.access addr = .cell (.oam (addr.toNat - 0xFE00))) ∧
    (0xFEA0 ≤ addr.toNat → addr.toNat < 0xFF00 → s.access addr = .fixed 0x00) ∧
    (0xFF00 ≤ addr.toNat → addr.toNat < 0xFF80 →
      s.access addr = .cell (.io (addr.toNat - 0xFF00))) ∧
    (0xFF80 ≤ addr.toNat → addr.toNat < 0xFFFF →
      s.access addr = .cell (.hram (addr.toNat - 0xFF80))) ∧
    (addr.toNat = 0xFFFF → s.access addr = .cell .ie)

/-- Every read and every write of the video range, instruction fetch included, raises `VideoAccess` with
its address and kind; no other read or write faults (R59).
The fault on reads is a decision of the spec (log entry 13). -/
def Obligations.VideoRangeFaults : Prop :=
  ∀ (s : State) (addr : Word) (v : Byte),
    (InVideo addr → busRead s addr = .error (.videoAccess addr .read) ∧
      busWrite s addr v = .error (.videoAccess addr .write)) ∧
    (InVideo s.pc → s.fault = none → step s = .fault (.videoAccess s.pc .read)) ∧
    (¬ InVideo addr → (∃ b t, busRead s addr = .ok (b, t)) ∧ ∃ t, busWrite s addr v = .ok t)

/-- A completed read gives the byte that is there and changes nothing, or is a draw of a generation-3
timer register, which counts the draw and changes nothing else (R52, R70, R102).
The count of draws is the model's own (log entry 18). -/
def Obligations.ReadsChangeNothing : Prop :=
  ∀ (s t : State) (addr : Word) (v : Byte), busRead s addr = .ok (v, t) →
    (busPeek s addr = .ok (some v) ∧ t = s) ∨
    (busPeek s addr = .ok none ∧ v = Config.freeByte s.draws ∧
      t = { s with draws := s.draws + 1 } ∧ s.mapper.gen = .g3 ∧
      0xA000 ≤ addr.toNat ∧ addr.toNat < 0xC000)

/-- A write to plain storage completes, every address of the cell (an alias too) reads the byte
afterwards, and every other address reads as before (R53, R60 to R67, R71). -/
def Obligations.PlainStorageReadsBack : Prop :=
  ∀ (s : State) (addr : Word) (x : Loc) (v : Byte), s.access addr = .cell x →
    ∃ t, busWrite s addr v = .ok t ∧
      ∀ addr', busPeek t addr' = if s.access addr' = .cell x then .ok (some v) else busPeek s addr'

/-- The echo range is the work RAM 0x2000 below it, for reads and for writes, and the last 0x200 bytes
of work RAM have no echo (R62). -/
def Obligations.EchoAliasesWorkRam : Prop :=
  ∀ (s : State) (addr : Word) (v : Byte),
    (0xE000 ≤ addr.toNat → addr.toNat < 0xFE00 →
      busRead s addr = busRead s (addr - 0x2000) ∧
      busWrite s addr v = busWrite s (addr - 0x2000) v ∧
      ∃ t, busWrite s addr v = .ok t ∧ busRead t addr = .ok (v, t) ∧
        busRead t (addr - 0x2000) = .ok (v, t)) ∧
    (0xDE00 ≤ addr.toNat → addr.toNat < 0xE000 →
      ∀ addr', s.access addr' = s.access addr → addr' = addr)

/-- ROM: a read gives the image byte at the physical address, which is the address itself without a
mapper, where a write changes nothing; with one, a write is a mapper register write; no write changes the
image (R58). -/
def Obligations.RomReadsAndWrites : Prop :=
  ∀ (s : State) (addr : Word) (v : Byte), Cart.wf s.cart → addr.toNat < 0x8000 →
    busRead s addr = .ok (s.cart.rom.read (romPhys s.cart s.mapper addr.toNat), s) ∧
    (s.mapper = .gen0 → romPhys s.cart s.mapper addr.toNat = addr.toNat ∧
      busWrite s addr v = .ok s) ∧
    busWrite s addr v = .ok { s with mapper := s.mapper.write addr v } ∧
    ∀ (addr' : Word) (t : State), busWrite s addr' v = .ok t → t.cart.rom = s.cart.rom

/-- The unused range reads 0x00 and drops writes, without a fault (R64). -/
def Obligations.UnusedRangeIsTolerated : Prop :=
  ∀ (s : State) (addr : Word) (v : Byte), 0xFEA0 ≤ addr.toNat → addr.toNat < 0xFF00 →
    busRead s addr = .ok (0x00, s) ∧ busWrite s addr v = .ok s

/-- A word written where both bytes are plain storage reads back whole (R54, R55, R57, R75).
The wrap is a decision of the spec (log entry 11). -/
def Obligations.WordRoundTrip : Prop :=
  ∀ (s : State) (addr : Word) (v : Word) (x y : Loc), Cart.wf s.cart →
    s.access addr = .cell x → s.access (addr + 1) = .cell y →
    ∃ t, memWrite16 s addr v = .ok t ∧ memRead16 t addr = .ok (v, t) ∧
      (t.readCell x).toNat = v.toNat % 256 ∧ (t.readCell y).toNat = v.toNat / 256

/-! ### The mapper -/

/-- Whatever the bank registers hold, the ROM windows stay inside the image and the RAM window inside
the RAM (R91, R31).
The reduction of bank numbers is a decision of the spec (log entry 15). -/
def Obligations.WindowsStayInside : Prop :=
  ∀ (c : Cart) (m : Mapper), Cart.wf c →
    (∀ n < 0x8000, romPhys c m n < c.romSize) ∧
    (∀ off o, off < 0x2000 → extCell c m off = .byte o → o < eramSize c m) ∧
    (∀ off i, extCell c m off = .nibble i → i < eramSize c m ∧ m.gen = .g2)

/-- Generation 1: the four registers, the two ROM windows and the RAM window (R93 to R95).
The layout is a decision of the spec (log entry 15). -/
def Obligations.Generation1Controller : Prop :=
  ∀ (s : State) (g md : Bool) (b1 : BitVec 5) (b2 : BitVec 2) (addr : Word) (v : Byte),
    s.mapper = .gen1 g b1 b2 md →
    (addr.toNat < 0x8000 → ∃ g' b1' b2' md',
      busWrite s addr v = .ok { s with mapper := .gen1 g' b1' b2' md' } ∧
      g' = (if addr.toNat < 0x2000 then decide (v.toNat % 16 = 0xA) else g) ∧
      b1'.toNat = (if 0x2000 ≤ addr.toNat ∧ addr.toNat < 0x4000 then
        (if v.toNat % 32 = 0 then 1 else v.toNat % 32) else b1.toNat) ∧
      b2'.toNat = (if 0x4000 ≤ addr.toNat ∧ addr.toNat < 0x6000 then v.toNat % 4 else b2.toNat) ∧
      md' = (if 0x6000 ≤ addr.toNat then decide (v.toNat % 2 = 1) else md)) ∧
    (addr.toNat < 0x4000 → busPeek s addr = .ok (some (s.cart.rom.read
      ((if md then b2.toNat * 32 else 0) % (s.cart.romSize / 0x4000) * 0x4000 + addr.toNat)))) ∧
    (0x4000 ≤ addr.toNat → addr.toNat < 0x8000 → busPeek s addr = .ok (some (s.cart.rom.read
      ((b2.toNat * 32 + b1.toNat) % (s.cart.romSize / 0x4000) * 0x4000 + (addr.toNat - 0x4000))))) ∧
    (0xA000 ≤ addr.toNat → addr.toNat < 0xC000 → g = true → s.cart.hasRam = true →
      s.cart.ramSize ≠ 0 → s.access addr = .cell (.eram
        (((if md then b2.toNat else 0) * 0x2000 + (addr.toNat - 0xA000)) % s.cart.ramSize)))

/-- Generation 2: the two registers selected by address bit 8, the ROM windows, and the 512 four-bit
cells that repeat through the window and read with the upper four bits set (R97, R98).
The layout and the upper bits are decisions of the spec (log entries 15 and 16). -/
def Obligations.Generation2Controller : Prop :=
  ∀ (s : State) (g : Bool) (rb : BitVec 4) (addr : Word) (v : Byte),
    s.mapper = .gen2 g rb →
    (addr.toNat < 0x8000 → ∃ g' rb',
      busWrite s addr v = .ok { s with mapper := .gen2 g' rb' } ∧
      g' = (if addr.toNat < 0x4000 ∧ addr.toNat / 256 % 2 = 0 then decide (v.toNat % 16 = 0xA)
        else g) ∧
      rb'.toNat = (if addr.toNat < 0x4000 ∧ addr.toNat / 256 % 2 = 1 then
        (if v.toNat % 16 = 0 then 1 else v.toNat % 16) else rb.toNat)) ∧
    (addr.toNat < 0x4000 → busPeek s addr = .ok (some (s.cart.rom.read
      (0 % (s.cart.romSize / 0x4000) * 0x4000 + addr.toNat)))) ∧
    (0x4000 ≤ addr.toNat → addr.toNat < 0x8000 → busPeek s addr = .ok (some (s.cart.rom.read
      (rb.toNat % (s.cart.romSize / 0x4000) * 0x4000 + (addr.toNat - 0x4000))))) ∧
    (0xA000 ≤ addr.toNat → addr.toNat < 0xC000 → g = true → ∃ t,
      busWrite s addr v = .ok t ∧ (t.readCell (.eram (addr.toNat % 512))).toNat = v.toNat % 16 ∧
      (∀ z, z ≠ .eram (addr.toNat % 512) → t.readCell z = s.readCell z) ∧
      ∀ addr' : Word, 0xA000 ≤ addr'.toNat → addr'.toNat < 0xC000 →
        addr'.toNat % 512 = addr.toNat % 512 →
        ∃ b, busRead t addr' = .ok (b, t) ∧ b.toNat = 0xF0 + v.toNat % 16)

/-- Generation 3: the three registers, the ROM windows, the RAM window, and the timer registers, whose
reads are free values and whose writes are dropped (R100 to R102).
The layout and the free value are decisions of the spec (log entries 15 and 18). -/
def Obligations.Generation3Controller : Prop :=
  ∀ (s : State) (g : Bool) (rb : BitVec 7) (sel : BitVec 4) (addr : Word) (v : Byte),
    s.mapper = .gen3 g rb sel →
    (addr.toNat < 0x8000 → ∃ g' rb' sel',
      busWrite s addr v = .ok { s with mapper := .gen3 g' rb' sel' } ∧
      g' = (if addr.toNat < 0x2000 then decide (v.toNat % 16 = 0xA) else g) ∧
      rb'.toNat = (if 0x2000 ≤ addr.toNat ∧ addr.toNat < 0x4000 then
        (if v.toNat % 128 = 0 then 1 else v.toNat % 128) else rb.toNat) ∧
      sel'.toNat = (if 0x4000 ≤ addr.toNat ∧ addr.toNat < 0x6000 then v.toNat % 16
        else sel.toNat)) ∧
    (addr.toNat < 0x4000 → busPeek s addr = .ok (some (s.cart.rom.read
      (0 % (s.cart.romSize / 0x4000) * 0x4000 + addr.toNat)))) ∧
    (0x4000 ≤ addr.toNat → addr.toNat < 0x8000 → busPeek s addr = .ok (some (s.cart.rom.read
      (rb.toNat % (s.cart.romSize / 0x4000) * 0x4000 + (addr.toNat - 0x4000))))) ∧
    (0xA000 ≤ addr.toNat → addr.toNat < 0xC000 → g = true → sel.toNat < 8 →
      s.cart.hasRam = true → s.cart.ramSize ≠ 0 → s.access addr = .cell (.eram
        ((sel.toNat * 0x2000 + (addr.toNat - 0xA000)) % s.cart.ramSize))) ∧
    (0xA000 ≤ addr.toNat → addr.toNat < 0xC000 → g = true → 8 ≤ sel.toNat → sel.toNat ≤ 0xC →
      busRead s addr = .ok (Config.freeByte s.draws, { s with draws := s.draws + 1 }) ∧
      busWrite s addr v = .ok s)

/-- Generation 5: the four registers, the ROM windows without a zero adjustment, and the RAM window
(R104, R105).
The layout is a decision of the spec (log entry 15). -/
def Obligations.Generation5Controller : Prop :=
  ∀ (s : State) (g : Bool) (r0 : BitVec 8) (r1 : BitVec 1) (rb : BitVec 4) (addr : Word) (v : Byte),
    s.mapper = .gen5 g r0 r1 rb →
    (addr.toNat < 0x8000 → ∃ g' r0' r1' rb',
      busWrite s addr v = .ok { s with mapper := .gen5 g' r0' r1' rb' } ∧
      g' = (if addr.toNat < 0x2000 then decide (v.toNat = 0x0A) else g) ∧
      r0'.toNat = (if 0x2000 ≤ addr.toNat ∧ addr.toNat < 0x3000 then v.toNat else r0.toNat) ∧
      r1'.toNat = (if 0x3000 ≤ addr.toNat ∧ addr.toNat < 0x4000 then v.toNat % 2 else r1.toNat) ∧
      rb'.toNat = (if 0x4000 ≤ addr.toNat ∧ addr.toNat < 0x6000 then v.toNat % 16
        else rb.toNat)) ∧
    (addr.toNat < 0x4000 → busPeek s addr = .ok (some (s.cart.rom.read
      (0 % (s.cart.romSize / 0x4000) * 0x4000 + addr.toNat)))) ∧
    (0x4000 ≤ addr.toNat → addr.toNat < 0x8000 → busPeek s addr = .ok (some (s.cart.rom.read
      ((r1.toNat * 256 + r0.toNat) % (s.cart.romSize / 0x4000) * 0x4000 +
        (addr.toNat - 0x4000))))) ∧
    (0xA000 ≤ addr.toNat → addr.toNat < 0xC000 → g = true → s.cart.hasRam = true →
      s.cart.ramSize ≠ 0 → s.access addr = .cell (.eram
        ((rb.toNat * 0x2000 + (addr.toNat - 0xA000)) % s.cart.ramSize)))

/-- With a mapper, external RAM that is disabled, that the cartridge does not have, or that a
generation-3 select value does not reach, reads 0xFF and drops writes, without a fault (R107).
The read value is a decision of the spec (log entry 17). -/
def Obligations.AbsentRamReadsOnes : Prop :=
  ∀ (s : State) (addr : Word) (v : Byte), 0xA000 ≤ addr.toNat → addr.toNat < 0xC000 →
    (match s.mapper with
     | .gen0 => False
     | .gen1 g _ _ _ => g = false ∨ s.cart.hasRam = false ∨ s.cart.ramSize = 0
     | .gen2 g _ => g = false
     | .gen3 g _ sel => g = false ∨ 0xD ≤ sel.toNat ∨
         (sel.toNat < 8 ∧ (s.cart.hasRam = false ∨ s.cart.ramSize = 0))
     | .gen5 g _ _ _ => g = false ∨ s.cart.hasRam = false ∨ s.cart.ramSize = 0) →
    busRead s addr = .ok (0xFF, s) ∧ busWrite s addr v = .ok s

/-! ### The cartridge and reset -/

/-- The ROM images that are refused are exactly those of R87: shorter than 0x150 bytes, an unrecognised
type byte, a refused ROM size code, the licensing rule, a controller without a mapper rule, or a length
that is not the declared size. Every other image gives a machine.
The byte tables, the length rule and the missing mappers are decisions of the spec (log entries 19 and
20). -/
def Obligations.LoadRefusals : Prop :=
  ∀ (p : Params) (regs : ResetRegs) (ram : RamInit) (img : Image),
    let code := (img.byte 0x148).toNat
    let size := if code ≤ 8 then 0x8000 * 2 ^ code else 0x8000
    let type := (img.byte 0x147).toNat
    ((∃ s, State.powerOn p regs ram img = .next s) ∨
      ∃ r, State.powerOn p regs ram img = .refused (.unsupportedCartridge r)) ∧
    ((∃ r, State.powerOn p regs ram img = .refused (.unsupportedCartridge r)) ↔
      img.length < 0x150 ∨
      type ∉ [0x00, 0x01, 0x02, 0x03, 0x05, 0x06, 0x08, 0x09, 0x0B, 0x0C, 0x0D, 0x0F, 0x10, 0x11,
        0x12, 0x13, 0x19, 0x1A, 0x1B, 0x1C, 0x1D, 0x1E, 0x20, 0x22, 0xFC, 0xFD, 0xFE, 0xFF] ∨
      code ∈ [0x52, 0x53, 0x54] ∨
      ((img.byte 0x146).toNat = 0x03 ∧ (img.byte 0x14B).toNat ≠ 0x33) ∨
      type ∈ [0x0B, 0x0C, 0x0D, 0x20, 0x22, 0xFC, 0xFD, 0xFE, 0xFF] ∨
      img.length ≠ size)

/-- A machine that was created holds the image, the sizes of R84 and R85, the mapper of its generation
at the reset values of R92, R96, R99 and R103, and the parameters and memory it was given.
The byte tables and mapper reset values are decisions of the spec (log entries 15 and 20). -/
def Obligations.AcceptedCartridgeConfiguration : Prop :=
  ∀ (p : Params) (regs : ResetRegs) (ram : RamInit) (img : Image) (s : State),
    State.powerOn p regs ram img = .next s →
    let ramCode := (img.byte 0x149).toNat
    let type := (img.byte 0x147).toNat
    s.cart.rom = img.bytes ∧ s.cart.romSize = img.length ∧ s.params = p ∧
    s.cart.ramSize = (if ramCode = 1 then 0x800 else if ramCode = 2 then 0x2000
      else if ramCode = 3 then 0x8000 else if ramCode = 4 then 0x20000
      else if ramCode = 5 then 0x10000 else 0) ∧
    (type ∈ [0x00, 0x08, 0x09] → s.mapper = .gen0) ∧
    (type ∈ [0x01, 0x02, 0x03] → s.mapper = .gen1 false 1 0 false) ∧
    (type ∈ [0x05, 0x06] → s.mapper = .gen2 false 1) ∧
    (type ∈ [0x0F, 0x10, 0x11, 0x12, 0x13] → s.mapper = .gen3 false 1 0) ∧
    (type ∈ [0x19, 0x1A, 0x1B, 0x1C, 0x1D, 0x1E] → s.mapper = .gen5 false 1 0 0) ∧
    (type ∈ [0x01, 0x02, 0x03, 0x0F, 0x10, 0x11, 0x12, 0x13, 0x19, 0x1A, 0x1B, 0x1C, 0x1D, 0x1E] →
      (s.cart.hasRam = true ↔ type ∈ [0x02, 0x03, 0x10, 0x12, 0x13, 0x1A, 0x1B, 0x1D, 0x1E])) ∧
    s.eram = ram.eram ∧ s.wram = ram.wram ∧ s.oam = ram.oam ∧ s.io = ram.io ∧ s.hram = ram.hram ∧
    s.ie = ram.ie ∧ s.cyc = 0 ∧ s.fault = none

/-- The reset registers: the colour column when header byte 0x0143 is 0xC0 or 0x80, the other column
otherwise. The register values are the spec's own decision (92 D8, marked general knowledge; log
entry 3), not the source's. -/
def Obligations.ResetRegisterValues : Prop :=
  ∀ (p : Params) (ram : RamInit) (img : Image) (s : State),
    State.powerOn p ResetRegs.default ram img = .next s →
    s.sp = 0xFFFE ∧ s.pc = 0x0100 ∧ s.cyc = 0 ∧
    (img.byte 0x143 = 0xC0 ∨ img.byte 0x143 = 0x80 →
      s.a = 0x11 ∧ s.f = 0x80 ∧ s.b = 0x00 ∧ s.c = 0x00 ∧ s.d = 0xFF ∧ s.e = 0x56 ∧ s.h = 0x00 ∧
      s.l = 0x0D) ∧
    (img.byte 0x143 ≠ 0xC0 ∧ img.byte 0x143 ≠ 0x80 →
      s.a = 0x01 ∧ s.f = 0xB0 ∧ s.b = 0x00 ∧ s.c = 0x13 ∧ s.d = 0x00 ∧ s.e = 0xD8 ∧ s.h = 0x01 ∧
      s.l = 0x4D)

/-- The model's reset state is the machine created from the blank image, a choice of the model (log
entry 1). -/
def Obligations.ResetIsBlankPowerOn : Prop :=
  State.powerOn Params.default ResetRegs.default RamInit.default { length := 0x8000, bytes := [] } =
    .next State.reset

/-! ### The shared rules -/

/-- `ALU_ADD8`: the result and the four flags in exact arithmetic (R160). -/
def Obligations.Alu8AddRule : Prop :=
  ∀ (a b : Byte),
    (aluAdd8 a b).r.toNat = (a.toNat + b.toNat) % 256 ∧
    ((aluAdd8 a b).z = true ↔ (a.toNat + b.toNat) % 256 = 0) ∧
    (aluAdd8 a b).n = false ∧
    ((aluAdd8 a b).h = true ↔ a.toNat % 16 + b.toNat % 16 > 15) ∧
    ((aluAdd8 a b).c = true ↔ a.toNat + b.toNat > 255)

/-- `WriteFlags`: bit 7 is Z, bit 6 N, bit 5 H, bit 4 C, the low nibble is zero, and `A` and everything
else is not touched (R163). -/
def Obligations.WriteFlagsRule : Prop :=
  ∀ (s : State) (z n h c : Bool),
    let t := s.writeFlags z n h c
    t.f.toNat = z.toNat * 128 + n.toNat * 64 + h.toNat * 32 + c.toNat * 16 ∧
    t.flag .z = z ∧ t.flag .n = n ∧ t.flag .h = h ∧ t.flag .c = c ∧ t = { s with f := t.f }

/-- Setting or clearing one flag gives that flag the value and leaves every other bit of `F`; and no bus
transaction changes `F` (R27). -/
def Obligations.OneFlagAtATime : Prop :=
  (∀ (f : Byte) (x : Flag) (v : Bool) (k : Nat), k < 8 →
    (setFlag f x v).getLsbD k = if k = x.bit then v else f.getLsbD k) ∧
  (∀ (s t : State) (addr : Word) (v : Byte), busRead s addr = .ok (v, t) → t.f = s.f) ∧
  (∀ (s t : State) (addr : Word) (v : Byte), busWrite s addr v = .ok t → t.f = s.f)

/-- A pair is its two bytes: the value is `high * 256 + low`, a pair write sets both bytes and is read
back, and nothing else changes (R21). -/
def Obligations.PairIsItsTwoBytes : Prop :=
  ∀ (s : State) (v : Word),
    s.af.toNat = s.a.toNat * 256 + s.f.toNat ∧
    s.bc.toNat = s.b.toNat * 256 + s.c.toNat ∧
    s.de.toNat = s.d.toNat * 256 + s.e.toNat ∧
    s.hl.toNat = s.h.toNat * 256 + s.l.toNat ∧
    (∀ p, (s.writeOp16 p v).readOp16 p = v ∧ ∀ q, q ≠ p → (s.writeOp16 p v).readOp16 q = s.readOp16 q) ∧
    (s.writeOp16 .bc v).b.toNat = v.toNat / 256 ∧ (s.writeOp16 .bc v).c.toNat = v.toNat % 256 ∧
    (s.writeOp16 .de v).d.toNat = v.toNat / 256 ∧ (s.writeOp16 .de v).e.toNat = v.toNat % 256 ∧
    (s.writeOp16 .hl v).h.toNat = v.toNat / 256 ∧ (s.writeOp16 .hl v).l.toNat = v.toNat % 256

/-- `Push16`: `SP` goes down by two modulo 2^16 and the word is written at the new `SP`, low byte at
`SP`, high byte at `SP + 1`; both are byte writes of the bus, the low one first. Only CALL uses it and
nothing pops: of the other instructions LD SP,d16 writes `SP` and the rest leave it (R202, R55, R25).
The wrap and the order in time are decisions of the spec (log entries 11 and 22). -/
def Obligations.PushRule : Prop :=
  (∀ (s : State) (v : Word),
    push16 s v = memWrite16 { s with sp := s.sp - 2 } (s.sp - 2) v ∧
    ∀ t, push16 s v = .ok t → t.sp.toNat = (s.sp.toNat + 0xFFFE) % 0x10000 ∧
      ∃ u, busWrite { s with sp := s.sp - 2 } t.sp (BitVec.ofNat 8 (v.toNat % 256)) = .ok u ∧
        busWrite u (t.sp + 1) (BitVec.ofNat 8 (v.toNat / 256)) = .ok t) ∧
  ∀ (i : Instr) (s t : State), exec i s = .next t →
    t.sp = match i with
      | .ldSpD16 v => v
      | .call _ => s.sp - 2
      | _ => s.sp

/-- The four flags are bits 7 to 4 of `F`, and bits 3 to 0 stay zero: they are zero at reset and every
step keeps them so (R26). -/
def Obligations.FlagsLowNibbleStaysZero : Prop :=
  (∀ s : State, s.f.toNat % 16 = 0 → s.f.toNat = (s.flag .z).toNat * 128 + (s.flag .n).toNat * 64 +
    (s.flag .h).toNat * 32 + (s.flag .c).toNat * 16) ∧
  State.reset.f.toNat % 16 = 0 ∧
  ∀ s t : State, s.f.toNat % 16 = 0 → step s = .next t → t.f.toNat % 16 = 0

/-- `PC` moves by one for each byte fetched; JP and CALL overwrite it; every other instruction leaves it
at the byte after its last one, from every address (R23, R24).
The wrap of the sums is a decision of the spec (log entry 11), and that `exec` starts from `PC` at the
opcode is the model's (log entry 24). -/
def Obligations.ProgramCounterLaw : Prop :=
  (∀ (s t : State) (b : Byte), fetch8 s = .ok (b, t) → t.pc = s.pc + 1) ∧
  (∀ (s t : State) (w : Word), fetch16 s = .ok (w, t) → t.pc = s.pc + 2) ∧
  ∀ (i : Instr) (s t : State), exec i s = .next t →
    t.pc = match i with
      | .jp target => target
      | .call target => target
      | _ => s.pc + BitVec.ofNat 16 i.length
end

