-- ==== Sys2Proof/Laws/Decode.lean ====
section
/-!
SUPPORT. The byte view of a 16-bit value, and what a row of the opcode map says of the encoder.
-/
namespace Sys2Proof

theorem Word.toNat_low (v : Word) : v.low.toNat = v.toNat % 256 := by
  simp [Word.low]

theorem Word.toNat_high (v : Word) : v.high.toNat = v.toNat / 256 := by
  have := v.isLt
  simp only [Word.high, BitVec.extractLsb'_toNat, Nat.shiftRight_eq_div_pow]
  omega

theorem Word.toNat_ofBytes (h l : Byte) : (Word.ofBytes h l).toNat = h.toNat * 256 + l.toNat := by
  have hl := l.isLt
  simp only [Word.ofBytes, BitVec.toNat_append]
  rw [← Nat.shiftLeft_add_eq_or_of_lt hl, Nat.shiftLeft_eq]

@[simp] theorem Word.ofBytes_high_low (v : Word) : Word.ofBytes v.high v.low = v := by
  apply BitVec.eq_of_toNat_eq
  rw [Word.toNat_ofBytes, Word.toNat_low, Word.toNat_high]
  omega

@[simp] theorem Word.high_ofBytes (h l : Byte) : (Word.ofBytes h l).high = h := by
  have := l.isLt
  apply BitVec.eq_of_toNat_eq
  rw [Word.toNat_high, Word.toNat_ofBytes]
  omega

@[simp] theorem Word.low_ofBytes (h l : Byte) : (Word.ofBytes h l).low = l := by
  have := l.isLt
  apply BitVec.eq_of_toNat_eq
  rw [Word.toNat_low, Word.toNat_ofBytes]
  omega

/-- What a row of the opcode map says of the encoder: its instructions are encoded as the opcode byte and
the operand bytes of the row's format. -/
def OpRow.EncodesAs (op : Byte) : OpRow → Prop
  | .op i => ∀ o, encode o i = [op]
  | .d8 k => ∀ o d, encode o (k d) = [op, d]
  | .ld16 k => ∀ o v, encode o (k v) = op :: imm16Bytes o v
  | .d16 k => ∀ o v, encode o (k v) = op :: imm16Bytes .little v

theorem opRow_encodesAs {op : Byte} {row : OpRow} (h : opRow op = some row) : row.EncodesAs op := by
  have hop : op = BitVec.ofNat 8 op.toNat := by simp
  unfold opRow at h
  split at h <;> try cases h
  all_goals
    next hn =>
    rw [hn] at hop
    subst hop
    simp only [OpRow.EncodesAs]
    intros
    rfl

end Sys2Proof
end

