-- ==== Sys2Proof/Laws/Memory.lean ====
section
/-!
SUPPORT. The laws of a storage array: a read after a write, and that a write keeps the canonical form,
the size, and any property of the bytes that the written byte has.
-/
namespace Sys2Proof

theorem Memory.read_erase_same (m : Memory) (k : Nat) :
    (Memory.erase m k).read k = Config.unlistedByte := by
  induction m with
  | nil => rfl
  | cons x m ih =>
    by_cases h : x.1 = k
    · simpa [Memory.erase, h] using ih
    · have hx : Memory.erase (x :: m) k = x :: Memory.erase m k := by simp [Memory.erase, h]
      rw [hx]
      simpa [Memory.read, h] using ih

theorem Memory.read_erase_other (m : Memory) {j k : Nat} (hjk : j ≠ k) :
    (Memory.erase m k).read j = m.read j := by
  induction m with
  | nil => rfl
  | cons x m ih =>
    by_cases h : x.1 = k
    · have hx : Memory.erase (x :: m) k = Memory.erase m k := by simp [Memory.erase, h]
      have hj : ¬ x.1 = j := fun e => hjk (e ▸ h)
      rw [hx]
      simpa [Memory.read, hj] using ih
    · have hx : Memory.erase (x :: m) k = x :: Memory.erase m k := by simp [Memory.erase, h]
      rw [hx]
      simp only [Memory.read, ih]

theorem Memory.read_insert_same (m : Memory) (k : Nat) (v : Byte) (hm : ∀ x ∈ m, x.1 ≠ k) :
    (Memory.insert m k v).read k = v := by
  induction m with
  | nil => simp [Memory.insert, Memory.read]
  | cons x m ih =>
    have hx : ¬ x.1 = k := hm x (by simp)
    have ih := ih (fun y hy => hm y (by simp [hy]))
    by_cases h : k < x.1
    · simp [Memory.insert, Memory.read, h]
    · simpa [Memory.insert, Memory.read, h, hx] using ih

theorem Memory.read_insert_other (m : Memory) {j k : Nat} (v : Byte) (hjk : j ≠ k) :
    (Memory.insert m k v).read j = m.read j := by
  induction m with
  | nil => simp [Memory.insert, Memory.read, Ne.symm hjk]
  | cons x m ih =>
    by_cases h : k < x.1
    · simp [Memory.insert, Memory.read, h, Ne.symm hjk]
    · simp [Memory.insert, Memory.read, h, ih]

theorem Memory.mem_erase {m : Memory} {k : Nat} {x : Host.Cell} (hx : x ∈ Memory.erase m k) :
    x ∈ m ∧ x.1 ≠ k := by
  simpa [Memory.erase] using hx

theorem Memory.mem_insert {m : Memory} {k : Nat} {v : Byte} {x : Host.Cell}
    (hx : x ∈ Memory.insert m k v) : x = (k, v) ∨ x ∈ m := by
  induction m with
  | nil => simpa [Memory.insert] using hx
  | cons y m ih =>
    by_cases h : k < y.1
    · simpa [Memory.insert, h] using hx
    · have hx' : x = y ∨ x ∈ Memory.insert m k v := by simpa [Memory.insert, h] using hx
      rcases hx' with rfl | hx'
      · simp
      · rcases ih hx' with h' | h' <;> simp [h']

/-- Reading the offset just written gives the byte written. -/
@[simp] theorem Memory.read_write_same (m : Memory) (k : Nat) (v : Byte) :
    (m.write k v).read k = v := by
  unfold Memory.write
  split
  · next hv => rw [hv]; exact Memory.read_erase_same m k
  · exact Memory.read_insert_same _ k v (fun x hx => (Memory.mem_erase hx).2)

/-- A write leaves every other offset alone. -/
theorem Memory.read_write_other (m : Memory) {j k : Nat} (v : Byte) (hjk : j ≠ k) :
    (m.write k v).read j = m.read j := by
  unfold Memory.write
  split
  · exact Memory.read_erase_other m hjk
  · rw [Memory.read_insert_other _ v hjk]; exact Memory.read_erase_other m hjk

/-- What an entry of a written array is. -/
theorem Memory.mem_write {m : Memory} {k : Nat} {v : Byte} {x : Host.Cell}
    (hx : x ∈ m.write k v) : x = (k, v) ∧ v ≠ Config.unlistedByte ∨ x ∈ m ∧ x.1 ≠ k := by
  unfold Memory.write at hx
  split at hx
  · exact .inr (Memory.mem_erase hx)
  · next hv =>
    rcases Memory.mem_insert hx with h | h
    · exact .inl ⟨h, hv⟩
    · exact .inr (Memory.mem_erase h)

theorem Memory.pairwise_insert {m : Memory} {k : Nat} {v : Byte}
    (hm : m.Pairwise (fun x y => x.1 < y.1)) (hk : ∀ x ∈ m, x.1 ≠ k) :
    (Memory.insert m k v).Pairwise (fun x y => x.1 < y.1) := by
  induction m with
  | nil => simp [Memory.insert]
  | cons y m ih =>
    obtain ⟨hy, hm'⟩ := List.pairwise_cons.1 hm
    by_cases h : k < y.1
    · simp only [Memory.insert, h, if_true]
      refine List.pairwise_cons.2 ⟨fun x hx => ?_, hm⟩
      rcases List.mem_cons.1 hx with rfl | hx
      · exact h
      · exact Nat.lt_trans h (hy x hx)
    · simp only [Memory.insert, h, if_false]
      refine List.pairwise_cons.2 ⟨fun x hx => ?_, ih hm' (fun x hx => hk x (by simp [hx]))⟩
      rcases Memory.mem_insert hx with rfl | hx
      · have := hk y (by simp)
        exact Nat.lt_of_le_of_ne (Nat.le_of_not_lt h) this
      · exact hy x hx

/-- A write keeps the canonical form. -/
theorem Memory.wf_write {m : Memory} (hm : Memory.wf m) (k : Nat) (v : Byte) :
    Memory.wf (m.write k v) := by
  refine ⟨?_, fun x hx => ?_⟩
  · have he : (Memory.erase m k).Pairwise (fun x y => x.1 < y.1) := hm.1.filter _
    unfold Memory.write
    split
    · exact he
    · exact Memory.pairwise_insert he (fun x hx => (Memory.mem_erase hx).2)
  · rcases Memory.mem_write hx with ⟨rfl, hv⟩ | ⟨hx, -⟩
    · exact hv
    · exact hm.2 x hx

/-- A write at an offset inside the size keeps every offset inside it. -/
theorem Memory.within_write {m : Memory} {size k : Nat} (hm : Memory.within m size) (hk : k < size)
    (v : Byte) : Memory.within (m.write k v) size := by
  intro x hx
  rcases Memory.mem_write hx with ⟨rfl, -⟩ | ⟨hx, -⟩
  · exact hk
  · exact hm x hx

end Sys2Proof
end

