-- ==== Sys2Proof/Laws/State.lean ====
section
/-!
SUPPORT. One lemma per field per update of the state, so that no proof unfolds a record update.
-/
namespace Sys2Proof.Machine

/-! ### writeMapper -/

@[simp] theorem State.writeMapper_a (s : State) (addr : Word) (v : Byte) :
    (s.writeMapper addr v).a = s.a := rfl
@[simp] theorem State.writeMapper_f (s : State) (addr : Word) (v : Byte) :
    (s.writeMapper addr v).f = s.f := rfl
@[simp] theorem State.writeMapper_b (s : State) (addr : Word) (v : Byte) :
    (s.writeMapper addr v).b = s.b := rfl
@[simp] theorem State.writeMapper_c (s : State) (addr : Word) (v : Byte) :
    (s.writeMapper addr v).c = s.c := rfl
@[simp] theorem State.writeMapper_d (s : State) (addr : Word) (v : Byte) :
    (s.writeMapper addr v).d = s.d := rfl
@[simp] theorem State.writeMapper_e (s : State) (addr : Word) (v : Byte) :
    (s.writeMapper addr v).e = s.e := rfl
@[simp] theorem State.writeMapper_h (s : State) (addr : Word) (v : Byte) :
    (s.writeMapper addr v).h = s.h := rfl
@[simp] theorem State.writeMapper_l (s : State) (addr : Word) (v : Byte) :
    (s.writeMapper addr v).l = s.l := rfl
@[simp] theorem State.writeMapper_sp (s : State) (addr : Word) (v : Byte) :
    (s.writeMapper addr v).sp = s.sp := rfl
@[simp] theorem State.writeMapper_pc (s : State) (addr : Word) (v : Byte) :
    (s.writeMapper addr v).pc = s.pc := rfl
@[simp] theorem State.writeMapper_cyc (s : State) (addr : Word) (v : Byte) :
    (s.writeMapper addr v).cyc = s.cyc := rfl
@[simp] theorem State.writeMapper_eram (s : State) (addr : Word) (v : Byte) :
    (s.writeMapper addr v).eram = s.eram := rfl
@[simp] theorem State.writeMapper_wram (s : State) (addr : Word) (v : Byte) :
    (s.writeMapper addr v).wram = s.wram := rfl
@[simp] theorem State.writeMapper_oam (s : State) (addr : Word) (v : Byte) :
    (s.writeMapper addr v).oam = s.oam := rfl
@[simp] theorem State.writeMapper_io (s : State) (addr : Word) (v : Byte) :
    (s.writeMapper addr v).io = s.io := rfl
@[simp] theorem State.writeMapper_hram (s : State) (addr : Word) (v : Byte) :
    (s.writeMapper addr v).hram = s.hram := rfl
@[simp] theorem State.writeMapper_ie (s : State) (addr : Word) (v : Byte) :
    (s.writeMapper addr v).ie = s.ie := rfl
@[simp] theorem State.writeMapper_mapper (s : State) (addr : Word) (v : Byte) :
    (s.writeMapper addr v).mapper = s.mapper.write addr v := rfl
@[simp] theorem State.writeMapper_fault (s : State) (addr : Word) (v : Byte) :
    (s.writeMapper addr v).fault = s.fault := rfl
@[simp] theorem State.writeMapper_cart (s : State) (addr : Word) (v : Byte) :
    (s.writeMapper addr v).cart = s.cart := rfl
@[simp] theorem State.writeMapper_params (s : State) (addr : Word) (v : Byte) :
    (s.writeMapper addr v).params = s.params := rfl
@[simp] theorem State.writeMapper_draws (s : State) (addr : Word) (v : Byte) :
    (s.writeMapper addr v).draws = s.draws := rfl

/-! ### drawn -/

@[simp] theorem State.drawn_a (s : State) :
    (s.drawn).a = s.a := rfl
@[simp] theorem State.drawn_f (s : State) :
    (s.drawn).f = s.f := rfl
@[simp] theorem State.drawn_b (s : State) :
    (s.drawn).b = s.b := rfl
@[simp] theorem State.drawn_c (s : State) :
    (s.drawn).c = s.c := rfl
@[simp] theorem State.drawn_d (s : State) :
    (s.drawn).d = s.d := rfl
@[simp] theorem State.drawn_e (s : State) :
    (s.drawn).e = s.e := rfl
@[simp] theorem State.drawn_h (s : State) :
    (s.drawn).h = s.h := rfl
@[simp] theorem State.drawn_l (s : State) :
    (s.drawn).l = s.l := rfl
@[simp] theorem State.drawn_sp (s : State) :
    (s.drawn).sp = s.sp := rfl
@[simp] theorem State.drawn_pc (s : State) :
    (s.drawn).pc = s.pc := rfl
@[simp] theorem State.drawn_cyc (s : State) :
    (s.drawn).cyc = s.cyc := rfl
@[simp] theorem State.drawn_eram (s : State) :
    (s.drawn).eram = s.eram := rfl
@[simp] theorem State.drawn_wram (s : State) :
    (s.drawn).wram = s.wram := rfl
@[simp] theorem State.drawn_oam (s : State) :
    (s.drawn).oam = s.oam := rfl
@[simp] theorem State.drawn_io (s : State) :
    (s.drawn).io = s.io := rfl
@[simp] theorem State.drawn_hram (s : State) :
    (s.drawn).hram = s.hram := rfl
@[simp] theorem State.drawn_ie (s : State) :
    (s.drawn).ie = s.ie := rfl
@[simp] theorem State.drawn_mapper (s : State) :
    (s.drawn).mapper = s.mapper := rfl
@[simp] theorem State.drawn_fault (s : State) :
    (s.drawn).fault = s.fault := rfl
@[simp] theorem State.drawn_cart (s : State) :
    (s.drawn).cart = s.cart := rfl
@[simp] theorem State.drawn_params (s : State) :
    (s.drawn).params = s.params := rfl
@[simp] theorem State.drawn_draws (s : State) :
    (s.drawn).draws = s.draws + 1 := rfl

/-! ### placeRom -/

@[simp] theorem State.placeRom_a (s : State) (phys : Nat) (v : Byte) :
    (s.placeRom phys v).a = s.a := rfl
@[simp] theorem State.placeRom_f (s : State) (phys : Nat) (v : Byte) :
    (s.placeRom phys v).f = s.f := rfl
@[simp] theorem State.placeRom_b (s : State) (phys : Nat) (v : Byte) :
    (s.placeRom phys v).b = s.b := rfl
@[simp] theorem State.placeRom_c (s : State) (phys : Nat) (v : Byte) :
    (s.placeRom phys v).c = s.c := rfl
@[simp] theorem State.placeRom_d (s : State) (phys : Nat) (v : Byte) :
    (s.placeRom phys v).d = s.d := rfl
@[simp] theorem State.placeRom_e (s : State) (phys : Nat) (v : Byte) :
    (s.placeRom phys v).e = s.e := rfl
@[simp] theorem State.placeRom_h (s : State) (phys : Nat) (v : Byte) :
    (s.placeRom phys v).h = s.h := rfl
@[simp] theorem State.placeRom_l (s : State) (phys : Nat) (v : Byte) :
    (s.placeRom phys v).l = s.l := rfl
@[simp] theorem State.placeRom_sp (s : State) (phys : Nat) (v : Byte) :
    (s.placeRom phys v).sp = s.sp := rfl
@[simp] theorem State.placeRom_pc (s : State) (phys : Nat) (v : Byte) :
    (s.placeRom phys v).pc = s.pc := rfl
@[simp] theorem State.placeRom_cyc (s : State) (phys : Nat) (v : Byte) :
    (s.placeRom phys v).cyc = s.cyc := rfl
@[simp] theorem State.placeRom_eram (s : State) (phys : Nat) (v : Byte) :
    (s.placeRom phys v).eram = s.eram := rfl
@[simp] theorem State.placeRom_wram (s : State) (phys : Nat) (v : Byte) :
    (s.placeRom phys v).wram = s.wram := rfl
@[simp] theorem State.placeRom_oam (s : State) (phys : Nat) (v : Byte) :
    (s.placeRom phys v).oam = s.oam := rfl
@[simp] theorem State.placeRom_io (s : State) (phys : Nat) (v : Byte) :
    (s.placeRom phys v).io = s.io := rfl
@[simp] theorem State.placeRom_hram (s : State) (phys : Nat) (v : Byte) :
    (s.placeRom phys v).hram = s.hram := rfl
@[simp] theorem State.placeRom_ie (s : State) (phys : Nat) (v : Byte) :
    (s.placeRom phys v).ie = s.ie := rfl
@[simp] theorem State.placeRom_mapper (s : State) (phys : Nat) (v : Byte) :
    (s.placeRom phys v).mapper = s.mapper := rfl
@[simp] theorem State.placeRom_fault (s : State) (phys : Nat) (v : Byte) :
    (s.placeRom phys v).fault = s.fault := rfl
@[simp] theorem State.placeRom_cart (s : State) (phys : Nat) (v : Byte) :
    (s.placeRom phys v).cart = { s.cart with rom := s.cart.rom.write phys v } := rfl
@[simp] theorem State.placeRom_params (s : State) (phys : Nat) (v : Byte) :
    (s.placeRom phys v).params = s.params := rfl
@[simp] theorem State.placeRom_draws (s : State) (phys : Nat) (v : Byte) :
    (s.placeRom phys v).draws = s.draws := rfl

/-! ### setPc -/

@[simp] theorem State.setPc_a (s : State) (v : Word) :
    (s.setPc v).a = s.a := rfl
@[simp] theorem State.setPc_f (s : State) (v : Word) :
    (s.setPc v).f = s.f := rfl
@[simp] theorem State.setPc_b (s : State) (v : Word) :
    (s.setPc v).b = s.b := rfl
@[simp] theorem State.setPc_c (s : State) (v : Word) :
    (s.setPc v).c = s.c := rfl
@[simp] theorem State.setPc_d (s : State) (v : Word) :
    (s.setPc v).d = s.d := rfl
@[simp] theorem State.setPc_e (s : State) (v : Word) :
    (s.setPc v).e = s.e := rfl
@[simp] theorem State.setPc_h (s : State) (v : Word) :
    (s.setPc v).h = s.h := rfl
@[simp] theorem State.setPc_l (s : State) (v : Word) :
    (s.setPc v).l = s.l := rfl
@[simp] theorem State.setPc_sp (s : State) (v : Word) :
    (s.setPc v).sp = s.sp := rfl
@[simp] theorem State.setPc_pc (s : State) (v : Word) :
    (s.setPc v).pc = v := rfl
@[simp] theorem State.setPc_cyc (s : State) (v : Word) :
    (s.setPc v).cyc = s.cyc := rfl
@[simp] theorem State.setPc_eram (s : State) (v : Word) :
    (s.setPc v).eram = s.eram := rfl
@[simp] theorem State.setPc_wram (s : State) (v : Word) :
    (s.setPc v).wram = s.wram := rfl
@[simp] theorem State.setPc_oam (s : State) (v : Word) :
    (s.setPc v).oam = s.oam := rfl
@[simp] theorem State.setPc_io (s : State) (v : Word) :
    (s.setPc v).io = s.io := rfl
@[simp] theorem State.setPc_hram (s : State) (v : Word) :
    (s.setPc v).hram = s.hram := rfl
@[simp] theorem State.setPc_ie (s : State) (v : Word) :
    (s.setPc v).ie = s.ie := rfl
@[simp] theorem State.setPc_mapper (s : State) (v : Word) :
    (s.setPc v).mapper = s.mapper := rfl
@[simp] theorem State.setPc_fault (s : State) (v : Word) :
    (s.setPc v).fault = s.fault := rfl
@[simp] theorem State.setPc_cart (s : State) (v : Word) :
    (s.setPc v).cart = s.cart := rfl
@[simp] theorem State.setPc_params (s : State) (v : Word) :
    (s.setPc v).params = s.params := rfl
@[simp] theorem State.setPc_draws (s : State) (v : Word) :
    (s.setPc v).draws = s.draws := rfl

/-! ### setSp -/

@[simp] theorem State.setSp_a (s : State) (v : Word) :
    (s.setSp v).a = s.a := rfl
@[simp] theorem State.setSp_f (s : State) (v : Word) :
    (s.setSp v).f = s.f := rfl
@[simp] theorem State.setSp_b (s : State) (v : Word) :
    (s.setSp v).b = s.b := rfl
@[simp] theorem State.setSp_c (s : State) (v : Word) :
    (s.setSp v).c = s.c := rfl
@[simp] theorem State.setSp_d (s : State) (v : Word) :
    (s.setSp v).d = s.d := rfl
@[simp] theorem State.setSp_e (s : State) (v : Word) :
    (s.setSp v).e = s.e := rfl
@[simp] theorem State.setSp_h (s : State) (v : Word) :
    (s.setSp v).h = s.h := rfl
@[simp] theorem State.setSp_l (s : State) (v : Word) :
    (s.setSp v).l = s.l := rfl
@[simp] theorem State.setSp_sp (s : State) (v : Word) :
    (s.setSp v).sp = v := rfl
@[simp] theorem State.setSp_pc (s : State) (v : Word) :
    (s.setSp v).pc = s.pc := rfl
@[simp] theorem State.setSp_cyc (s : State) (v : Word) :
    (s.setSp v).cyc = s.cyc := rfl
@[simp] theorem State.setSp_eram (s : State) (v : Word) :
    (s.setSp v).eram = s.eram := rfl
@[simp] theorem State.setSp_wram (s : State) (v : Word) :
    (s.setSp v).wram = s.wram := rfl
@[simp] theorem State.setSp_oam (s : State) (v : Word) :
    (s.setSp v).oam = s.oam := rfl
@[simp] theorem State.setSp_io (s : State) (v : Word) :
    (s.setSp v).io = s.io := rfl
@[simp] theorem State.setSp_hram (s : State) (v : Word) :
    (s.setSp v).hram = s.hram := rfl
@[simp] theorem State.setSp_ie (s : State) (v : Word) :
    (s.setSp v).ie = s.ie := rfl
@[simp] theorem State.setSp_mapper (s : State) (v : Word) :
    (s.setSp v).mapper = s.mapper := rfl
@[simp] theorem State.setSp_fault (s : State) (v : Word) :
    (s.setSp v).fault = s.fault := rfl
@[simp] theorem State.setSp_cart (s : State) (v : Word) :
    (s.setSp v).cart = s.cart := rfl
@[simp] theorem State.setSp_params (s : State) (v : Word) :
    (s.setSp v).params = s.params := rfl
@[simp] theorem State.setSp_draws (s : State) (v : Word) :
    (s.setSp v).draws = s.draws := rfl

/-! ### setA -/

@[simp] theorem State.setA_a (s : State) (v : Byte) :
    (s.setA v).a = v := rfl
@[simp] theorem State.setA_f (s : State) (v : Byte) :
    (s.setA v).f = s.f := rfl
@[simp] theorem State.setA_b (s : State) (v : Byte) :
    (s.setA v).b = s.b := rfl
@[simp] theorem State.setA_c (s : State) (v : Byte) :
    (s.setA v).c = s.c := rfl
@[simp] theorem State.setA_d (s : State) (v : Byte) :
    (s.setA v).d = s.d := rfl
@[simp] theorem State.setA_e (s : State) (v : Byte) :
    (s.setA v).e = s.e := rfl
@[simp] theorem State.setA_h (s : State) (v : Byte) :
    (s.setA v).h = s.h := rfl
@[simp] theorem State.setA_l (s : State) (v : Byte) :
    (s.setA v).l = s.l := rfl
@[simp] theorem State.setA_sp (s : State) (v : Byte) :
    (s.setA v).sp = s.sp := rfl
@[simp] theorem State.setA_pc (s : State) (v : Byte) :
    (s.setA v).pc = s.pc := rfl
@[simp] theorem State.setA_cyc (s : State) (v : Byte) :
    (s.setA v).cyc = s.cyc := rfl
@[simp] theorem State.setA_eram (s : State) (v : Byte) :
    (s.setA v).eram = s.eram := rfl
@[simp] theorem State.setA_wram (s : State) (v : Byte) :
    (s.setA v).wram = s.wram := rfl
@[simp] theorem State.setA_oam (s : State) (v : Byte) :
    (s.setA v).oam = s.oam := rfl
@[simp] theorem State.setA_io (s : State) (v : Byte) :
    (s.setA v).io = s.io := rfl
@[simp] theorem State.setA_hram (s : State) (v : Byte) :
    (s.setA v).hram = s.hram := rfl
@[simp] theorem State.setA_ie (s : State) (v : Byte) :
    (s.setA v).ie = s.ie := rfl
@[simp] theorem State.setA_mapper (s : State) (v : Byte) :
    (s.setA v).mapper = s.mapper := rfl
@[simp] theorem State.setA_fault (s : State) (v : Byte) :
    (s.setA v).fault = s.fault := rfl
@[simp] theorem State.setA_cart (s : State) (v : Byte) :
    (s.setA v).cart = s.cart := rfl
@[simp] theorem State.setA_params (s : State) (v : Byte) :
    (s.setA v).params = s.params := rfl
@[simp] theorem State.setA_draws (s : State) (v : Byte) :
    (s.setA v).draws = s.draws := rfl

/-! ### retire -/

@[simp] theorem State.retire_a (s : State) (op : Byte) (len : Nat) :
    (s.retire op len).a = s.a := rfl
@[simp] theorem State.retire_f (s : State) (op : Byte) (len : Nat) :
    (s.retire op len).f = s.f := rfl
@[simp] theorem State.retire_b (s : State) (op : Byte) (len : Nat) :
    (s.retire op len).b = s.b := rfl
@[simp] theorem State.retire_c (s : State) (op : Byte) (len : Nat) :
    (s.retire op len).c = s.c := rfl
@[simp] theorem State.retire_d (s : State) (op : Byte) (len : Nat) :
    (s.retire op len).d = s.d := rfl
@[simp] theorem State.retire_e (s : State) (op : Byte) (len : Nat) :
    (s.retire op len).e = s.e := rfl
@[simp] theorem State.retire_h (s : State) (op : Byte) (len : Nat) :
    (s.retire op len).h = s.h := rfl
@[simp] theorem State.retire_l (s : State) (op : Byte) (len : Nat) :
    (s.retire op len).l = s.l := rfl
@[simp] theorem State.retire_sp (s : State) (op : Byte) (len : Nat) :
    (s.retire op len).sp = s.sp := rfl
@[simp] theorem State.retire_pc (s : State) (op : Byte) (len : Nat) :
    (s.retire op len).pc = s.pc + BitVec.ofNat 16 len := rfl
@[simp] theorem State.retire_cyc (s : State) (op : Byte) (len : Nat) :
    (s.retire op len).cyc = s.cyc + s.params.cost op := rfl
@[simp] theorem State.retire_eram (s : State) (op : Byte) (len : Nat) :
    (s.retire op len).eram = s.eram := rfl
@[simp] theorem State.retire_wram (s : State) (op : Byte) (len : Nat) :
    (s.retire op len).wram = s.wram := rfl
@[simp] theorem State.retire_oam (s : State) (op : Byte) (len : Nat) :
    (s.retire op len).oam = s.oam := rfl
@[simp] theorem State.retire_io (s : State) (op : Byte) (len : Nat) :
    (s.retire op len).io = s.io := rfl
@[simp] theorem State.retire_hram (s : State) (op : Byte) (len : Nat) :
    (s.retire op len).hram = s.hram := rfl
@[simp] theorem State.retire_ie (s : State) (op : Byte) (len : Nat) :
    (s.retire op len).ie = s.ie := rfl
@[simp] theorem State.retire_mapper (s : State) (op : Byte) (len : Nat) :
    (s.retire op len).mapper = s.mapper := rfl
@[simp] theorem State.retire_fault (s : State) (op : Byte) (len : Nat) :
    (s.retire op len).fault = s.fault := rfl
@[simp] theorem State.retire_cart (s : State) (op : Byte) (len : Nat) :
    (s.retire op len).cart = s.cart := rfl
@[simp] theorem State.retire_params (s : State) (op : Byte) (len : Nat) :
    (s.retire op len).params = s.params := rfl
@[simp] theorem State.retire_draws (s : State) (op : Byte) (len : Nat) :
    (s.retire op len).draws = s.draws := rfl

/-! ### writeFlags -/

@[simp] theorem State.writeFlags_a (s : State) (z n y x : Bool) :
    (s.writeFlags z n y x).a = s.a := rfl
@[simp] theorem State.writeFlags_f (s : State) (z n y x : Bool) :
    (s.writeFlags z n y x).f = packFlags z n y x := rfl
@[simp] theorem State.writeFlags_b (s : State) (z n y x : Bool) :
    (s.writeFlags z n y x).b = s.b := rfl
@[simp] theorem State.writeFlags_c (s : State) (z n y x : Bool) :
    (s.writeFlags z n y x).c = s.c := rfl
@[simp] theorem State.writeFlags_d (s : State) (z n y x : Bool) :
    (s.writeFlags z n y x).d = s.d := rfl
@[simp] theorem State.writeFlags_e (s : State) (z n y x : Bool) :
    (s.writeFlags z n y x).e = s.e := rfl
@[simp] theorem State.writeFlags_h (s : State) (z n y x : Bool) :
    (s.writeFlags z n y x).h = s.h := rfl
@[simp] theorem State.writeFlags_l (s : State) (z n y x : Bool) :
    (s.writeFlags z n y x).l = s.l := rfl
@[simp] theorem State.writeFlags_sp (s : State) (z n y x : Bool) :
    (s.writeFlags z n y x).sp = s.sp := rfl
@[simp] theorem State.writeFlags_pc (s : State) (z n y x : Bool) :
    (s.writeFlags z n y x).pc = s.pc := rfl
@[simp] theorem State.writeFlags_cyc (s : State) (z n y x : Bool) :
    (s.writeFlags z n y x).cyc = s.cyc := rfl
@[simp] theorem State.writeFlags_eram (s : State) (z n y x : Bool) :
    (s.writeFlags z n y x).eram = s.eram := rfl
@[simp] theorem State.writeFlags_wram (s : State) (z n y x : Bool) :
    (s.writeFlags z n y x).wram = s.wram := rfl
@[simp] theorem State.writeFlags_oam (s : State) (z n y x : Bool) :
    (s.writeFlags z n y x).oam = s.oam := rfl
@[simp] theorem State.writeFlags_io (s : State) (z n y x : Bool) :
    (s.writeFlags z n y x).io = s.io := rfl
@[simp] theorem State.writeFlags_hram (s : State) (z n y x : Bool) :
    (s.writeFlags z n y x).hram = s.hram := rfl
@[simp] theorem State.writeFlags_ie (s : State) (z n y x : Bool) :
    (s.writeFlags z n y x).ie = s.ie := rfl
@[simp] theorem State.writeFlags_mapper (s : State) (z n y x : Bool) :
    (s.writeFlags z n y x).mapper = s.mapper := rfl
@[simp] theorem State.writeFlags_fault (s : State) (z n y x : Bool) :
    (s.writeFlags z n y x).fault = s.fault := rfl
@[simp] theorem State.writeFlags_cart (s : State) (z n y x : Bool) :
    (s.writeFlags z n y x).cart = s.cart := rfl
@[simp] theorem State.writeFlags_params (s : State) (z n y x : Bool) :
    (s.writeFlags z n y x).params = s.params := rfl
@[simp] theorem State.writeFlags_draws (s : State) (z n y x : Bool) :
    (s.writeFlags z n y x).draws = s.draws := rfl

/-! ### commit8 -/

@[simp] theorem State.commit8_a (s : State) (r : AluResult 8) :
    (s.commit8 r).a = r.r := rfl
@[simp] theorem State.commit8_f (s : State) (r : AluResult 8) :
    (s.commit8 r).f = packFlags r.z r.n r.h r.c := rfl
@[simp] theorem State.commit8_b (s : State) (r : AluResult 8) :
    (s.commit8 r).b = s.b := rfl
@[simp] theorem State.commit8_c (s : State) (r : AluResult 8) :
    (s.commit8 r).c = s.c := rfl
@[simp] theorem State.commit8_d (s : State) (r : AluResult 8) :
    (s.commit8 r).d = s.d := rfl
@[simp] theorem State.commit8_e (s : State) (r : AluResult 8) :
    (s.commit8 r).e = s.e := rfl
@[simp] theorem State.commit8_h (s : State) (r : AluResult 8) :
    (s.commit8 r).h = s.h := rfl
@[simp] theorem State.commit8_l (s : State) (r : AluResult 8) :
    (s.commit8 r).l = s.l := rfl
@[simp] theorem State.commit8_sp (s : State) (r : AluResult 8) :
    (s.commit8 r).sp = s.sp := rfl
@[simp] theorem State.commit8_pc (s : State) (r : AluResult 8) :
    (s.commit8 r).pc = s.pc := rfl
@[simp] theorem State.commit8_cyc (s : State) (r : AluResult 8) :
    (s.commit8 r).cyc = s.cyc := rfl
@[simp] theorem State.commit8_eram (s : State) (r : AluResult 8) :
    (s.commit8 r).eram = s.eram := rfl
@[simp] theorem State.commit8_wram (s : State) (r : AluResult 8) :
    (s.commit8 r).wram = s.wram := rfl
@[simp] theorem State.commit8_oam (s : State) (r : AluResult 8) :
    (s.commit8 r).oam = s.oam := rfl
@[simp] theorem State.commit8_io (s : State) (r : AluResult 8) :
    (s.commit8 r).io = s.io := rfl
@[simp] theorem State.commit8_hram (s : State) (r : AluResult 8) :
    (s.commit8 r).hram = s.hram := rfl
@[simp] theorem State.commit8_ie (s : State) (r : AluResult 8) :
    (s.commit8 r).ie = s.ie := rfl
@[simp] theorem State.commit8_mapper (s : State) (r : AluResult 8) :
    (s.commit8 r).mapper = s.mapper := rfl
@[simp] theorem State.commit8_fault (s : State) (r : AluResult 8) :
    (s.commit8 r).fault = s.fault := rfl
@[simp] theorem State.commit8_cart (s : State) (r : AluResult 8) :
    (s.commit8 r).cart = s.cart := rfl
@[simp] theorem State.commit8_params (s : State) (r : AluResult 8) :
    (s.commit8 r).params = s.params := rfl
@[simp] theorem State.commit8_draws (s : State) (r : AluResult 8) :
    (s.commit8 r).draws = s.draws := rfl

/-! ### recordFault -/

@[simp] theorem State.recordFault_a (s : State) (x : Fault) :
    (s.recordFault x).a = s.a := rfl
@[simp] theorem State.recordFault_f (s : State) (x : Fault) :
    (s.recordFault x).f = s.f := rfl
@[simp] theorem State.recordFault_b (s : State) (x : Fault) :
    (s.recordFault x).b = s.b := rfl
@[simp] theorem State.recordFault_c (s : State) (x : Fault) :
    (s.recordFault x).c = s.c := rfl
@[simp] theorem State.recordFault_d (s : State) (x : Fault) :
    (s.recordFault x).d = s.d := rfl
@[simp] theorem State.recordFault_e (s : State) (x : Fault) :
    (s.recordFault x).e = s.e := rfl
@[simp] theorem State.recordFault_h (s : State) (x : Fault) :
    (s.recordFault x).h = s.h := rfl
@[simp] theorem State.recordFault_l (s : State) (x : Fault) :
    (s.recordFault x).l = s.l := rfl
@[simp] theorem State.recordFault_sp (s : State) (x : Fault) :
    (s.recordFault x).sp = s.sp := rfl
@[simp] theorem State.recordFault_pc (s : State) (x : Fault) :
    (s.recordFault x).pc = s.pc := rfl
@[simp] theorem State.recordFault_cyc (s : State) (x : Fault) :
    (s.recordFault x).cyc = s.cyc := rfl
@[simp] theorem State.recordFault_eram (s : State) (x : Fault) :
    (s.recordFault x).eram = s.eram := rfl
@[simp] theorem State.recordFault_wram (s : State) (x : Fault) :
    (s.recordFault x).wram = s.wram := rfl
@[simp] theorem State.recordFault_oam (s : State) (x : Fault) :
    (s.recordFault x).oam = s.oam := rfl
@[simp] theorem State.recordFault_io (s : State) (x : Fault) :
    (s.recordFault x).io = s.io := rfl
@[simp] theorem State.recordFault_hram (s : State) (x : Fault) :
    (s.recordFault x).hram = s.hram := rfl
@[simp] theorem State.recordFault_ie (s : State) (x : Fault) :
    (s.recordFault x).ie = s.ie := rfl
@[simp] theorem State.recordFault_mapper (s : State) (x : Fault) :
    (s.recordFault x).mapper = s.mapper := rfl
@[simp] theorem State.recordFault_fault (s : State) (x : Fault) :
    (s.recordFault x).fault = some x := rfl
@[simp] theorem State.recordFault_cart (s : State) (x : Fault) :
    (s.recordFault x).cart = s.cart := rfl
@[simp] theorem State.recordFault_params (s : State) (x : Fault) :
    (s.recordFault x).params = s.params := rfl
@[simp] theorem State.recordFault_draws (s : State) (x : Fault) :
    (s.recordFault x).draws = s.draws := rfl

/-! ### writeOp16 -/

@[simp] theorem State.writeOp16_bc_b (s : State) (v : Word) :
    (s.writeOp16 .bc v).b = v.high := rfl
@[simp] theorem State.writeOp16_bc_c (s : State) (v : Word) :
    (s.writeOp16 .bc v).c = v.low := rfl
@[simp] theorem State.writeOp16_de_d (s : State) (v : Word) :
    (s.writeOp16 .de v).d = v.high := rfl
@[simp] theorem State.writeOp16_de_e (s : State) (v : Word) :
    (s.writeOp16 .de v).e = v.low := rfl
@[simp] theorem State.writeOp16_hl_h (s : State) (v : Word) :
    (s.writeOp16 .hl v).h = v.high := rfl
@[simp] theorem State.writeOp16_hl_l (s : State) (v : Word) :
    (s.writeOp16 .hl v).l = v.low := rfl
@[simp] theorem State.writeOp16_sp_sp (s : State) (v : Word) :
    (s.writeOp16 .sp v).sp = v := rfl
@[simp] theorem State.writeOp16_bc_d (s : State) (v : Word) :
    (s.writeOp16 .bc v).d = s.d := rfl
@[simp] theorem State.writeOp16_bc_e (s : State) (v : Word) :
    (s.writeOp16 .bc v).e = s.e := rfl
@[simp] theorem State.writeOp16_bc_h (s : State) (v : Word) :
    (s.writeOp16 .bc v).h = s.h := rfl
@[simp] theorem State.writeOp16_bc_l (s : State) (v : Word) :
    (s.writeOp16 .bc v).l = s.l := rfl
@[simp] theorem State.writeOp16_bc_sp (s : State) (v : Word) :
    (s.writeOp16 .bc v).sp = s.sp := rfl
@[simp] theorem State.writeOp16_de_b (s : State) (v : Word) :
    (s.writeOp16 .de v).b = s.b := rfl
@[simp] theorem State.writeOp16_de_c (s : State) (v : Word) :
    (s.writeOp16 .de v).c = s.c := rfl
@[simp] theorem State.writeOp16_de_h (s : State) (v : Word) :
    (s.writeOp16 .de v).h = s.h := rfl
@[simp] theorem State.writeOp16_de_l (s : State) (v : Word) :
    (s.writeOp16 .de v).l = s.l := rfl
@[simp] theorem State.writeOp16_de_sp (s : State) (v : Word) :
    (s.writeOp16 .de v).sp = s.sp := rfl
@[simp] theorem State.writeOp16_hl_b (s : State) (v : Word) :
    (s.writeOp16 .hl v).b = s.b := rfl
@[simp] theorem State.writeOp16_hl_c (s : State) (v : Word) :
    (s.writeOp16 .hl v).c = s.c := rfl
@[simp] theorem State.writeOp16_hl_d (s : State) (v : Word) :
    (s.writeOp16 .hl v).d = s.d := rfl
@[simp] theorem State.writeOp16_hl_e (s : State) (v : Word) :
    (s.writeOp16 .hl v).e = s.e := rfl
@[simp] theorem State.writeOp16_hl_sp (s : State) (v : Word) :
    (s.writeOp16 .hl v).sp = s.sp := rfl
@[simp] theorem State.writeOp16_sp_b (s : State) (v : Word) :
    (s.writeOp16 .sp v).b = s.b := rfl
@[simp] theorem State.writeOp16_sp_c (s : State) (v : Word) :
    (s.writeOp16 .sp v).c = s.c := rfl
@[simp] theorem State.writeOp16_sp_d (s : State) (v : Word) :
    (s.writeOp16 .sp v).d = s.d := rfl
@[simp] theorem State.writeOp16_sp_e (s : State) (v : Word) :
    (s.writeOp16 .sp v).e = s.e := rfl
@[simp] theorem State.writeOp16_sp_h (s : State) (v : Word) :
    (s.writeOp16 .sp v).h = s.h := rfl
@[simp] theorem State.writeOp16_sp_l (s : State) (v : Word) :
    (s.writeOp16 .sp v).l = s.l := rfl
@[simp] theorem State.writeOp16_a (s : State) (p : Op16) (v : Word) :
    (s.writeOp16 p v).a = s.a := by cases p <;> rfl
@[simp] theorem State.writeOp16_f (s : State) (p : Op16) (v : Word) :
    (s.writeOp16 p v).f = s.f := by cases p <;> rfl
@[simp] theorem State.writeOp16_pc (s : State) (p : Op16) (v : Word) :
    (s.writeOp16 p v).pc = s.pc := by cases p <;> rfl
@[simp] theorem State.writeOp16_cyc (s : State) (p : Op16) (v : Word) :
    (s.writeOp16 p v).cyc = s.cyc := by cases p <;> rfl
@[simp] theorem State.writeOp16_eram (s : State) (p : Op16) (v : Word) :
    (s.writeOp16 p v).eram = s.eram := by cases p <;> rfl
@[simp] theorem State.writeOp16_wram (s : State) (p : Op16) (v : Word) :
    (s.writeOp16 p v).wram = s.wram := by cases p <;> rfl
@[simp] theorem State.writeOp16_oam (s : State) (p : Op16) (v : Word) :
    (s.writeOp16 p v).oam = s.oam := by cases p <;> rfl
@[simp] theorem State.writeOp16_io (s : State) (p : Op16) (v : Word) :
    (s.writeOp16 p v).io = s.io := by cases p <;> rfl
@[simp] theorem State.writeOp16_hram (s : State) (p : Op16) (v : Word) :
    (s.writeOp16 p v).hram = s.hram := by cases p <;> rfl
@[simp] theorem State.writeOp16_ie (s : State) (p : Op16) (v : Word) :
    (s.writeOp16 p v).ie = s.ie := by cases p <;> rfl
@[simp] theorem State.writeOp16_mapper (s : State) (p : Op16) (v : Word) :
    (s.writeOp16 p v).mapper = s.mapper := by cases p <;> rfl
@[simp] theorem State.writeOp16_fault (s : State) (p : Op16) (v : Word) :
    (s.writeOp16 p v).fault = s.fault := by cases p <;> rfl
@[simp] theorem State.writeOp16_cart (s : State) (p : Op16) (v : Word) :
    (s.writeOp16 p v).cart = s.cart := by cases p <;> rfl
@[simp] theorem State.writeOp16_params (s : State) (p : Op16) (v : Word) :
    (s.writeOp16 p v).params = s.params := by cases p <;> rfl
@[simp] theorem State.writeOp16_draws (s : State) (p : Op16) (v : Word) :
    (s.writeOp16 p v).draws = s.draws := by cases p <;> rfl

/-! ### writeCell -/

@[simp] theorem State.writeCell_a (s : State) (loc : Loc) (v : Byte) :
    (s.writeCell loc v).a = s.a := by cases loc <;> rfl
@[simp] theorem State.writeCell_f (s : State) (loc : Loc) (v : Byte) :
    (s.writeCell loc v).f = s.f := by cases loc <;> rfl
@[simp] theorem State.writeCell_b (s : State) (loc : Loc) (v : Byte) :
    (s.writeCell loc v).b = s.b := by cases loc <;> rfl
@[simp] theorem State.writeCell_c (s : State) (loc : Loc) (v : Byte) :
    (s.writeCell loc v).c = s.c := by cases loc <;> rfl
@[simp] theorem State.writeCell_d (s : State) (loc : Loc) (v : Byte) :
    (s.writeCell loc v).d = s.d := by cases loc <;> rfl
@[simp] theorem State.writeCell_e (s : State) (loc : Loc) (v : Byte) :
    (s.writeCell loc v).e = s.e := by cases loc <;> rfl
@[simp] theorem State.writeCell_h (s : State) (loc : Loc) (v : Byte) :
    (s.writeCell loc v).h = s.h := by cases loc <;> rfl
@[simp] theorem State.writeCell_l (s : State) (loc : Loc) (v : Byte) :
    (s.writeCell loc v).l = s.l := by cases loc <;> rfl
@[simp] theorem State.writeCell_sp (s : State) (loc : Loc) (v : Byte) :
    (s.writeCell loc v).sp = s.sp := by cases loc <;> rfl
@[simp] theorem State.writeCell_pc (s : State) (loc : Loc) (v : Byte) :
    (s.writeCell loc v).pc = s.pc := by cases loc <;> rfl
@[simp] theorem State.writeCell_cyc (s : State) (loc : Loc) (v : Byte) :
    (s.writeCell loc v).cyc = s.cyc := by cases loc <;> rfl
@[simp] theorem State.writeCell_mapper (s : State) (loc : Loc) (v : Byte) :
    (s.writeCell loc v).mapper = s.mapper := by cases loc <;> rfl
@[simp] theorem State.writeCell_fault (s : State) (loc : Loc) (v : Byte) :
    (s.writeCell loc v).fault = s.fault := by cases loc <;> rfl
@[simp] theorem State.writeCell_cart (s : State) (loc : Loc) (v : Byte) :
    (s.writeCell loc v).cart = s.cart := by cases loc <;> rfl
@[simp] theorem State.writeCell_params (s : State) (loc : Loc) (v : Byte) :
    (s.writeCell loc v).params = s.params := by cases loc <;> rfl
@[simp] theorem State.writeCell_draws (s : State) (loc : Loc) (v : Byte) :
    (s.writeCell loc v).draws = s.draws := by cases loc <;> rfl

/-! ### readCell and access under the updates that touch no storage -/

@[simp] theorem State.writeMapper_readCell (s : State) (addr : Word) (v : Byte) (loc : Loc) :
    (s.writeMapper addr v).readCell loc = s.readCell loc := by cases loc <;> rfl
@[simp] theorem State.drawn_readCell (s : State) (loc : Loc) :
    (s.drawn).readCell loc = s.readCell loc := by cases loc <;> rfl
@[simp] theorem State.drawn_access (s : State) (addr : Word) :
    (s.drawn).access addr = s.access addr := rfl
@[simp] theorem State.drawn_busPeek (s : State) (addr : Word) :
    busPeek (s.drawn) addr = busPeek s addr := by
  unfold busPeek
  simp
@[simp] theorem State.placeRom_readCell (s : State) (phys : Nat) (v : Byte) (loc : Loc) :
    (s.placeRom phys v).readCell loc = s.readCell loc := by cases loc <;> rfl
@[simp] theorem State.setPc_readCell (s : State) (v : Word) (loc : Loc) :
    (s.setPc v).readCell loc = s.readCell loc := by cases loc <;> rfl
@[simp] theorem State.setPc_access (s : State) (v : Word) (addr : Word) :
    (s.setPc v).access addr = s.access addr := rfl
@[simp] theorem State.setPc_busPeek (s : State) (v : Word) (addr : Word) :
    busPeek (s.setPc v) addr = busPeek s addr := by
  unfold busPeek
  simp
@[simp] theorem State.setSp_readCell (s : State) (v : Word) (loc : Loc) :
    (s.setSp v).readCell loc = s.readCell loc := by cases loc <;> rfl
@[simp] theorem State.setSp_access (s : State) (v : Word) (addr : Word) :
    (s.setSp v).access addr = s.access addr := rfl
@[simp] theorem State.setSp_busPeek (s : State) (v : Word) (addr : Word) :
    busPeek (s.setSp v) addr = busPeek s addr := by
  unfold busPeek
  simp
@[simp] theorem State.setA_readCell (s : State) (v : Byte) (loc : Loc) :
    (s.setA v).readCell loc = s.readCell loc := by cases loc <;> rfl
@[simp] theorem State.setA_access (s : State) (v : Byte) (addr : Word) :
    (s.setA v).access addr = s.access addr := rfl
@[simp] theorem State.setA_busPeek (s : State) (v : Byte) (addr : Word) :
    busPeek (s.setA v) addr = busPeek s addr := by
  unfold busPeek
  simp
@[simp] theorem State.retire_readCell (s : State) (op : Byte) (len : Nat) (loc : Loc) :
    (s.retire op len).readCell loc = s.readCell loc := by cases loc <;> rfl
@[simp] theorem State.retire_access (s : State) (op : Byte) (len : Nat) (addr : Word) :
    (s.retire op len).access addr = s.access addr := rfl
@[simp] theorem State.retire_busPeek (s : State) (op : Byte) (len : Nat) (addr : Word) :
    busPeek (s.retire op len) addr = busPeek s addr := by
  unfold busPeek
  simp
@[simp] theorem State.writeFlags_readCell (s : State) (z n y x : Bool) (loc : Loc) :
    (s.writeFlags z n y x).readCell loc = s.readCell loc := by cases loc <;> rfl
@[simp] theorem State.writeFlags_access (s : State) (z n y x : Bool) (addr : Word) :
    (s.writeFlags z n y x).access addr = s.access addr := rfl
@[simp] theorem State.writeFlags_busPeek (s : State) (z n y x : Bool) (addr : Word) :
    busPeek (s.writeFlags z n y x) addr = busPeek s addr := by
  unfold busPeek
  simp
@[simp] theorem State.commit8_readCell (s : State) (r : AluResult 8) (loc : Loc) :
    (s.commit8 r).readCell loc = s.readCell loc := by cases loc <;> rfl
@[simp] theorem State.commit8_access (s : State) (r : AluResult 8) (addr : Word) :
    (s.commit8 r).access addr = s.access addr := rfl
@[simp] theorem State.commit8_busPeek (s : State) (r : AluResult 8) (addr : Word) :
    busPeek (s.commit8 r) addr = busPeek s addr := by
  unfold busPeek
  simp
@[simp] theorem State.recordFault_readCell (s : State) (x : Fault) (loc : Loc) :
    (s.recordFault x).readCell loc = s.readCell loc := by cases loc <;> rfl
@[simp] theorem State.recordFault_access (s : State) (x : Fault) (addr : Word) :
    (s.recordFault x).access addr = s.access addr := rfl
@[simp] theorem State.recordFault_busPeek (s : State) (x : Fault) (addr : Word) :
    busPeek (s.recordFault x) addr = busPeek s addr := by
  unfold busPeek
  simp
@[simp] theorem State.writeOp16_readCell (s : State) (p : Op16) (v : Word) (loc : Loc) :
    (s.writeOp16 p v).readCell loc = s.readCell loc := by cases p <;> cases loc <;> rfl
@[simp] theorem State.writeOp16_access (s : State) (p : Op16) (v : Word) (addr : Word) :
    (s.writeOp16 p v).access addr = s.access addr := by cases p <;> rfl
@[simp] theorem State.writeOp16_busPeek (s : State) (p : Op16) (v : Word) (addr : Word) :
    busPeek (s.writeOp16 p v) addr = busPeek s addr := by
  unfold busPeek
  simp
@[simp] theorem State.writeCell_access (s : State) (loc : Loc) (v : Byte) (addr : Word) :
    (s.writeCell loc v).access addr = s.access addr := by cases loc <;> rfl

end Sys2Proof.Machine
end

