-- ==== Sys2Proof/Laws/Ops.lean ====
section
/-!
SUPPORT. What each shared operation can do, said once: storage cells, the address decoder, the bus, the
fetch and the push.
-/
namespace Sys2Proof.Machine

/-! ### Storage cells -/

/-- A cell reads as the byte written to it; every other cell is unchanged. -/
theorem State.readCell_writeCell (s : State) (x y : Loc) (v : Byte) :
    (s.writeCell x v).readCell y = if y = x then v else s.readCell y := by
  cases x <;> cases y <;> simp only [State.writeCell, State.readCell, reduceCtorEq, if_false, if_true]
  all_goals
    simp only [Loc.eram.injEq, Loc.wram.injEq, Loc.oam.injEq, Loc.io.injEq, Loc.hram.injEq]
    split
    · next h => rw [h, Memory.read_write_same]
    · next h => exact Memory.read_write_other _ v h

@[simp] theorem State.readCell_writeCell_same (s : State) (x : Loc) (v : Byte) :
    (s.writeCell x v).readCell x = v := by
  simp [State.readCell_writeCell]

theorem State.readCell_writeCell_other (s : State) {x y : Loc} (v : Byte) (h : y ≠ x) :
    (s.writeCell x v).readCell y = s.readCell y := by
  simp [State.readCell_writeCell, h]

/-! ### The address decoder -/

/-- The access of an address depends on the state only through the cartridge and the mapper. -/
theorem State.access_congr {s t : State} (hc : t.cart = s.cart) (hm : t.mapper = s.mapper)
    (addr : Word) : t.access addr = s.access addr := by
  unfold State.access
  rw [hc, hm]

theorem State.access_rom (s : State) {addr : Word} (h : addr.toNat < 0x8000) :
    s.access addr = .rom (romPhys s.cart s.mapper addr.toNat) := by
  simp [State.access, resolve, decodeAddr, h]

theorem State.access_video (s : State) {addr : Word} (h : InVideo addr) : s.access addr = .video := by
  have h1 : ¬ addr.toNat < 0x8000 := Nat.not_lt.2 h.1
  simp [State.access, resolve, decodeAddr, h1, h.2]

theorem State.access_ext (s : State) {addr : Word} (h1 : 0xA000 ≤ addr.toNat)
    (h2 : addr.toNat < 0xC000) :
    s.access addr = (extCell s.cart s.mapper (addr.toNat - 0xA000)).access := by
  have a : ¬ addr.toNat < 0x8000 := by omega
  have b : ¬ addr.toNat < 0xA000 := by omega
  simp only [State.access, resolve, decodeAddr, a, b, h2, if_true, if_false]

theorem State.access_wram (s : State) {addr : Word} (h1 : 0xC000 ≤ addr.toNat)
    (h2 : addr.toNat < 0xE000) : s.access addr = .cell (.wram (addr.toNat - 0xC000)) := by
  have a : ¬ addr.toNat < 0x8000 := by omega
  have b : ¬ addr.toNat < 0xA000 := by omega
  have c : ¬ addr.toNat < 0xC000 := by omega
  simp [State.access, resolve, decodeAddr, a, b, c, h2]

theorem State.access_echo (s : State) {addr : Word} (h1 : 0xE000 ≤ addr.toNat)
    (h2 : addr.toNat < 0xFE00) : s.access addr = .cell (.wram (addr.toNat - 0xE000)) := by
  have a : ¬ addr.toNat < 0x8000 := by omega
  have b : ¬ addr.toNat < 0xA000 := by omega
  have c : ¬ addr.toNat < 0xC000 := by omega
  have d : ¬ addr.toNat < 0xE000 := by omega
  simp [State.access, resolve, decodeAddr, a, b, c, d, h2]

theorem State.access_oam (s : State) {addr : Word} (h1 : 0xFE00 ≤ addr.toNat)
    (h2 : addr.toNat < 0xFEA0) : s.access addr = .cell (.oam (addr.toNat - 0xFE00)) := by
  have a : ¬ addr.toNat < 0x8000 := by omega
  have b : ¬ addr.toNat < 0xA000 := by omega
  have c : ¬ addr.toNat < 0xC000 := by omega
  have d : ¬ addr.toNat < 0xE000 := by omega
  have e : ¬ addr.toNat < 0xFE00 := by omega
  simp [State.access, resolve, decodeAddr, a, b, c, d, e, h2]

theorem State.access_unused (s : State) {addr : Word} (h1 : 0xFEA0 ≤ addr.toNat)
    (h2 : addr.toNat < 0xFF00) : s.access addr = .fixed 0x00 := by
  have a : ¬ addr.toNat < 0x8000 := by omega
  have b : ¬ addr.toNat < 0xA000 := by omega
  have c : ¬ addr.toNat < 0xC000 := by omega
  have d : ¬ addr.toNat < 0xE000 := by omega
  have e : ¬ addr.toNat < 0xFE00 := by omega
  have f : ¬ addr.toNat < 0xFEA0 := by omega
  simp [State.access, resolve, decodeAddr, a, b, c, d, e, f, h2]

theorem State.access_io (s : State) {addr : Word} (h1 : 0xFF00 ≤ addr.toNat)
    (h2 : addr.toNat < 0xFF80) : s.access addr = .cell (.io (addr.toNat - 0xFF00)) := by
  have a : ¬ addr.toNat < 0x8000 := by omega
  have b : ¬ addr.toNat < 0xA000 := by omega
  have c : ¬ addr.toNat < 0xC000 := by omega
  have d : ¬ addr.toNat < 0xE000 := by omega
  have e : ¬ addr.toNat < 0xFE00 := by omega
  have f : ¬ addr.toNat < 0xFEA0 := by omega
  have g : ¬ addr.toNat < 0xFF00 := by omega
  simp [State.access, resolve, decodeAddr, a, b, c, d, e, f, g, h2]

theorem State.access_hram (s : State) {addr : Word} (h1 : 0xFF80 ≤ addr.toNat)
    (h2 : addr.toNat < 0xFFFF) : s.access addr = .cell (.hram (addr.toNat - 0xFF80)) := by
  have a : ¬ addr.toNat < 0x8000 := by omega
  have b : ¬ addr.toNat < 0xA000 := by omega
  have c : ¬ addr.toNat < 0xC000 := by omega
  have d : ¬ addr.toNat < 0xE000 := by omega
  have e : ¬ addr.toNat < 0xFE00 := by omega
  have f : ¬ addr.toNat < 0xFEA0 := by omega
  have g : ¬ addr.toNat < 0xFF00 := by omega
  have i : ¬ addr.toNat < 0xFF80 := by omega
  simp [State.access, resolve, decodeAddr, a, b, c, d, e, f, g, i, h2]

theorem State.access_ie (s : State) {addr : Word} (h1 : 0xFFFF ≤ addr.toNat) :
    s.access addr = .cell .ie := by
  have a : ¬ addr.toNat < 0x8000 := by omega
  have b : ¬ addr.toNat < 0xA000 := by omega
  have c : ¬ addr.toNat < 0xC000 := by omega
  have d : ¬ addr.toNat < 0xE000 := by omega
  have e : ¬ addr.toNat < 0xFE00 := by omega
  have f : ¬ addr.toNat < 0xFEA0 := by omega
  have g : ¬ addr.toNat < 0xFF00 := by omega
  have i : ¬ addr.toNat < 0xFF80 := by omega
  have j : ¬ addr.toNat < 0xFFFF := by omega
  simp [State.access, resolve, decodeAddr, a, b, c, d, e, f, g, i, j]

/-- The kind of access each range of R51 gives. -/
theorem State.access_cases (s : State) (addr : Word) :
    (addr.toNat < 0x8000 ∧ s.access addr = .rom (romPhys s.cart s.mapper addr.toNat)) ∨
    (InVideo addr ∧ s.access addr = .video) ∨
    ((∃ loc, s.access addr = .cell loc) ∨ (∃ i, s.access addr = .nibble i) ∨
      s.access addr = .timer ∨ ∃ w, s.access addr = .fixed w) ∧
      ¬ addr.toNat < 0x8000 ∧ ¬ InVideo addr := by
  by_cases h0 : addr.toNat < 0x8000
  · exact .inl ⟨h0, s.access_rom h0⟩
  by_cases hv : InVideo addr
  · exact .inr (.inl ⟨hv, s.access_video hv⟩)
  refine .inr (.inr ⟨?_, h0, hv⟩)
  have hlt := addr.isLt
  have h1 : 0xA000 ≤ addr.toNat := by
    by_cases h : addr.toNat < 0xA000
    · exact absurd ⟨by omega, h⟩ hv
    · omega
  by_cases h2 : addr.toNat < 0xC000
  · rw [s.access_ext h1 h2]
    cases extCell s.cart s.mapper (addr.toNat - 0xA000) <;> simp [ExtCell.access]
  by_cases h3 : addr.toNat < 0xE000
  · exact .inl ⟨_, s.access_wram (by omega) h3⟩
  by_cases h4 : addr.toNat < 0xFE00
  · exact .inl ⟨_, s.access_echo (by omega) h4⟩
  by_cases h5 : addr.toNat < 0xFEA0
  · exact .inl ⟨_, s.access_oam (by omega) h5⟩
  by_cases h6 : addr.toNat < 0xFF00
  · exact .inr (.inr (.inr ⟨_, s.access_unused (by omega) h6⟩))
  by_cases h7 : addr.toNat < 0xFF80
  · exact .inl ⟨_, s.access_io (by omega) h7⟩
  by_cases h8 : addr.toNat < 0xFFFF
  · exact .inl ⟨_, s.access_hram (by omega) h8⟩
  · exact .inl ⟨_, s.access_ie (by omega)⟩

/-- Only the video range is the video access. -/
theorem State.access_eq_video (s : State) (addr : Word) : s.access addr = .video ↔ InVideo addr := by
  refine ⟨fun h => ?_, s.access_video⟩
  rcases s.access_cases addr with ⟨-, h'⟩ | ⟨hv, -⟩ | ⟨⟨_, h'⟩ | ⟨_, h'⟩ | h' | ⟨_, h'⟩, -, -⟩
  · rw [h'] at h; cases h
  · exact hv
  all_goals rw [h'] at h; cases h

/-- Only the ROM range is a ROM access. -/
theorem State.access_eq_rom {s : State} {addr : Word} {p : Nat} (h : s.access addr = .rom p) :
    addr.toNat < 0x8000 := by
  rcases s.access_cases addr with ⟨h0, -⟩ | ⟨-, h'⟩ | ⟨⟨_, h'⟩ | ⟨_, h'⟩ | h' | ⟨_, h'⟩, -, -⟩
  · exact h0
  all_goals rw [h'] at h; cases h

/-! ### Reading -/

/-- What a read gives depends on the storage, the mapper and the cartridge alone. -/
theorem busPeek_congr {s t : State} (h : s.SameMemory t) (addr : Word) :
    busPeek t addr = busPeek s addr := by
  obtain ⟨he, hw, ho, hi, hh, hie, hm, hc⟩ := h
  have hr : ∀ loc, t.readCell loc = s.readCell loc := by
    intro loc
    cases loc <;> simp only [State.readCell, he, hw, ho, hi, hh, hie]
  unfold busPeek
  rw [State.access_congr hc hm]
  simp only [hr, hc]

/-- A peek faults in the video range, and only there. -/
theorem busPeek_error_iff (s : State) (addr : Word) (x : Fault) :
    busPeek s addr = .error x ↔ InVideo addr ∧ x = .videoAccess addr .read := by
  rw [← s.access_eq_video]
  unfold busPeek
  cases s.access addr <;> simp [eq_comm]

/-- Everything a read can do: fault in the video range; give the byte that is there and change nothing;
or give a free value and count it. -/
theorem busRead_cases (s : State) (addr : Word) :
    (InVideo addr ∧ busRead s addr = .error (.videoAccess addr .read)) ∨
    (∃ v, busPeek s addr = .ok (some v) ∧ busRead s addr = .ok (v, s)) ∨
    (busPeek s addr = .ok none ∧ busRead s addr = .ok (Config.freeByte s.draws, s.drawn)) := by
  cases h : busPeek s addr with
  | error x =>
    obtain ⟨hv, rfl⟩ := (busPeek_error_iff s addr x).1 h
    exact .inl ⟨hv, by simp [busRead, h]⟩
  | ok o =>
    cases o with
    | none => exact .inr (.inr ⟨rfl, by simp [busRead, h]⟩)
    | some v => exact .inr (.inl ⟨v, rfl, by simp [busRead, h]⟩)

/-- A completed read leaves the state alone but for the count of draws. -/
theorem busRead_next {s t : State} {addr : Word} {v : Byte} (h : busRead s addr = .ok (v, t)) :
    ¬ InVideo addr ∧ (t = s ∨ t = s.drawn) := by
  rcases busRead_cases s addr with ⟨hv, h'⟩ | ⟨w, hw, h'⟩ | ⟨hw, h'⟩ <;> rw [h'] at h
  · simp at h
  · refine ⟨fun hv => ?_, .inl (by simpa [eq_comm] using (Prod.mk.inj (Except.ok.inj h)).2)⟩
    rw [(busPeek_error_iff s addr _).2 ⟨hv, rfl⟩] at hw
    simp at hw
  · refine ⟨fun hv => ?_, .inr (by simpa [eq_comm] using (Prod.mk.inj (Except.ok.inj h)).2)⟩
    rw [(busPeek_error_iff s addr _).2 ⟨hv, rfl⟩] at hw
    simp at hw

/-- A read that faults is a read of the video range. -/
theorem busRead_fault {s : State} {addr : Word} {x : Fault} (h : busRead s addr = .error x) :
    InVideo addr ∧ x = .videoAccess addr .read := by
  rcases busRead_cases s addr with ⟨hv, h'⟩ | ⟨w, -, h'⟩ | ⟨-, h'⟩ <;> rw [h'] at h
  · exact ⟨hv, by simpa [eq_comm] using h⟩
  · simp at h
  · simp at h

/-! ### Writing -/

/-- Everything a write can do: fault in the video range; a mapper register write in the ROM range; one
cell replaced; or nothing. -/
theorem busWrite_cases (s : State) (addr : Word) (v : Byte) :
    (InVideo addr ∧ busWrite s addr v = .error (.videoAccess addr .write)) ∨
    (addr.toNat < 0x8000 ∧ busWrite s addr v = .ok (s.writeMapper addr v)) ∨
    (∃ loc, s.access addr = .cell loc ∧ busWrite s addr v = .ok (s.writeCell loc v)) ∨
    (∃ i, s.access addr = .nibble i ∧ busWrite s addr v = .ok (s.writeCell (.eram i) (v &&& 0x0F))) ∨
    ((s.access addr = .timer ∨ ∃ w, s.access addr = .fixed w) ∧ busWrite s addr v = .ok s) := by
  cases h : s.access addr with
  | rom p => exact .inr (.inl ⟨State.access_eq_rom h, by simp [busWrite, h]⟩)
  | cell loc => exact .inr (.inr (.inl ⟨loc, rfl, by simp [busWrite, h]⟩))
  | nibble i => exact .inr (.inr (.inr (.inl ⟨i, rfl, by simp [busWrite, h]⟩)))
  | timer => exact .inr (.inr (.inr (.inr ⟨.inl rfl, by simp [busWrite, h]⟩)))
  | fixed w => exact .inr (.inr (.inr (.inr ⟨.inr ⟨w, rfl⟩, by simp [busWrite, h]⟩)))
  | video => exact .inl ⟨(s.access_eq_video addr).1 h, by simp [busWrite, h]⟩

/-- What a completed write leaves alone: every register, the cartridge, the parameters, the fault
record and the count of draws. -/
theorem busWrite_keeps {s t : State} {addr : Word} {v : Byte} (h : busWrite s addr v = .ok t) :
    t = { s with eram := t.eram, wram := t.wram, oam := t.oam, io := t.io, hram := t.hram,
                 ie := t.ie, mapper := t.mapper } := by
  rcases busWrite_cases s addr v with ⟨-, h'⟩ | ⟨-, h'⟩ | ⟨loc, -, h'⟩ | ⟨i, -, h'⟩ | ⟨-, h'⟩ <;>
    rw [h'] at h
  · simp at h
  · cases h; rfl
  · cases h; cases loc <;> rfl
  · cases h; rfl
  · cases h; rfl

/-- A write that faults is a write to the video range. -/
theorem busWrite_fault {s : State} {addr : Word} {v : Byte} {x : Fault}
    (h : busWrite s addr v = .error x) : InVideo addr ∧ x = .videoAccess addr .write := by
  rcases busWrite_cases s addr v with ⟨hv, h'⟩ | ⟨-, h'⟩ | ⟨loc, -, h'⟩ | ⟨i, -, h'⟩ | ⟨-, h'⟩ <;>
    rw [h'] at h
  · exact ⟨hv, by simpa [eq_comm] using h⟩
  all_goals simp at h

/-- Outside the video range a write completes. -/
theorem busWrite_completes (s : State) {addr : Word} (v : Byte) (h : ¬ InVideo addr) :
    ∃ t, busWrite s addr v = .ok t := by
  cases hw : busWrite s addr v with
  | ok t => exact ⟨t, rfl⟩
  | error x => exact absurd (busWrite_fault hw).1 h

/-- Outside the video range a read completes. -/
theorem busRead_completes (s : State) {addr : Word} (h : ¬ InVideo addr) :
    ∃ v t, busRead s addr = .ok (v, t) := by
  cases hr : busRead s addr with
  | ok p => exact ⟨p.1, p.2, rfl⟩
  | error x => exact absurd (busRead_fault hr).1 h

/-! ### The mapper -/

/-- A register write keeps the generation. -/
@[simp] theorem Mapper.write_gen (m : Mapper) (addr : Word) (v : Byte) :
    (m.write addr v).gen = m.gen := by
  cases m <;> simp only [Mapper.write] <;> repeat' split
  all_goals rfl

/-- The size of `ERAM` depends on the mapper only through its generation. -/
theorem eramSize_congr (c : Cart) {m n : Mapper} (h : n.gen = m.gen) :
    eramSize c n = eramSize c m := by
  cases m <;> cases n <;> simp_all [Mapper.gen, eramSize]

/-- The zero-to-one adjustment never leaves zero. -/
theorem zeroToOne_ne_zero {w : Nat} (v : BitVec (w + 1)) : zeroToOne v ≠ 0 := by
  unfold zeroToOne
  split
  · intro h
    have := congrArg BitVec.toNat h
    simp at this
  · next h => exact h

/-! ### Fetch -/

/-- `t` is `s` but for the count of draws and `PC`. -/
def SameButFetch (s t : State) : Prop :=
  ∃ n p, t = { s with draws := n, pc := p }

theorem SameButFetch.trans {s t u : State} (h1 : SameButFetch s t) (h2 : SameButFetch t u) :
    SameButFetch s u := by
  obtain ⟨n, p, rfl⟩ := h1
  obtain ⟨m, q, rfl⟩ := h2
  exact ⟨m, q, rfl⟩

theorem SameButFetch.setPc {s t : State} (h : SameButFetch s t) (v : Word) :
    SameButFetch s (t.setPc v) := by
  obtain ⟨n, p, rfl⟩ := h
  exact ⟨n, v, rfl⟩

theorem busRead_same {s t : State} {b : Byte} {addr : Word} (h : busRead s addr = .ok (b, t)) :
    SameButFetch s t := by
  rcases (busRead_next h).2 with rfl | rfl
  · exact ⟨t.draws, t.pc, rfl⟩
  · exact ⟨s.draws + 1, s.pc, rfl⟩

/-- `Fetch8()` reads one byte and advances `PC` by one (R130). -/
theorem fetch8_ok {s t : State} {b : Byte} (h : fetch8 s = .ok (b, t)) :
    ∃ u, busRead s s.pc = .ok (b, u) ∧ t = u.setPc (s.pc + 1) := by
  unfold fetch8 at h
  split at h
  · cases h
  · next b' u hb => cases h; exact ⟨u, hb, rfl⟩

theorem fetch8_same {s t : State} {b : Byte} (h : fetch8 s = .ok (b, t)) : SameButFetch s t := by
  obtain ⟨u, hu, rfl⟩ := fetch8_ok h
  exact (busRead_same hu).setPc _

theorem fetch16_same {s t : State} {w : Word} (h : fetch16 s = .ok (w, t)) : SameButFetch s t := by
  unfold fetch16 memRead16 at h
  split at h
  · cases h
  · next w' u hm =>
    cases h
    split at hm
    · cases hm
    · next lo s1 h1 =>
      split at hm
      · cases hm
      · next hi s2 h2 =>
        cases hm
        exact ((busRead_same h1).trans (busRead_same h2)).setPc _

theorem fetchImm16_same {s t : State} {w : Word} (h : fetchImm16 s = .ok (w, t)) :
    SameButFetch s t := by
  unfold fetchImm16 at h
  split at h
  · exact fetch16_same h
  · split at h
    · cases h
    · next h1 =>
      split at h
      · cases h
      · next h2 => cases h; exact (fetch8_same h1).trans (fetch8_same h2)

theorem fetchOperand_same {s t : State} {row : OpRow} {i : Instr}
    (h : fetchOperand s row = .ok (i, t)) : SameButFetch s t := by
  unfold fetchOperand at h
  split at h
  · cases h; exact ⟨s.draws, s.pc, rfl⟩
  · split at h
    · cases h
    · next h1 => cases h; exact fetch8_same h1
  · split at h
    · cases h
    · next h1 => cases h; exact fetchImm16_same h1
  · split at h
    · cases h
    · next h1 => cases h; exact fetch16_same h1

/-- Everything the fetch and decode part of a step gives when it completes: the machine had no fault,
the opcode byte is admitted, and the state is left alone but for the count of draws. -/
theorem fetchInstr_ok {s t : State} {i : Instr} (h : fetchInstr s = .ok (i, t)) :
    s.fault = none ∧ t = { s with draws := t.draws } := by
  unfold fetchInstr at h
  split at h
  · cases h
  · next hf =>
    refine ⟨hf, ?_⟩
    split at h
    · cases h
    · next op s1 h1 =>
      split at h
      · cases h
      · next row hr =>
        split at h
        · cases h
        · next j s2 h2 =>
          cases h
          obtain ⟨n, p, rfl⟩ := (fetch8_same h1).trans (fetchOperand_same h2)
          rfl

/-! ### The step -/

/-- Everything a step can do: the fetch faults, or the instruction fetched runs in a state that differs
from the one before only in the count of draws. -/
theorem step_cases (s : State) :
    (∃ x, fetchInstr s = .error x ∧ step s = .fault x) ∨
    (∃ i t, fetchInstr s = .ok (i, t) ∧ s.fault = none ∧ t = { s with draws := t.draws } ∧
      step s = exec i t) := by
  cases h : fetchInstr s with
  | error x => exact .inl ⟨x, rfl, by simp [step, h]⟩
  | ok p =>
    obtain ⟨i, t⟩ := p
    obtain ⟨hf, ht⟩ := fetchInstr_ok h
    exact .inr ⟨i, t, rfl, hf, ht, by simp [step, h]⟩

/-! ### The push -/

/-- A completed push is two byte writes, low byte first (R55, R202). -/
theorem push16_ok {s t : State} {v : Word} (h : push16 s v = .ok t) :
    ∃ u, busWrite (s.setSp (s.sp - 2)) (s.sp - 2) v.low = .ok u ∧
      busWrite u (s.sp - 2 + 1) v.high = .ok t := by
  unfold push16 memWrite16 at h
  split at h
  · cases h
  · next u hu => exact ⟨u, hu, h⟩

end Sys2Proof.Machine
end

