-- ==== Sys2Proof/Laws/Exec.lean ====
section
/-!
SUPPORT. The meaning of each instruction in terms of the shared operation it is an instance of, and
everything each shared operation can do.
-/
namespace Sys2Proof.Machine

/-! ### One equation per instruction -/

@[simp] theorem exec_nop (s : State) :
    exec .nop s = .next (s.retire 0x00 1) := rfl
@[simp] theorem exec_ldBcD16 (v : Word) (s : State) :
    exec (.ldBcD16 v) s = loadPair 0x01 .bc v s := rfl
@[simp] theorem exec_ldDeD16 (v : Word) (s : State) :
    exec (.ldDeD16 v) s = loadPair 0x11 .de v s := rfl
@[simp] theorem exec_ldHlD16 (v : Word) (s : State) :
    exec (.ldHlD16 v) s = loadPair 0x21 .hl v s := rfl
@[simp] theorem exec_ldSpD16 (v : Word) (s : State) :
    exec (.ldSpD16 v) s = loadPair 0x31 .sp v s := rfl
@[simp] theorem exec_addHlBc (s : State) :
    exec .addHlBc s = addHl 0x09 .bc s := rfl
@[simp] theorem exec_addHlDe (s : State) :
    exec .addHlDe s = addHl 0x19 .de s := rfl
@[simp] theorem exec_addHlHl (s : State) :
    exec .addHlHl s = addHl 0x29 .hl s := rfl
@[simp] theorem exec_addHlSp (s : State) :
    exec .addHlSp s = addHl 0x39 .sp s := rfl
@[simp] theorem exec_addAB (s : State) :
    exec .addAB s = accumulate aluAdd8 0x80 .b s := rfl
@[simp] theorem exec_addAC (s : State) :
    exec .addAC s = accumulate aluAdd8 0x81 .c s := rfl
@[simp] theorem exec_addAD (s : State) :
    exec .addAD s = accumulate aluAdd8 0x82 .d s := rfl
@[simp] theorem exec_addAE (s : State) :
    exec .addAE s = accumulate aluAdd8 0x83 .e s := rfl
@[simp] theorem exec_addAH (s : State) :
    exec .addAH s = accumulate aluAdd8 0x84 .h s := rfl
@[simp] theorem exec_addAL (s : State) :
    exec .addAL s = accumulate aluAdd8 0x85 .l s := rfl
@[simp] theorem exec_addAMem (s : State) :
    exec .addAMem s = accumulate aluAdd8 0x86 .mem s := rfl
@[simp] theorem exec_addAA (s : State) :
    exec .addAA s = accumulate aluAdd8 0x87 .a s := rfl
@[simp] theorem exec_addAImm (d : Byte) (s : State) :
    exec (.addAImm d) s = accumulateImm aluAdd8 0xC6 d s := rfl
@[simp] theorem exec_subB (s : State) :
    exec .subB s = accumulate aluSub8 0x90 .b s := rfl
@[simp] theorem exec_subC (s : State) :
    exec .subC s = accumulate aluSub8 0x91 .c s := rfl
@[simp] theorem exec_subD (s : State) :
    exec .subD s = accumulate aluSub8 0x92 .d s := rfl
@[simp] theorem exec_subE (s : State) :
    exec .subE s = accumulate aluSub8 0x93 .e s := rfl
@[simp] theorem exec_subH (s : State) :
    exec .subH s = accumulate aluSub8 0x94 .h s := rfl
@[simp] theorem exec_subL (s : State) :
    exec .subL s = accumulate aluSub8 0x95 .l s := rfl
@[simp] theorem exec_subMem (s : State) :
    exec .subMem s = accumulate aluSub8 0x96 .mem s := rfl
@[simp] theorem exec_subA (s : State) :
    exec .subA s = accumulate aluSub8 0x97 .a s := rfl
@[simp] theorem exec_subImm (d : Byte) (s : State) :
    exec (.subImm d) s = accumulateImm aluSub8 0xD6 d s := rfl
@[simp] theorem exec_jp (v : Word) (s : State) :
    exec (.jp v) s = .next ((s.retire 0xC3 3).setPc v) := rfl
@[simp] theorem exec_call (v : Word) (s : State) :
    exec (.call v) s = execCall v s := rfl
@[simp] theorem exec_ldhStore (d : Byte) (s : State) :
    exec (.ldhStore d) s = execLdhStore d s := rfl
@[simp] theorem exec_ldhLoad (d : Byte) (s : State) :
    exec (.ldhLoad d) s = execLdhLoad d s := rfl

/-! ### What the shared operations can do -/

/-- With no cost listed in the parameters, `COST` is the table's. -/
theorem State.costIs_default (s : State) (op : Byte) : s.CostIs op (defaultCost op) := by
  intro h
  rw [Params.cost, h]
  rfl

/-- `F` as a number (R163). -/
theorem toNat_packFlags (z n h c : Bool) :
    (packFlags z n h c).toNat = z.toNat * 128 + n.toNat * 64 + h.toNat * 32 + c.toNat * 16 := by
  cases z <;> cases n <;> cases h <;> cases c <;> rfl

/-- A read does not look at `PC`. -/
theorem busRead_setPc (s : State) (v addr : Word) :
    busRead (s.setPc v) addr =
      match busRead s addr with
      | .error x => .error x
      | .ok (b, t) => .ok (b, t.setPc v) := by
  unfold busRead
  rw [State.setPc_busPeek]
  cases busPeek s addr with
  | error => rfl
  | ok o => cases o <;> rfl

/-- A read of the video range faults (R59). -/
theorem busRead_video {s : State} {addr : Word} (h : InVideo addr) :
    busRead s addr = .error (.videoAccess addr .read) := by
  simp [busRead, busPeek, s.access_video h]

/-- A write to the video range faults (R59). -/
theorem busWrite_video {s : State} {addr : Word} {v : Byte} (h : InVideo addr) :
    busWrite s addr v = .error (.videoAccess addr .write) := by
  simp [busWrite, s.access_video h]

/-- Everything an 8-bit ALU instruction on `x[i]` can do: fault on the read of `HL`, or combine `A`
with the operand in a state that differs from the one before at most in the count of draws. -/
theorem accumulate_cases (alu : Byte → Byte → AluResult 8) (op : Byte) (x : Op8) (s : State) :
    (x = .mem ∧ InVideo s.hl ∧ accumulate alu op x s = .fault (.videoAccess s.hl .read)) ∨
    (∃ b u, s.readOp8 x = .ok (b, u) ∧ (u = s ∨ x = .mem ∧ u = s.drawn) ∧
      accumulate alu op x s = .next ((u.commit8 (alu s.a b)).retire op 1)) := by
  by_cases hx : x = .mem
  · subst hx
    rcases busRead_cases s s.hl with ⟨hv, h⟩ | ⟨v, -, h⟩ | ⟨-, h⟩
    · exact .inl ⟨rfl, hv, by simp [accumulate, State.readOp8, h]⟩
    · exact .inr ⟨v, s, h, .inl rfl, by simp [accumulate, State.readOp8, h]⟩
    · exact .inr ⟨_, s.drawn, h, .inr ⟨rfl, rfl⟩, by simp [accumulate, State.readOp8, h]⟩
  · cases x <;> first | exact absurd rfl hx | exact .inr ⟨_, s, rfl, .inl rfl, rfl⟩

/-- The two addresses of a push are one apart. -/
theorem push_addr (v : Word) : v - 2 + 1 = v - 1 := by
  apply BitVec.eq_of_toNat_eq
  have e1 : (1 : Word).toNat = 1 := rfl
  have e2 : (2 : Word).toNat = 2 := rfl
  simp only [BitVec.toNat_add, BitVec.toNat_sub, e1, e2]
  omega

/-- Everything a push can do: fault on the low byte, fault on the high byte, or write both. -/
theorem push16_cases (s : State) (v : Word) :
    (InVideo (s.sp - 2) ∧ push16 s v = .error (.videoAccess (s.sp - 2) .write)) ∨
    (¬ InVideo (s.sp - 2) ∧ InVideo (s.sp - 1) ∧
      push16 s v = .error (.videoAccess (s.sp - 1) .write)) ∨
    (¬ InVideo (s.sp - 2) ∧ ¬ InVideo (s.sp - 1) ∧ ∃ u w,
      busWrite (s.setSp (s.sp - 2)) (s.sp - 2) v.low = .ok u ∧
      busWrite u (s.sp - 1) v.high = .ok w ∧ push16 s v = .ok w) := by
  by_cases h2 : InVideo (s.sp - 2)
  · exact .inl ⟨h2, by simp only [push16, memWrite16, busWrite_video h2]⟩
  obtain ⟨u, hu⟩ := busWrite_completes (s.setSp (s.sp - 2)) v.low h2
  by_cases h1 : InVideo (s.sp - 1)
  · exact .inr (.inl ⟨h2, h1, by simp only [push16, memWrite16, hu, push_addr, busWrite_video h1]⟩)
  obtain ⟨w, hw⟩ := busWrite_completes u v.high h1
  exact .inr (.inr ⟨h2, h1, u, w, hu, hw, by simp only [push16, memWrite16, hu, push_addr, hw]⟩)

/-- The high-memory address of `LDH` (R212). -/
theorem ldhAddr_toNat (a8 : Byte) : (ldhAddr a8).toNat = 0xFF00 + a8.toNat := by
  have := a8.isLt
  simp [ldhAddr]
  omega

/-- "a value in 0xFF00-0xFFFF" (R212): plain storage, never the video range. -/
theorem access_high (s : State) {addr : Word} (h : 0xFF00 ≤ addr.toNat) :
    ∃ loc, s.access addr = .cell loc ∧
      (loc = .io (addr.toNat - 0xFF00) ∧ addr.toNat < 0xFF80 ∨
        loc = .hram (addr.toNat - 0xFF80) ∧ 0xFF80 ≤ addr.toNat ∧ addr.toNat < 0xFFFF ∨
        loc = .ie ∧ addr.toNat = 0xFFFF) := by
  have := addr.isLt
  by_cases h1 : addr.toNat < 0xFF80
  · exact ⟨_, s.access_io h h1, .inl ⟨rfl, h1⟩⟩
  by_cases h2 : addr.toNat < 0xFFFF
  · exact ⟨_, s.access_hram (by omega) h2, .inr (.inl ⟨rfl, by omega, h2⟩)⟩
  · exact ⟨_, s.access_ie (by omega), .inr (.inr ⟨rfl, by omega⟩)⟩

/-- LDH (a8),A writes one cell of the I/O block, high RAM or `IE`. -/
theorem execLdhStore_next (a8 : Byte) (s : State) :
    ∃ loc, s.access (ldhAddr a8) = .cell loc ∧
      execLdhStore a8 s = .next ((s.writeCell loc s.a).retire 0xE0 2) := by
  have ha := ldhAddr_toNat a8
  obtain ⟨loc, h, -⟩ := access_high s (addr := ldhAddr a8) (by omega)
  exact ⟨loc, h, by simp only [execLdhStore, busWrite, h]⟩

/-- LDH A,(a8) reads one cell of the I/O block, high RAM or `IE`. -/
theorem execLdhLoad_next (a8 : Byte) (s : State) :
    ∃ loc, s.access (ldhAddr a8) = .cell loc ∧
      execLdhLoad a8 s = .next ((s.setA (s.readCell loc)).retire 0xF0 2) := by
  have ha := ldhAddr_toNat a8
  obtain ⟨loc, h, -⟩ := access_high s (addr := ldhAddr a8) (by omega)
  exact ⟨loc, h, by simp only [execLdhLoad, busRead, busPeek, h]⟩

/-- CALL is its push and then the jump. -/
theorem execCall_cases (target : Word) (s : State) :
    (∃ x, push16 s (s.pc + 3) = .error x ∧ execCall target s = .fault x) ∨
    (∃ w, push16 s (s.pc + 3) = .ok w ∧
      execCall target s = .next ((w.retire 0xCD 3).setPc target)) := by
  cases h : push16 s (s.pc + 3) with
  | error x => exact .inl ⟨x, rfl, by simp only [execCall, h]⟩
  | ok w => exact .inr ⟨w, rfl, by simp only [execCall, h]⟩

end Sys2Proof.Machine
end

