-- ==== Sys2Proof/Laws/PerInstr.lean ====
section
/-!
SUPPORT. What every instruction says of its coding, one lemma per constructor (R121, R122, R126).
-/
namespace Sys2Proof.Laws.Coding

/-- The instruction is well formed; its encoding starts with its opcode, which is admitted and has a
cost of the table, and has the instruction's length, 1 to 3 bytes. -/
def Statement (i : Instr) : Prop :=
  i.wf = true ∧ i.opcode ∈ admittedOpcodes ∧ defaultCost i.opcode ∈ [4, 8, 12, 16, 24] ∧
  1 ≤ i.length ∧ i.length ≤ 3 ∧
  ∀ o, (encode o i).head? = some i.opcode ∧ (encode o i).length = i.length

/-- The facts that do not depend on the immediate order are read off; each order is its own case. -/
theorem of_orders {i : Instr}
    (h : i.wf = true ∧ i.opcode ∈ admittedOpcodes ∧ defaultCost i.opcode ∈ [4, 8, 12, 16, 24] ∧
      1 ≤ i.length ∧ i.length ≤ 3)
    (hl : (encode .little i).head? = some i.opcode) (hb : (encode .big i).head? = some i.opcode ∧
      (encode .big i).length = i.length) : Statement i :=
  ⟨h.1, h.2.1, h.2.2.1, h.2.2.2.1, h.2.2.2.2, fun o => by
    cases o
    · exact ⟨hl, rfl⟩
    · exact hb⟩

theorem nop : Statement .nop :=
  of_orders
    ⟨rfl, by simp [Instr.opcode, encode, admittedOpcodes],
      by simp [Instr.opcode, encode, defaultCost],
      by simp [Instr.length, encode], by simp [Instr.length, encode]⟩
    rfl ⟨rfl, rfl⟩

theorem ldBcD16 (d16 : Word) : Statement (.ldBcD16 d16) :=
  of_orders
    ⟨rfl, by simp [Instr.opcode, encode, admittedOpcodes],
      by simp [Instr.opcode, encode, defaultCost],
      by simp [Instr.length, encode, imm16Bytes], by simp [Instr.length, encode, imm16Bytes]⟩
    rfl ⟨rfl, rfl⟩

theorem ldDeD16 (d16 : Word) : Statement (.ldDeD16 d16) :=
  of_orders
    ⟨rfl, by simp [Instr.opcode, encode, admittedOpcodes],
      by simp [Instr.opcode, encode, defaultCost],
      by simp [Instr.length, encode, imm16Bytes], by simp [Instr.length, encode, imm16Bytes]⟩
    rfl ⟨rfl, rfl⟩

theorem ldHlD16 (d16 : Word) : Statement (.ldHlD16 d16) :=
  of_orders
    ⟨rfl, by simp [Instr.opcode, encode, admittedOpcodes],
      by simp [Instr.opcode, encode, defaultCost],
      by simp [Instr.length, encode, imm16Bytes], by simp [Instr.length, encode, imm16Bytes]⟩
    rfl ⟨rfl, rfl⟩

theorem ldSpD16 (d16 : Word) : Statement (.ldSpD16 d16) :=
  of_orders
    ⟨rfl, by simp [Instr.opcode, encode, admittedOpcodes],
      by simp [Instr.opcode, encode, defaultCost],
      by simp [Instr.length, encode, imm16Bytes], by simp [Instr.length, encode, imm16Bytes]⟩
    rfl ⟨rfl, rfl⟩

theorem addHlBc : Statement .addHlBc :=
  of_orders
    ⟨rfl, by simp [Instr.opcode, encode, admittedOpcodes],
      by simp [Instr.opcode, encode, defaultCost],
      by simp [Instr.length, encode], by simp [Instr.length, encode]⟩
    rfl ⟨rfl, rfl⟩

theorem addHlDe : Statement .addHlDe :=
  of_orders
    ⟨rfl, by simp [Instr.opcode, encode, admittedOpcodes],
      by simp [Instr.opcode, encode, defaultCost],
      by simp [Instr.length, encode], by simp [Instr.length, encode]⟩
    rfl ⟨rfl, rfl⟩

theorem addHlHl : Statement .addHlHl :=
  of_orders
    ⟨rfl, by simp [Instr.opcode, encode, admittedOpcodes],
      by simp [Instr.opcode, encode, defaultCost],
      by simp [Instr.length, encode], by simp [Instr.length, encode]⟩
    rfl ⟨rfl, rfl⟩

theorem addHlSp : Statement .addHlSp :=
  of_orders
    ⟨rfl, by simp [Instr.opcode, encode, admittedOpcodes],
      by simp [Instr.opcode, encode, defaultCost],
      by simp [Instr.length, encode], by simp [Instr.length, encode]⟩
    rfl ⟨rfl, rfl⟩

theorem addAB : Statement .addAB :=
  of_orders
    ⟨rfl, by simp [Instr.opcode, encode, admittedOpcodes],
      by simp [Instr.opcode, encode, defaultCost],
      by simp [Instr.length, encode], by simp [Instr.length, encode]⟩
    rfl ⟨rfl, rfl⟩

theorem addAC : Statement .addAC :=
  of_orders
    ⟨rfl, by simp [Instr.opcode, encode, admittedOpcodes],
      by simp [Instr.opcode, encode, defaultCost],
      by simp [Instr.length, encode], by simp [Instr.length, encode]⟩
    rfl ⟨rfl, rfl⟩

theorem addAD : Statement .addAD :=
  of_orders
    ⟨rfl, by simp [Instr.opcode, encode, admittedOpcodes],
      by simp [Instr.opcode, encode, defaultCost],
      by simp [Instr.length, encode], by simp [Instr.length, encode]⟩
    rfl ⟨rfl, rfl⟩

theorem addAE : Statement .addAE :=
  of_orders
    ⟨rfl, by simp [Instr.opcode, encode, admittedOpcodes],
      by simp [Instr.opcode, encode, defaultCost],
      by simp [Instr.length, encode], by simp [Instr.length, encode]⟩
    rfl ⟨rfl, rfl⟩

theorem addAH : Statement .addAH :=
  of_orders
    ⟨rfl, by simp [Instr.opcode, encode, admittedOpcodes],
      by simp [Instr.opcode, encode, defaultCost],
      by simp [Instr.length, encode], by simp [Instr.length, encode]⟩
    rfl ⟨rfl, rfl⟩

theorem addAL : Statement .addAL :=
  of_orders
    ⟨rfl, by simp [Instr.opcode, encode, admittedOpcodes],
      by simp [Instr.opcode, encode, defaultCost],
      by simp [Instr.length, encode], by simp [Instr.length, encode]⟩
    rfl ⟨rfl, rfl⟩

theorem addAMem : Statement .addAMem :=
  of_orders
    ⟨rfl, by simp [Instr.opcode, encode, admittedOpcodes],
      by simp [Instr.opcode, encode, defaultCost],
      by simp [Instr.length, encode], by simp [Instr.length, encode]⟩
    rfl ⟨rfl, rfl⟩

theorem addAA : Statement .addAA :=
  of_orders
    ⟨rfl, by simp [Instr.opcode, encode, admittedOpcodes],
      by simp [Instr.opcode, encode, defaultCost],
      by simp [Instr.length, encode], by simp [Instr.length, encode]⟩
    rfl ⟨rfl, rfl⟩

theorem addAImm (d8 : Byte) : Statement (.addAImm d8) :=
  of_orders
    ⟨rfl, by simp [Instr.opcode, encode, admittedOpcodes],
      by simp [Instr.opcode, encode, defaultCost],
      by simp [Instr.length, encode], by simp [Instr.length, encode]⟩
    rfl ⟨rfl, rfl⟩

theorem subB : Statement .subB :=
  of_orders
    ⟨rfl, by simp [Instr.opcode, encode, admittedOpcodes],
      by simp [Instr.opcode, encode, defaultCost],
      by simp [Instr.length, encode], by simp [Instr.length, encode]⟩
    rfl ⟨rfl, rfl⟩

theorem subC : Statement .subC :=
  of_orders
    ⟨rfl, by simp [Instr.opcode, encode, admittedOpcodes],
      by simp [Instr.opcode, encode, defaultCost],
      by simp [Instr.length, encode], by simp [Instr.length, encode]⟩
    rfl ⟨rfl, rfl⟩

theorem subD : Statement .subD :=
  of_orders
    ⟨rfl, by simp [Instr.opcode, encode, admittedOpcodes],
      by simp [Instr.opcode, encode, defaultCost],
      by simp [Instr.length, encode], by simp [Instr.length, encode]⟩
    rfl ⟨rfl, rfl⟩

theorem subE : Statement .subE :=
  of_orders
    ⟨rfl, by simp [Instr.opcode, encode, admittedOpcodes],
      by simp [Instr.opcode, encode, defaultCost],
      by simp [Instr.length, encode], by simp [Instr.length, encode]⟩
    rfl ⟨rfl, rfl⟩

theorem subH : Statement .subH :=
  of_orders
    ⟨rfl, by simp [Instr.opcode, encode, admittedOpcodes],
      by simp [Instr.opcode, encode, defaultCost],
      by simp [Instr.length, encode], by simp [Instr.length, encode]⟩
    rfl ⟨rfl, rfl⟩

theorem subL : Statement .subL :=
  of_orders
    ⟨rfl, by simp [Instr.opcode, encode, admittedOpcodes],
      by simp [Instr.opcode, encode, defaultCost],
      by simp [Instr.length, encode], by simp [Instr.length, encode]⟩
    rfl ⟨rfl, rfl⟩

theorem subMem : Statement .subMem :=
  of_orders
    ⟨rfl, by simp [Instr.opcode, encode, admittedOpcodes],
      by simp [Instr.opcode, encode, defaultCost],
      by simp [Instr.length, encode], by simp [Instr.length, encode]⟩
    rfl ⟨rfl, rfl⟩

theorem subA : Statement .subA :=
  of_orders
    ⟨rfl, by simp [Instr.opcode, encode, admittedOpcodes],
      by simp [Instr.opcode, encode, defaultCost],
      by simp [Instr.length, encode], by simp [Instr.length, encode]⟩
    rfl ⟨rfl, rfl⟩

theorem subImm (d8 : Byte) : Statement (.subImm d8) :=
  of_orders
    ⟨rfl, by simp [Instr.opcode, encode, admittedOpcodes],
      by simp [Instr.opcode, encode, defaultCost],
      by simp [Instr.length, encode], by simp [Instr.length, encode]⟩
    rfl ⟨rfl, rfl⟩

theorem jp (a16 : Word) : Statement (.jp a16) :=
  of_orders
    ⟨rfl, by simp [Instr.opcode, encode, admittedOpcodes],
      by simp [Instr.opcode, encode, defaultCost],
      by simp [Instr.length, encode, imm16Bytes], by simp [Instr.length, encode, imm16Bytes]⟩
    rfl ⟨rfl, rfl⟩

theorem call (a16 : Word) : Statement (.call a16) :=
  of_orders
    ⟨rfl, by simp [Instr.opcode, encode, admittedOpcodes],
      by simp [Instr.opcode, encode, defaultCost],
      by simp [Instr.length, encode, imm16Bytes], by simp [Instr.length, encode, imm16Bytes]⟩
    rfl ⟨rfl, rfl⟩

theorem ldhStore (a8 : Byte) : Statement (.ldhStore a8) :=
  of_orders
    ⟨rfl, by simp [Instr.opcode, encode, admittedOpcodes],
      by simp [Instr.opcode, encode, defaultCost],
      by simp [Instr.length, encode], by simp [Instr.length, encode]⟩
    rfl ⟨rfl, rfl⟩

theorem ldhLoad (a8 : Byte) : Statement (.ldhLoad a8) :=
  of_orders
    ⟨rfl, by simp [Instr.opcode, encode, admittedOpcodes],
      by simp [Instr.opcode, encode, defaultCost],
      by simp [Instr.length, encode], by simp [Instr.length, encode]⟩
    rfl ⟨rfl, rfl⟩

end Sys2Proof.Laws.Coding
end

