-- ==== Sys2Proof/Laws/Storage.lean ====
section
/-!
SUPPORT. Every operation on storage keeps the canonical form and the sizes of the storage arrays
(`State.MemoryInv`) and what the mapper registers promise (`State.MapperInv`).
-/
namespace Sys2Proof.Machine

/-- The physical RAM offset lies inside the RAM (R91). -/
theorem ramPhys_lt {c : Cart} (h : eramExists c = true) (bank off : Nat) :
    ramPhys c bank off < c.ramSize := by
  simp only [eramExists, Bool.and_eq_true, bne_iff_ne] at h
  exact Nat.mod_lt _ (Nat.pos_of_ne_zero h.2)

/-- A byte cell behind the window lies inside `ERAM`, and generation 2 has none. -/
theorem extCell_byte {c : Cart} {m : Mapper} {off o : Nat} (hoff : off < 0x2000)
    (h : extCell c m off = .byte o) : o < eramSize c m ∧ m.gen ≠ .g2 := by
  cases m with
  | gen0 => cases h; exact ⟨hoff, by simp [Mapper.gen]⟩
  | gen1 ramg b1 b2 md =>
    simp only [extCell] at h
    split at h <;> cases h
    next hx =>
    simp only [Bool.and_eq_true] at hx
    exact ⟨by simpa [eramSize, hx.1] using ramPhys_lt hx.1 _ _, by simp [Mapper.gen]⟩
  | gen2 ramg rb => simp only [extCell] at h; split at h <;> cases h
  | gen3 ramg rb sel =>
    simp only [extCell] at h
    split at h
    · cases h
    split at h
    · split at h <;> cases h
      next hx => exact ⟨by simpa [eramSize, hx] using ramPhys_lt hx _ _, by simp [Mapper.gen]⟩
    · split at h <;> cases h
  | gen5 ramg r0 r1 rb =>
    simp only [extCell] at h
    split at h <;> cases h
    next hx =>
    simp only [Bool.and_eq_true] at hx
    exact ⟨by simpa [eramSize, hx.1] using ramPhys_lt hx.1 _ _, by simp [Mapper.gen]⟩

/-- A 4-bit cell is one of the 512 of generation 2 (R96, R98). -/
theorem extCell_nibble {c : Cart} {m : Mapper} {off i : Nat} (h : extCell c m off = .nibble i) :
    i < eramSize c m ∧ m.gen = .g2 := by
  cases m with
  | gen0 => cases h
  | gen1 ramg b1 b2 md => simp only [extCell] at h; split at h <;> cases h
  | gen2 ramg rb =>
    simp only [extCell] at h
    split at h <;> cases h
    exact ⟨Nat.mod_lt _ (by decide), rfl⟩
  | gen3 ramg rb sel =>
    simp only [extCell] at h
    split at h
    · cases h
    split at h
    · split at h <;> cases h
    · split at h <;> cases h
  | gen5 ramg r0 r1 rb => simp only [extCell] at h; split at h <;> cases h

/-- The size of the array a cell lies in (R31). -/
def Loc.inside (c : Cart) (m : Mapper) : Loc → Prop
  | .eram off => off < eramSize c m
  | .wram off => off < 0x2000
  | .oam off => off < 0xA0
  | .io off => off < 0x80
  | .hram off => off < 0x7F
  | .ie => True

/-- A plain storage cell reached by an address lies inside its array, and is no `ERAM` cell of
generation 2. -/
theorem State.access_cell_inside {s : State} {addr : Word} {loc : Loc}
    (h : s.access addr = .cell loc) :
    loc.inside s.cart s.mapper ∧ ((∃ o, loc = .eram o) → s.mapper.gen ≠ .g2) := by
  have hlt := addr.isLt
  by_cases h0 : addr.toNat < 0x8000
  · rw [s.access_rom h0] at h; cases h
  by_cases h1 : addr.toNat < 0xA000
  · rw [s.access_video ⟨by omega, h1⟩] at h; cases h
  by_cases h2 : addr.toNat < 0xC000
  · rw [s.access_ext (by omega) h2] at h
    cases hx : extCell s.cart s.mapper (addr.toNat - 0xA000) with
    | byte o =>
      rw [hx] at h
      injection h with h
      subst h
      have := extCell_byte (by omega) hx
      exact ⟨this.1, fun _ => this.2⟩
    | _ => rw [hx] at h; cases h
  by_cases h3 : addr.toNat < 0xE000
  · rw [s.access_wram (by omega) h3] at h
    injection h with h; subst h
    exact ⟨show _ < _ by omega, fun ⟨_, e⟩ => by cases e⟩
  by_cases h4 : addr.toNat < 0xFE00
  · rw [s.access_echo (by omega) h4] at h
    injection h with h; subst h
    exact ⟨show _ < _ by omega, fun ⟨_, e⟩ => by cases e⟩
  by_cases h5 : addr.toNat < 0xFEA0
  · rw [s.access_oam (by omega) h5] at h
    injection h with h; subst h
    exact ⟨show _ < _ by omega, fun ⟨_, e⟩ => by cases e⟩
  by_cases h6 : addr.toNat < 0xFF00
  · rw [s.access_unused (by omega) h6] at h; cases h
  by_cases h7 : addr.toNat < 0xFF80
  · rw [s.access_io (by omega) h7] at h
    injection h with h; subst h
    exact ⟨show _ < _ by omega, fun ⟨_, e⟩ => by cases e⟩
  by_cases h8 : addr.toNat < 0xFFFF
  · rw [s.access_hram (by omega) h8] at h
    injection h with h; subst h
    exact ⟨show _ < _ by omega, fun ⟨_, e⟩ => by cases e⟩
  · rw [s.access_ie (by omega)] at h
    injection h with h; subst h
    exact ⟨trivial, fun ⟨_, e⟩ => by cases e⟩

/-- A 4-bit cell reached by an address is one of generation 2's. -/
theorem State.access_nibble_inside {s : State} {addr : Word} {i : Nat}
    (h : s.access addr = .nibble i) :
    Loc.inside s.cart s.mapper (.eram i) ∧ s.mapper.gen = .g2 := by
  by_cases h0 : addr.toNat < 0x8000
  · rw [s.access_rom h0] at h; cases h
  by_cases h1 : addr.toNat < 0xA000
  · rw [s.access_video ⟨by omega, h1⟩] at h; cases h
  by_cases h2 : addr.toNat < 0xC000
  · rw [s.access_ext (by omega) h2] at h
    cases hx : extCell s.cart s.mapper (addr.toNat - 0xA000) with
    | nibble j =>
      rw [hx] at h
      injection h with h
      subst h
      exact extCell_nibble hx
    | _ => rw [hx] at h; cases h
  by_cases h3 : addr.toNat < 0xE000
  · rw [s.access_wram (by omega) h3] at h; cases h
  by_cases h4 : addr.toNat < 0xFE00
  · rw [s.access_echo (by omega) h4] at h; cases h
  by_cases h5 : addr.toNat < 0xFEA0
  · rw [s.access_oam (by omega) h5] at h; cases h
  by_cases h6 : addr.toNat < 0xFF00
  · rw [s.access_unused (by omega) h6] at h; cases h
  by_cases h7 : addr.toNat < 0xFF80
  · rw [s.access_io (by omega) h7] at h; cases h
  by_cases h8 : addr.toNat < 0xFFFF
  · rw [s.access_hram (by omega) h8] at h; cases h
  · rw [s.access_ie (by omega)] at h; cases h

/-- Writing a cell inside its array keeps every array canonical and inside its size. -/
theorem State.memoryInv_writeCell {s : State} (hs : s.MemoryInv) {loc : Loc}
    (h : loc.inside s.cart s.mapper) (v : Byte) : (s.writeCell loc v).MemoryInv := by
  obtain ⟨he, hw, ho, hi, hh⟩ := hs
  cases loc with
  | eram off => exact ⟨⟨Memory.wf_write he.1 _ _, Memory.within_write he.2 h _⟩, hw, ho, hi, hh⟩
  | wram off => exact ⟨he, ⟨Memory.wf_write hw.1 _ _, Memory.within_write hw.2 h _⟩, ho, hi, hh⟩
  | oam off => exact ⟨he, hw, ⟨Memory.wf_write ho.1 _ _, Memory.within_write ho.2 h _⟩, hi, hh⟩
  | io off => exact ⟨he, hw, ho, ⟨Memory.wf_write hi.1 _ _, Memory.within_write hi.2 h _⟩, hh⟩
  | hram off => exact ⟨he, hw, ho, hi, ⟨Memory.wf_write hh.1 _ _, Memory.within_write hh.2 h _⟩⟩
  | ie => exact ⟨he, hw, ho, hi, hh⟩

/-- A register write keeps what the bank registers promise. -/
theorem State.mapperInv_writeMapper {s : State} (hs : s.MapperInv) (addr : Word) (v : Byte) :
    (s.writeMapper addr v).MapperInv := by
  unfold State.MapperInv at hs ⊢
  simp only [State.writeMapper_mapper, State.writeMapper_eram]
  by_cases h2 : addr.toNat < 0x2000 <;> by_cases h3 : addr.toNat < 0x3000 <;>
    by_cases h4 : addr.toNat < 0x4000 <;> by_cases h6 : addr.toNat < 0x6000 <;>
    by_cases h8 : addr.getLsbD 8 = true <;> cases hm : s.mapper <;> rw [hm] at hs <;>
    simp only [Mapper.write, h2, h3, h4, h6, h8, if_true, if_false, Bool.false_eq_true] <;>
    first
    | trivial
    | exact hs
    | exact zeroToOne_ne_zero _
    | exact ⟨zeroToOne_ne_zero _, hs.2⟩

/-- Writing a cell that generation 2 does not have keeps what the mapper registers promise. -/
theorem State.mapperInv_writeCell {s : State} (hs : s.MapperInv) {loc : Loc}
    (h : (∃ o, loc = .eram o) → s.mapper.gen ≠ .g2) (v : Byte) : (s.writeCell loc v).MapperInv := by
  unfold State.MapperInv at hs ⊢
  rw [State.writeCell_mapper]
  cases hm : s.mapper <;> rw [hm] at hs <;> try exact hs
  next g rb =>
  refine ⟨hs.1, ?_⟩
  cases loc with
  | eram o => exact absurd (by rw [hm]; rfl) (h ⟨o, rfl⟩)
  | _ => exact hs.2

/-- Writing a 4-bit cell keeps what the mapper registers promise. -/
theorem State.mapperInv_writeNibble {s : State} (hs : s.MapperInv) (i : Nat) (v : Byte) :
    (s.writeCell (.eram i) (v &&& 0x0F)).MapperInv := by
  unfold State.MapperInv at hs ⊢
  rw [State.writeCell_mapper]
  cases hm : s.mapper <;> rw [hm] at hs <;> try exact hs
  next g rb =>
  refine ⟨hs.1, fun x hx => ?_⟩
  rcases Memory.mem_write hx with ⟨rfl, -⟩ | ⟨hx, -⟩
  · apply BitVec.eq_of_getLsbD_eq
    intro k hk
    have : k = 0 ∨ k = 1 ∨ k = 2 ∨ k = 3 := by omega
    rcases this with rfl | rfl | rfl | rfl <;> simp
  · exact hs.2 x hx

/-- A completed bus write keeps the storage invariants. -/
theorem busWrite_inv {s t : State} {addr : Word} {v : Byte} (hm : s.MemoryInv) (hr : s.MapperInv)
    (h : busWrite s addr v = .ok t) : t.MemoryInv ∧ t.MapperInv := by
  rcases busWrite_cases s addr v with ⟨-, h'⟩ | ⟨-, h'⟩ | ⟨loc, hl, h'⟩ | ⟨i, hl, h'⟩ | ⟨-, h'⟩ <;>
    rw [h'] at h
  · cases h
  · cases h
    refine ⟨?_, State.mapperInv_writeMapper hr _ _⟩
    have e : eramSize s.cart (s.mapper.write addr v) = eramSize s.cart s.mapper :=
      eramSize_congr _ (Mapper.write_gen _ _ _)
    exact ⟨⟨hm.1.1, by rw [State.writeMapper_mapper, State.writeMapper_cart, e]; exact hm.1.2⟩, hm.2⟩
  · cases h
    have := State.access_cell_inside hl
    exact ⟨State.memoryInv_writeCell hm this.1 _, State.mapperInv_writeCell hr this.2 _⟩
  · cases h
    have := State.access_nibble_inside hl
    exact ⟨State.memoryInv_writeCell hm this.1 _, State.mapperInv_writeNibble hr _ _⟩
  · cases h
    exact ⟨hm, hr⟩

/-- A completed push keeps the storage invariants. -/
theorem push16_inv {s t : State} {v : Word} (hm : s.MemoryInv) (hr : s.MapperInv)
    (h : push16 s v = .ok t) : t.MemoryInv ∧ t.MapperInv := by
  obtain ⟨u, h1, h2⟩ := push16_ok h
  obtain ⟨um, ur⟩ := busWrite_inv (s := s.setSp (s.sp - 2)) hm hr h1
  exact busWrite_inv um ur h2

end Sys2Proof.Machine
end

