-- ==== Sys2Proof/Tests/Slice0.lean ====
section
/-!
SUPPORT. Small tests, their expected results taken from spec/95_test_vectors.md and from the rules, and
one witness for the hypotheses of each obligation that has some.
-/
namespace Sys2Proof.Tests
open Sys2Proof Sys2Proof.Machine

/-! ### Helpers -/

/-- The outcome is a next state with a property. -/
def nextIs (o : Host.Outcome State Fault Refusal) (p : State → Bool) : Bool :=
  match o with
  | .next t => p t
  | _ => false

/-- The outcome is this fault. -/
def faultIs (o : Host.Outcome State Fault Refusal) (x : Fault) : Bool :=
  match o with
  | .fault y => y == x
  | _ => false

/-- The outcome is the refusal of a cartridge for this reason. -/
def refusedFor (o : Host.Outcome State Fault Refusal) (x : LoadReason) : Bool :=
  match o with
  | .refused y => y == .unsupportedCartridge x
  | _ => false

/-- The read gives this byte. -/
def reads (r : Except Fault (Byte × State)) (v : Byte) : Bool :=
  match r with
  | .ok (b, _) => b == v
  | .error _ => false

/-- The read raises this fault. -/
def readFaults (r : Except Fault (Byte × State)) (x : Fault) : Bool :=
  match r with
  | .ok _ => false
  | .error y => y == x

/-- The write completes in a state with a property. -/
def wrote (r : Except Fault State) (p : State → Bool) : Bool :=
  match r with
  | .ok t => p t
  | .error _ => false

/-- The write raises this fault. -/
def writeFaults (r : Except Fault State) (x : Fault) : Bool :=
  match r with
  | .ok _ => false
  | .error y => y == x

/-- The reset state (the start state of the vectors of spec/95). -/
def s0 : State := State.reset

/-- One step with some bytes at `PC`. -/
def run (s : State) (bs : List Byte) : Host.Outcome State Fault Refusal :=
  step (s.placeBytes s.pc bs)

/-- A cartridge with 8 ROM banks and 32 KiB of RAM. -/
def ramCart : Cart :=
  { Config.blankCart with romSize := 0x20000, hasRam := true, ramSize := 0x8000 }

/-- A generation-1 machine with external RAM enabled. -/
def g1 : State := { s0 with cart := ramCart, mapper := .gen1 true 1 0 false }

/-- A generation-2 machine with its RAM enabled. -/
def g2 : State := { s0 with cart := { ramCart with ramSize := 0 }, mapper := .gen2 true 1 }

/-- A generation-3 machine with external RAM enabled. -/
def g3 : State := { s0 with cart := ramCart, mapper := .gen3 true 1 0 }

/-- A generation-5 machine with external RAM enabled. -/
def g5 : State := { s0 with cart := ramCart, mapper := .gen5 true 1 0 0 }

/-- An image of 32 KiB with some header bytes. -/
def image (m : Memory) : Image := { length := 0x8000, bytes := m }

/-- The machine of an image with the default parameters. -/
def power (img : Image) : Host.Outcome State Fault Refusal :=
  State.powerOn Params.default ResetRegs.default RamInit.default img

/-! ### Well-formedness -/

/-- Offsets out of order. -/
theorem test_memory_wf_order : ¬ Memory.wf [(2, 1), (1, 1)] := by decide

/-- An offset listed twice. -/
theorem test_memory_wf_repeat : ¬ Memory.wf [(1, 1), (1, 2)] := by decide

/-- A listed byte that equals what an unlisted offset reads as. -/
theorem test_memory_wf_unlisted : ¬ Memory.wf [(1, 0)] := by decide

/-- A canonical array is accepted. -/
theorem test_memory_wf_good : Memory.wf [(1, 5), (7, 9)] := by decide

/-- An offset outside the array. -/
theorem test_memory_within : ¬ Memory.within [(0xA0, 1)] 0xA0 := by decide

/-- A ROM size that is no power of two of 32 KiB (R84). -/
theorem test_cart_rom_size : ¬ Cart.romSizeWf { Config.blankCart with romSize := 0xC000 } := by
  rintro ⟨code, hc, h⟩
  have : ∀ c < 9, (0xC000 : Nat) ≠ 0x8000 <<< c := by decide
  exact this code hc h

/-- A RAM size that R85 does not give. -/
theorem test_cart_ram_size : ¬ Cart.ramSizeWf { Config.blankCart with ramSize := 0x4000 } := by decide

/-- A ROM image that lists a byte outside the ROM. -/
theorem test_cart_rom_within : ¬ Cart.wf { Config.blankCart with rom := [(0x8000, 1)] } := by
  rintro ⟨-, -, -, h⟩
  exact absurd (h _ (List.mem_singleton.2 rfl)) (by decide)

/-- A ROM image out of order. -/
theorem test_cart_rom_order : ¬ Cart.wf { Config.blankCart with rom := [(2, 1), (1, 1)] } := by
  rintro ⟨-, -, h, -⟩
  exact absurd h test_memory_wf_order

/-- The cartridges of the tests are configurations R80 to R87 can produce. -/
theorem test_cart_wf_good : Cart.wf Config.blankCart ∧ Cart.wf ramCart :=
  ⟨⟨⟨0, by decide, rfl⟩, by decide, by decide, by decide⟩,
    ⟨⟨2, by decide, rfl⟩, by decide, by decide, by decide⟩⟩

/-- Every instruction is well formed. -/
theorem test_instr_wf : Instr.wf .nop = true ∧ Instr.wf (.ldhLoad 0xFF) = true := by decide

/-! ### Decoding: words written out from R121, R123 and R126 -/

/-- `00000000`. -/
theorem test_decode_nop : decodeTableWord 8 0b00000000 = some .nop := by decide

/-- `00pp0001 llllllll hhhhhhhh` with `pp` 0 to 3. -/
theorem test_decode_load_pair :
    decodeTableWord 24 0b00010010_00110100_00000001 = some (.ldBcD16 0x1234) ∧
    decodeTableWord 24 0b10000000_00000001_00010001 = some (.ldDeD16 0x8001) ∧
    decodeTableWord 24 0b00001111_11111111_00100001 = some (.ldHlD16 0x0FFF) ∧
    decodeTableWord 24 0b11111111_11111110_00110001 = some (.ldSpD16 0xFFFE) := by decide

/-- `00pp1001` with `pp` 0 to 3. -/
theorem test_decode_add_hl :
    decodeTableWord 8 0b00001001 = some .addHlBc ∧ decodeTableWord 8 0b00011001 = some .addHlDe ∧
    decodeTableWord 8 0b00101001 = some .addHlHl ∧ decodeTableWord 8 0b00111001 = some .addHlSp := by
  decide

/-- `10000iii` with `iii` 0 to 7, and `11000110 dddddddd`. -/
theorem test_decode_add_a :
    decodeTableWord 8 0b10000000 = some .addAB ∧ decodeTableWord 8 0b10000001 = some .addAC ∧
    decodeTableWord 8 0b10000010 = some .addAD ∧ decodeTableWord 8 0b10000011 = some .addAE ∧
    decodeTableWord 8 0b10000100 = some .addAH ∧ decodeTableWord 8 0b10000101 = some .addAL ∧
    decodeTableWord 8 0b10000110 = some .addAMem ∧ decodeTableWord 8 0b10000111 = some .addAA ∧
    decodeTableWord 16 0b10100101_11000110 = some (.addAImm 0xA5) := by decide

/-- `10010iii` with `iii` 0 to 7, and `11010110 dddddddd`. -/
theorem test_decode_sub :
    decodeTableWord 8 0b10010000 = some .subB ∧ decodeTableWord 8 0b10010001 = some .subC ∧
    decodeTableWord 8 0b10010010 = some .subD ∧ decodeTableWord 8 0b10010011 = some .subE ∧
    decodeTableWord 8 0b10010100 = some .subH ∧ decodeTableWord 8 0b10010101 = some .subL ∧
    decodeTableWord 8 0b10010110 = some .subMem ∧ decodeTableWord 8 0b10010111 = some .subA ∧
    decodeTableWord 16 0b01011010_11010110 = some (.subImm 0x5A) := by decide

/-- `11000011` and `11001101`, then the target, low byte first. -/
theorem test_decode_jump_call :
    decodeTableWord 24 0b00000001_01010000_11000011 = some (.jp 0x0150) ∧
    decodeTableWord 24 0b00000001_00010000_11001101 = some (.call 0x0110) := by decide

/-- `11100000 aaaaaaaa` and `11110000 aaaaaaaa`. -/
theorem test_decode_ldh :
    decodeTableWord 16 0b10000001_11100000 = some (.ldhStore 0x81) ∧
    decodeTableWord 16 0b01000100_11110000 = some (.ldhLoad 0x44) := by decide

/-- With `IMM16_ORDER = big` only `LD rr,d16` changes (R123, 95 S2). -/
theorem test_decode_big :
    decode .big [0x01, 0x0F, 0x0E] = .ok (.ldBcD16 0x0F0E, []) ∧
    decode .big [0xC3, 0x0F, 0x0E] = .ok (.jp 0x0E0F, []) := ⟨rfl, rfl⟩

/-- Opcode bytes that are not admitted (R127): neighbours of admitted ones. -/
theorem test_decode_unrecognised :
    [0x02, 0x08, 0x0A, 0x41, 0x76, 0x7F, 0x88, 0x8F, 0x98, 0xC4, 0xC9, 0xCB, 0xD3, 0xE2, 0xEA, 0xF2,
      0xFE, 0xFF].all (fun op => decodeTableWord 24 op == none) = true := by decide

/-- Missing operand bytes are refused. -/
theorem test_decode_truncated :
    decode .little [0x01, 0x34] = .error (.truncated 0x01) ∧ decode .little [] = .error .empty :=
  ⟨rfl, rfl⟩

/-! ### The step and the instructions (spec/95 parts 1 and 2) -/

/-- S1, and V1: the wrap of `PC` at 0xFFFF, where the byte is `IE`. -/
theorem test_nop :
    nextIs (run s0 [0x00]) (fun t => t.pc == 0x0101 && t.cyc == 4) = true ∧
    nextIs (step { s0 with pc := 0xFFFF, cyc := 8 }) (fun t => t.pc == 0x0000 && t.cyc == 12) =
      true := by decide

/-- V1: the fetch from the video range faults; and R127, S7: the opcode 0xD3. -/
theorem test_fetch_faults :
    faultIs (step { s0 with pc := 0x8000 }) (.videoAccess 0x8000 .read) = true ∧
    faultIs (run s0 [0xD3]) (.unsupportedOpcode 0xD3 0x0100) = true := by decide

/-- S2 as corrected, and as printed with `IMM16_ORDER = big`. -/
theorem test_load_bc :
    nextIs (run s0 [0x01, 0x0F, 0x0E])
      (fun t => t.b == 0x0E && t.c == 0x0F && t.pc == 0x0103 && t.cyc == 12) = true ∧
    nextIs (run { s0 with params := { Params.default with imm16Order := .big } } [0x01, 0x0F, 0x0E])
      (fun t => t.b == 0x0F && t.c == 0x0E && t.pc == 0x0103) = true := by decide

/-- V2. -/
theorem test_load_de :
    nextIs (run s0 [0x11, 0x00, 0x80]) (fun t => t.d == 0x80 && t.e == 0x00) = true := by decide

/-- V2: the straddle of 0xFFFF. -/
theorem test_load_hl_straddle :
    nextIs (run { s0 with pc := 0xFFFE } [0x21, 0x34, 0x12])
      (fun t => t.h == 0x12 && t.l == 0x34 && t.pc == 0x0001) = true := by decide

/-- V2, and its fault on the third byte. -/
theorem test_load_sp :
    nextIs (run s0 [0x31, 0x34, 0x12]) (fun t => t.sp == 0x1234 && t.pc == 0x0103) = true ∧
    faultIs (run { s0 with pc := 0x7FFE } [0x01]) (.videoAccess 0x8000 .read) = true := by decide

/-- V5, from reset. -/
theorem test_add_hl :
    nextIs (run s0 [0x09]) (fun t => t.hl == 0x0160 && t.f == 0x00 && t.cyc == 8) = true ∧
    nextIs (run s0 [0x19]) (fun t => t.hl == 0x0225 && t.f == 0x00) = true ∧
    nextIs (run s0 [0x29]) (fun t => t.hl == 0x029A && t.f == 0x00) = true ∧
    nextIs (run s0 [0x39]) (fun t => t.hl == 0x014B && t.f == 0x30 && t.sp == 0xFFFE) = true := by
  decide

/-- S4, and V5 with `ADD16_Z = unchanged`. -/
theorem test_add_hl_flags :
    nextIs (run { s0 with h := 0x0F, l := 0xFF, b := 0, c := 1 } [0x09])
      (fun t => t.hl == 0x1000 && t.f == 0x20) = true ∧
    nextIs (run { s0 with h := 0xFF, l := 0xFF, d := 0, e := 1 } [0x19])
      (fun t => t.hl == 0x0000 && t.f == 0xB0) = true ∧
    nextIs (run { s0 with params := { Params.default with add16Z := .unchanged } } [0x29])
      (fun t => t.hl == 0x029A && t.f == 0x80) = true := by decide

/-- V3, register forms, each register at a value of its own. -/
theorem test_add_a_register :
    nextIs (run { s0 with b := 0x21 } [0x80]) (fun t => t.a == 0x22) = true ∧
    nextIs (run s0 [0x81]) (fun t => t.a == 0x14 && t.f == 0x00 && t.cyc == 4) = true ∧
    nextIs (run { s0 with d := 0x31 } [0x82]) (fun t => t.a == 0x32) = true ∧
    nextIs (run s0 [0x83]) (fun t => t.a == 0xD9) = true ∧
    nextIs (run { s0 with h := 0xFE } [0x84]) (fun t => t.a == 0xFF && t.f == 0x00) = true ∧
    nextIs (run s0 [0x85]) (fun t => t.a == 0x4E) = true ∧
    nextIs (run { s0 with a := 0x88 } [0x87]) (fun t => t.a == 0x10 && t.f == 0x30) = true := by
  decide

/-- V3, memory and immediate forms. -/
theorem test_add_a_memory :
    nextIs (run { s0 with a := 0x0F, h := 0xC0, l := 0x00, wram := [(0, 0x01)] } [0x86])
      (fun t => t.a == 0x10 && t.f == 0x20 && t.pc == 0x0101 && t.cyc == 8) = true ∧
    faultIs (run { s0 with h := 0x90, l := 0x00 } [0x86]) (.videoAccess 0x9000 .read) = true ∧
    nextIs (run s0 [0xC6, 0xFF])
      (fun t => t.a == 0x00 && t.f == 0xB0 && t.pc == 0x0102 && t.cyc == 8) = true := by decide

/-- V4, register forms. -/
theorem test_sub_register :
    nextIs (run s0 [0x90]) (fun t => t.a == 0x01 && t.f == 0x40) = true ∧
    nextIs (run s0 [0x91]) (fun t => t.a == 0xEE && t.f == 0x70) = true ∧
    nextIs (run { s0 with a := 0x10, d := 0x01 } [0x92]) (fun t => t.a == 0x0F && t.f == 0x60) = true ∧
    nextIs (run s0 [0x93]) (fun t => t.a == 0x29 && t.f == 0x70) = true ∧
    nextIs (run s0 [0x94]) (fun t => t.a == 0x00 && t.f == 0xC0) = true ∧
    nextIs (run s0 [0x95]) (fun t => t.a == 0xB4 && t.f == 0x70) = true ∧
    nextIs (run { s0 with a := 0x5A } [0x97]) (fun t => t.a == 0x00 && t.f == 0xC0) = true := by
  decide

/-- V4, memory and immediate forms. -/
theorem test_sub_memory :
    nextIs (run { s0 with a := 0x3E, h := 0xFF, l := 0x80, hram := [(0, 0x40)] } [0x96])
      (fun t => t.a == 0xFE && t.f == 0x50 && t.cyc == 8) = true ∧
    faultIs (run { s0 with h := 0x80, l := 0x00 } [0x96]) (.videoAccess 0x8000 .read) = true ∧
    nextIs (run { s0 with a := 0x3E } [0xD6, 0x0F])
      (fun t => t.a == 0x2F && t.f == 0x60 && t.pc == 0x0102) = true := by decide

/-- V6. -/
theorem test_jp :
    nextIs (run s0 [0xC3, 0x50, 0x01]) (fun t => t.pc == 0x0150 && t.cyc == 16) = true ∧
    nextIs (run s0 [0xC3, 0x00, 0x80]) (fun t => t.pc == 0x8000) = true := by decide

/-- V7: high RAM, the wrap of `SP`, and the dropped half at 0xFEA0. -/
theorem test_call :
    nextIs (run { s0 with pc := 0x0103 } [0xCD, 0x10, 0x01])
      (fun t => t.sp == 0xFFFC && t.hram == [(0x7C, 0x06), (0x7D, 0x01)] && t.pc == 0x0110 &&
        t.cyc == 24) = true ∧
    nextIs (run { s0 with sp := 0x0001 } [0xCD, 0x07, 0x01])
      (fun t => t.sp == 0xFFFF && t.ie == 0x03 && t.hram == [] && t.pc == 0x0107) = true ∧
    nextIs (run { s0 with sp := 0xFEA1 } [0xCD, 0x07, 0x01])
      (fun t => t.sp == 0xFE9F && t.oam == [(0x9F, 0x03)]) = true := by decide

/-- V7: the faults of a push, and R90: a stack in ROM with a mapper. -/
theorem test_call_faults :
    faultIs (run { s0 with sp := 0x9002 } [0xCD, 0x07, 0x01]) (.videoAccess 0x9000 .write) = true ∧
    faultIs (run { s0 with sp := 0x8001 } [0xCD, 0x07, 0x01]) (.videoAccess 0x8000 .write) = true ∧
    nextIs (run { g1 with sp := 0x2002 } [0xCD, 0x07, 0x12])
      (fun t => t.mapper == .gen1 true 1 0 false && t.sp == 0x2000) = true := by decide

/-- V8. -/
theorem test_ldh_store :
    nextIs (run { s0 with a := 0x10 } [0xE0, 0x81])
      (fun t => t.hram == [(1, 0x10)] && t.pc == 0x0102 && t.cyc == 12) = true ∧
    nextIs (run { s0 with a := 0x91 } [0xE0, 0x40]) (fun t => t.io == [(0x40, 0x91)]) = true ∧
    nextIs (run { s0 with a := 0x1F } [0xE0, 0xFF]) (fun t => t.ie == 0x1F) = true := by decide

/-- V8. -/
theorem test_ldh_load :
    nextIs (run { s0 with hram := [(0, 0x88)] } [0xF0, 0x80])
      (fun t => t.a == 0x88 && t.f == 0xB0 && t.pc == 0x0102) = true ∧
    nextIs (run s0 [0xF0, 0x44]) (fun t => t.a == 0x00 && t.f == 0xB0) = true ∧
    nextIs (run { s0 with ie := 0x1F } [0xF0, 0xFF]) (fun t => t.a == 0x1F) = true := by decide

/-- A machine whose fault record is set has no step (R34). -/
theorem test_faulted_machine :
    faultIs (step { s0 with fault := some (.videoAccess 0x8000 .read) }) (.videoAccess 0x8000 .read) =
      true := by decide

/-- A table word runs as the first instruction after reset. -/
theorem test_with_fetch_word :
    nextIs (step (State.reset.withFetchWord 24 0x015000C3)) (fun t => t.pc == 0x5000) = true ∧
    nextIs (step (State.reset.withFetchWord 16 0x81E0)) (fun t => t.hram == [(1, 0x01)]) = true := by
  decide

/-! ### The bus and the mapper (spec/95 V9, V11, V12) -/

/-- V9: echo, its end, object-attribute memory, the unused range. -/
theorem test_bus_regions :
    wrote (busWrite s0 0xC010 0x5A) (fun t => reads (busRead t 0xE010) 0x5A) = true ∧
    wrote (busWrite s0 0xFDFF 0x44) (fun t => reads (busRead t 0xDDFF) 0x44) = true ∧
    wrote (busWrite s0 0xDE00 0x55) (fun t => reads (busRead t 0xFE00) 0x00) = true ∧
    wrote (busWrite s0 0xFEA0 0x88) (fun t => t == s0) = true ∧
    wrote (busWrite s0 0xBFFF 0x22) (fun t => t.eram == [(0x1FFF, 0x22)]) = true := by decide

/-- V9: the last addresses of the map and a word over the end of it. -/
theorem test_bus_edges :
    wrote (busWrite s0 0xFFFE 0xCC) (fun t => t.hram == [(0x7E, 0xCC)]) = true ∧
    wrote (busWrite s0 0xFFFF 0xDD) (fun t => t.ie == 0xDD && t.hram == []) = true ∧
    wrote (memWrite16 s0 0xFFFF 0x1234) (fun t => t.ie == 0x34 && t.cart == s0.cart) = true ∧
    wrote (memWrite16 s0 0xC000 0xBEEF) (fun t => t.wram == [(0, 0xEF), (1, 0xBE)]) = true ∧
    writeFaults (memWrite16 s0 0x9FFF 0x1234) (.videoAccess 0x9FFF .write) = true := by decide

/-- V11: `BANK1`, the RAM gate and the RAM bank of generation 1. -/
theorem test_generation1 :
    wrote (busWrite g1 0x3FFF 0xE0) (fun t => t.mapper == .gen1 true 1 0 false) = true ∧
    wrote (busWrite g1 0x2000 0x03) (fun t => t.access 0x4000 == .rom 0xC000) = true ∧
    wrote (busWrite g1 0x1FFF 0x00) (fun t => reads (busRead t 0xA000) 0xFF) = true ∧
    wrote (busWrite { g1 with mapper := .gen1 true 8 1 true } 0xA000 0x34)
      (fun t => t.eram == [(0x2000, 0x34)]) = true := by decide

/-- V12: the 4-bit cells of generation 2 and its address bit 8. -/
theorem test_generation2 :
    wrote (busWrite g2 0xA000 0xAB) (fun t => reads (busRead t 0xA200) 0xFB) = true ∧
    wrote (busWrite g2 0x2100 0x00) (fun t => t.mapper == .gen2 true 1) = true ∧
    wrote (busWrite g2 0x2000 0x00) (fun t => t.mapper == .gen2 false 1) = true := by decide

/-- R100 to R102: the registers of generation 3, and a dropped write to a timer register. -/
theorem test_generation3 :
    wrote (busWrite g3 0x2000 0x80) (fun t => t.mapper == .gen3 true 1 0) = true ∧
    wrote (busWrite g3 0x4000 0x08) (fun t => t.access 0xA000 == .timer) = true ∧
    wrote (busWrite { g3 with mapper := .gen3 true 1 8 } 0xA000 0x12)
      (fun t => t == { g3 with mapper := .gen3 true 1 8 }) = true := by decide

/-- R104: generation 5 has no zero adjustment, and its RAM gate needs the whole byte 0x0A. -/
theorem test_generation5 :
    wrote (busWrite g5 0x2FFF 0x00) (fun t => t.access 0x4000 == .rom 0) = true ∧
    wrote (busWrite g5 0x3000 0x01) (fun t => t.mapper == .gen5 true 1 1 0) = true ∧
    wrote (busWrite g5 0x0000 0x1A) (fun t => t.mapper == .gen5 false 1 0 0) = true := by decide

/-! ### The cartridge (spec/95 V10) -/

/-- V10: the refusals. -/
theorem test_refusals :
    refusedFor (power (image [(0x147, 0x04)])) (.type 0x04) = true ∧
    refusedFor (power (image [(0x148, 0x52)])) (.romSize 0x52) = true ∧
    refusedFor (power (image [(0x146, 0x03), (0x14B, 0x01)])) .licensing = true ∧
    refusedFor (power (image [(0x147, 0x20)])) (.mapper .g6) = true ∧
    refusedFor (power (image [(0x148, 0x01)])) .imageLength = true ∧
    refusedFor (power { length := 0x14F, bytes := [] }) .imageLength = true := by decide

/-- V10: accepted cartridges. -/
theorem test_accepted :
    nextIs (power (image [(0x148, 0x09)])) (fun t => t.cart.romSize == 0x8000) = true ∧
    nextIs (power { length := 0x20000, bytes := [(0x147, 0x03), (0x148, 0x02), (0x149, 0x03)] })
      (fun t => t.mapper == .gen1 false 1 0 false && t.cart.ramSize == 0x8000 && t.cart.hasRam) =
      true ∧
    nextIs (power (image [(0x143, 0x80)]))
      (fun t => t.a == 0x11 && t.f == 0x80 && t.e == 0x56 && t.l == 0x0D) = true := by decide

/-! ### Witnesses: concrete states and operands that meet the hypotheses of the obligations -/

/-- `s0` with some bytes at `PC`. -/
def at0 (bs : List Byte) : State := s0.placeBytes s0.pc bs

theorem witness_DecodeOfEncode : Instr.wf (.ldHlD16 0x1234) = true ∧ Instr.wf (.ldhStore 0xFF) = true := by
  decide

theorem witness_EncodeOfDecode :
    decode .big [0x21, 0x12, 0x34, 0x00] = .ok (.ldHlD16 0x1234, [0x00]) ∧
    decode .little [0xF0, 0xFF] = .ok (.ldhLoad 0xFF, []) := ⟨rfl, rfl⟩

theorem witness_StepRunsFetchedInstruction :
    (at0 [0xC6, 0xFF]).fault = none ∧
    readBytes 2 (at0 [0xC6, 0xFF]) (at0 [0xC6, 0xFF]).pc = .ok ([0xC6, 0xFF], at0 [0xC6, 0xFF]) ∧
    decode (at0 [0xC6, 0xFF]).params.imm16Order [0xC6, 0xFF] = .ok (.addAImm 0xFF, []) ∧
    busPeek (at0 [0xC6, 0xFF]) ((at0 [0xC6, 0xFF]).pc + BitVec.ofNat 16 0) ≠ .ok none ∧
    busPeek (at0 [0xC6, 0xFF]) ((at0 [0xC6, 0xFF]).pc + BitVec.ofNat 16 1) ≠ .ok none :=
  ⟨rfl, rfl, rfl, by rintro ⟨⟩, by rintro ⟨⟩⟩

theorem witness_UnsupportedOpcodeFaults :
    (at0 [0xD3]).fault = none ∧ busRead (at0 [0xD3]) (at0 [0xD3]).pc = .ok (0xD3, at0 [0xD3]) ∧
    (0xD3 : Byte) ∉ admittedOpcodes := ⟨rfl, rfl, by decide⟩

/-- The opcode, the second byte and the third byte of `JP` as the first byte in the video range. -/
theorem witness_FetchInVideoFaults :
    (readBytes 0 { s0 with pc := 0x8000 } 0x8000 = .ok ([], { s0 with pc := 0x8000 }) ∧
      InVideo (0x8000 + BitVec.ofNat 16 0)) ∧
    (∃ s : State, s.fault = none ∧ s.pc = 0x7FFF ∧ readBytes 1 s s.pc = .ok ([0xC3], s) ∧
      [0xC3].head? = some (Instr.jp 0).opcode ∧ 1 < (Instr.jp 0).length ∧
      InVideo (s.pc + BitVec.ofNat 16 1)) ∧
    (∃ s : State, s.fault = none ∧ s.pc = 0x7FFE ∧ readBytes 2 s s.pc = .ok ([0xC3, 0x00], s) ∧
      [(0xC3 : Byte), 0x00].head? = some (Instr.jp 0).opcode ∧ 2 < (Instr.jp 0).length ∧
      InVideo (s.pc + BitVec.ofNat 16 2)) :=
  ⟨⟨rfl, by decide⟩,
    ⟨{ s0 with pc := 0x7FFF, cart := { s0.cart with rom := [(0x7FFF, 0xC3)] } }, rfl, rfl, rfl, rfl,
      by decide, by decide⟩,
    ⟨{ s0 with pc := 0x7FFE, cart := { s0.cart with rom := [(0x7FFE, 0xC3)] } }, rfl, rfl, rfl, rfl,
      by decide, by decide⟩⟩

theorem witness_FaultIsPreciseAndTerminal :
    s0.fault = none ∧ step { s0 with pc := 0x8000 } = .fault (.videoAccess 0x8000 .read) ∧
    step (at0 [0xD3]) = .fault (.unsupportedOpcode 0xD3 0x0100) := ⟨rfl, rfl, rfl⟩

theorem witness_MeaningsFaultOnlyInVideo :
    exec .addAMem { s0 with h := 0x9F, l := 0xFF } = .fault (.videoAccess 0x9FFF .read) ∧
    exec .subMem { s0 with h := 0x80, l := 0x00 } = .fault (.videoAccess 0x8000 .read) ∧
    exec (.call 0) { s0 with sp := 0xA001 } = .fault (.videoAccess 0x9FFF .write) ∧
    exec (.call 0) { s0 with sp := 0x8001 } = .fault (.videoAccess 0x8000 .write) :=
  ⟨rfl, rfl, rfl, rfl⟩

/-- The costs of the table, which the cycle clauses of the effect statements assume. -/
theorem witness_TableCosts : s0.TableCosts ∧ s0.params.cost 0xCD = 24 := by decide

/-- The addresses next to the video range, and a read that is no draw. -/
theorem witness_MemoryOperandEffect :
    ¬ InVideo (State.hl { s0 with h := 0x7F, l := 0xFF }) ∧
    ¬ InVideo (State.hl { s0 with h := 0xA0, l := 0x00 }) ∧
    busPeek { s0 with h := 0xA0, l := 0x00 } 0xA000 = .ok (some 0x00) :=
  ⟨by decide, by decide, rfl⟩

theorem witness_MemoryOperandTraps :
    InVideo ((0x80 : Byte) ++ (0x00 : Byte)) ∧ InVideo ((0x9F : Byte) ++ (0xFF : Byte)) := by decide

/-- The stack just below and just above the video range. -/
theorem witness_CallEffect :
    (¬ InVideo ((0x8000 : Word) - 2) ∧ ¬ InVideo ((0x8000 : Word) - 1)) ∧
    (¬ InVideo ((0xA002 : Word) - 2) ∧ ¬ InVideo ((0xA002 : Word) - 1)) := by decide

/-- The reset stack, and a word over the end of the echo range. -/
theorem witness_CallPushesReturnAddress :
    Cart.wf s0.cart ∧ s0.access (s0.sp - 2) = .cell (.hram 0x7C) ∧
    s0.access (s0.sp - 1) = .cell (.hram 0x7D) ∧
    s0.access ((0xFE01 : Word) - 2) = .cell (.wram 0x1DFF) ∧
    s0.access ((0xFE01 : Word) - 1) = .cell (.oam 0) :=
  ⟨test_cart_wf_good.1, rfl, rfl, rfl, rfl⟩

theorem witness_CallTrapsInVideo :
    InVideo ((0xA001 : Word) - 2) ∧ InVideo ((0x8002 : Word) - 2) ∧
    ¬ InVideo ((0x8001 : Word) - 2) ∧ InVideo ((0x8001 : Word) - 1) := by decide

theorem witness_LdhLoadEffect :
    (0xFF00 : Word).toNat = 0xFF00 + (0x00 : Byte).toNat ∧
    (0xFF80 : Word).toNat = 0xFF00 + (0x80 : Byte).toNat ∧
    (0xFFFF : Word).toNat = 0xFF00 + (0xFF : Byte).toNat := by decide

/-- Both clauses on the address of the LDH store. -/
theorem witness_LdhStoreEffect :
    (0xFFFF : Word).toNat = 0xFF00 + (0xFF : Byte).toNat ∧
    (0xFEFF : Word).toNat ≠ 0xFF00 + (0xFF : Byte).toNat := by decide

theorem witness_OtherInstructionsKeepMemory :
    (∃ t, exec .subMem s0 = .next t) ∧ (∀ target, Instr.subMem ≠ .call target) ∧
    ∀ a8, Instr.subMem ≠ .ldhStore a8 :=
  ⟨⟨_, rfl⟩, fun _ h => Instr.noConfusion h, fun _ h => Instr.noConfusion h⟩

/-- A completed CALL; a cell it does not store to; a machine with a mapper whose stack is not in ROM; an
address without a cell and an address of another cell. -/
theorem witness_CallFrame :
    (∃ t, exec (.call 0x0110) s0 = .next t) ∧
    storedCell s0 (s0.sp - 2) ≠ some (.wram 0) ∧ storedCell s0 (s0.sp - 1) ≠ some (.wram 0) ∧
    s0.mapper = .gen0 ∧ g1.mapper ≠ .gen0 ∧
    (0x8000 ≤ (g1.sp - 2).toNat ∧ 0x8000 ≤ (g1.sp - 1).toNat) ∧
    storedCell s0 0x0000 = none ∧
    storedCell s0 0xFF80 ≠ storedCell s0 (s0.sp - 2) ∧
    storedCell s0 0xFF80 ≠ storedCell s0 (s0.sp - 1) :=
  ⟨⟨_, rfl⟩, by decide, by decide, rfl, by decide, by decide, rfl, by decide, by decide⟩

theorem witness_RegistersChangeOnlyWhereWritten :
    ∃ t, exec (.subImm 1) s0 = .next t ∧ t.reg .a ≠ s0.reg .a := ⟨_, rfl, by decide⟩

theorem witness_FlagsSteerNothing : s0.params.add16Z = .fromResult := rfl

theorem witness_CycleLaw :
    (∃ t, exec (.jp 0x0100) s0 = .next t) ∧ s0.TableCosts ∧ ∃ t, step (at0 [0x86]) = .next t :=
  ⟨⟨_, rfl⟩, rfl, _, rfl⟩

theorem witness_FixedPartsStay : ∃ t, step (at0 [0xCD, 0x10, 0x01]) = .next t := ⟨_, rfl⟩

theorem witness_MapperChangesOnlyByRomWrites :
    (∃ t, busWrite g1 0x2000 0x03 = .ok t ∧ t.mapper ≠ g1.mapper) ∧
    ∃ t, exec (.call 0) { g1 with sp := 0x2002, pc := 0x0200 } = .next t ∧ t.mapper ≠ g1.mapper :=
  ⟨⟨_, rfl, by decide⟩, _, rfl, by decide⟩

/-- Reset, and a generation-2 machine that holds a 4-bit cell. -/
theorem witness_StepKeepsInvariant :
    (s0.Inv ∧ ∃ t, step s0 = .next t) ∧
    (State.Inv { g2 with eram := [(0x1FF, 0x0B)] } ∧
      ∃ t, step { g2 with eram := [(0x1FF, 0x0B)] } = .next t) :=
  ⟨⟨⟨by decide, by decide, trivial, fun _ => rfl, test_cart_wf_good.1⟩, _, rfl⟩,
    ⟨⟨by decide, by decide,
      ⟨by decide, by intro x hx; rw [List.mem_singleton.1 hx]; decide⟩, fun _ => rfl,
      ⟨⟨2, by decide, rfl⟩, by decide, by decide, by decide⟩⟩, _, rfl⟩⟩

theorem witness_InvariantHoldsAtPowerOn :
    Memory.wf (image [(0x149, 0x02)]).bytes ∧
    Memory.within (image [(0x149, 0x02)]).bytes (image [(0x149, 0x02)]).length ∧
    ∃ s, power (image [(0x149, 0x02)]) = .next s := ⟨by decide, by decide, _, rfl⟩

/-- The first and the last address of each of the ten ranges. -/
theorem witness_EveryAddressHasItsRegion :
    ((0x0000 : Word).toNat < 0x8000 ∧ (0x7FFF : Word).toNat < 0x8000) ∧
    (InVideo 0x8000 ∧ InVideo 0x9FFF) ∧
    (0xA000 ≤ (0xA000 : Word).toNat ∧ (0xBFFF : Word).toNat < 0xC000 ∧ s0.mapper = .gen0) ∧
    (0xC000 ≤ (0xC000 : Word).toNat ∧ (0xDFFF : Word).toNat < 0xE000) ∧
    (0xE000 ≤ (0xE000 : Word).toNat ∧ (0xFDFF : Word).toNat < 0xFE00) ∧
    (0xFE00 ≤ (0xFE00 : Word).toNat ∧ (0xFE9F : Word).toNat < 0xFEA0) ∧
    (0xFEA0 ≤ (0xFEA0 : Word).toNat ∧ (0xFEFF : Word).toNat < 0xFF00) ∧
    (0xFF00 ≤ (0xFF00 : Word).toNat ∧ (0xFF7F : Word).toNat < 0xFF80) ∧
    (0xFF80 ≤ (0xFF80 : Word).toNat ∧ (0xFFFE : Word).toNat < 0xFFFF) ∧
    (0xFFFF : Word).toNat = 0xFFFF := by decide

theorem witness_VideoRangeFaults :
    InVideo 0x8000 ∧ InVideo 0x9FFF ∧ ¬ InVideo 0x7FFF ∧ ¬ InVideo 0xA000 ∧
    InVideo (State.pc { s0 with pc := 0x9FFF }) ∧ State.fault { s0 with pc := 0x9FFF } = none := by
  decide

/-- A byte that is there, and a draw. -/
theorem witness_ReadsChangeNothing :
    busRead s0 0x0100 = .ok (0x00, s0) ∧
    busRead { g3 with mapper := .gen3 true 1 8 } 0xBFFF =
      .ok (Config.freeByte 0, { g3 with mapper := .gen3 true 1 8, draws := 1 }) := ⟨rfl, rfl⟩

theorem witness_PlainStorageReadsBack :
    s0.access 0xC000 = .cell (.wram 0) ∧ s0.access 0xE000 = .cell (.wram 0) ∧
    s0.access 0xFFFF = .cell .ie := ⟨rfl, rfl, rfl⟩

theorem witness_EchoAliasesWorkRam :
    (0xE000 ≤ (0xE000 : Word).toNat ∧ (0xFDFF : Word).toNat < 0xFE00) ∧
    (0xDE00 ≤ (0xDE00 : Word).toNat ∧ (0xDFFF : Word).toNat < 0xE000) ∧
    s0.access 0xDE00 = s0.access 0xDE00 := by decide

theorem witness_RomReadsAndWrites :
    Cart.wf s0.cart ∧ s0.mapper = .gen0 ∧ (0x0000 : Word).toNat < 0x8000 ∧
    (0x7FFF : Word).toNat < 0x8000 ∧ ∃ t, busWrite s0 0x7FFF 0x01 = .ok t :=
  ⟨test_cart_wf_good.1, rfl, by decide, by decide, _, rfl⟩

theorem witness_UnusedRangeIsTolerated :
    0xFEA0 ≤ (0xFEA0 : Word).toNat ∧ (0xFEFF : Word).toNat < 0xFF00 := by decide

/-- A word inside work RAM, and one over the edge of external RAM and work RAM. -/
theorem witness_WordRoundTrip :
    Cart.wf g1.cart ∧ g1.access 0xC000 = .cell (.wram 0) ∧ g1.access (0xC000 + 1) = .cell (.wram 1) ∧
    g1.access 0xBFFF = .cell (.eram 0x1FFF) ∧ g1.access (0xBFFF + 1) = .cell (.wram 0) :=
  ⟨test_cart_wf_good.2, rfl, rfl, rfl, rfl⟩

theorem witness_WindowsStayInside :
    Cart.wf ramCart ∧ 0x7FFF < 0x8000 ∧ 0x1FFF < 0x2000 ∧
    extCell ramCart (.gen1 true 1 3 true) 0x1FFF = .byte 0x7FFF ∧
    extCell ramCart (.gen2 true 1) 0x1FFF = .nibble 0x1FF :=
  ⟨test_cart_wf_good.2, by decide, by decide, rfl, rfl⟩

/-- The ends of the register ranges, both ROM windows and the RAM window, for each generation. -/
theorem witness_Generation1Controller :
    g1.mapper = .gen1 true 1 0 false ∧ g1.cart.hasRam = true ∧ g1.cart.ramSize ≠ 0 ∧
    (0x3FFF : Word).toNat < 0x4000 ∧ 0x4000 ≤ (0x4000 : Word).toNat ∧ (0x7FFF : Word).toNat < 0x8000 ∧
    0xA000 ≤ (0xA000 : Word).toNat ∧ (0xBFFF : Word).toNat < 0xC000 :=
  ⟨rfl, rfl, by decide, by decide, by decide, by decide, by decide, by decide⟩

theorem witness_Generation2Controller :
    g2.mapper = .gen2 true 1 ∧
    (0x3FFF : Word).toNat < 0x4000 ∧ 0x4000 ≤ (0x4000 : Word).toNat ∧ (0x7FFF : Word).toNat < 0x8000 ∧
    0xA000 ≤ (0xA1FF : Word).toNat ∧ (0xBFFF : Word).toNat < 0xC000 ∧
    (0xBFFF : Word).toNat % 512 = (0xA1FF : Word).toNat % 512 :=
  ⟨rfl, by decide, by decide, by decide, by decide, by decide, by decide⟩

/-- The select values 7, 8 and 0xC as well. -/
theorem witness_Generation3Controller :
    State.mapper { g3 with mapper := .gen3 true 1 7 } = .gen3 true 1 7 ∧ (7 : BitVec 4).toNat < 8 ∧
    g3.cart.hasRam = true ∧ g3.cart.ramSize ≠ 0 ∧
    8 ≤ (8 : BitVec 4).toNat ∧ (0xC : BitVec 4).toNat ≤ 0xC ∧
    (0x3FFF : Word).toNat < 0x4000 ∧ 0x4000 ≤ (0x4000 : Word).toNat ∧ (0x7FFF : Word).toNat < 0x8000 ∧
    0xA000 ≤ (0xA000 : Word).toNat ∧ (0xBFFF : Word).toNat < 0xC000 :=
  ⟨rfl, by decide, rfl, by decide, by decide, by decide, by decide, by decide, by decide, by decide,
    by decide⟩

theorem witness_Generation5Controller :
    g5.mapper = .gen5 true 1 0 0 ∧ g5.cart.hasRam = true ∧ g5.cart.ramSize ≠ 0 ∧
    (0x3FFF : Word).toNat < 0x4000 ∧ 0x4000 ≤ (0x4000 : Word).toNat ∧ (0x7FFF : Word).toNat < 0x8000 ∧
    0xA000 ≤ (0xA000 : Word).toNat ∧ (0xBFFF : Word).toNat < 0xC000 :=
  ⟨rfl, rfl, by decide, by decide, by decide, by decide, by decide, by decide⟩

/-- A machine of each generation whose RAM is not there: disabled, not on the cartridge, or not
selected. -/
theorem witness_AbsentRamReadsOnes :
    0xA000 ≤ (0xA000 : Word).toNat ∧ (0xBFFF : Word).toNat < 0xC000 ∧
    State.mapper { g1 with mapper := .gen1 false 1 0 false } = .gen1 false 1 0 false ∧
    State.mapper { g2 with mapper := .gen2 false 1 } = .gen2 false 1 ∧
    State.mapper { g3 with mapper := .gen3 true 1 0xD } = .gen3 true 1 0xD ∧
    0xD ≤ (0xD : BitVec 4).toNat ∧ Config.blankCart.hasRam = false ∧ g2.cart.ramSize = 0 :=
  ⟨by decide, by decide, rfl, rfl, rfl, by decide, rfl, rfl⟩

theorem witness_AcceptedCartridgeConfiguration :
    (∃ s, power (image [(0x147, 0x08)]) = .next s) ∧ (∃ s, power (image [(0x147, 0x02)]) = .next s) ∧
    (∃ s, power (image [(0x147, 0x06)]) = .next s) ∧ (∃ s, power (image [(0x147, 0x13)]) = .next s) ∧
    ∃ s, power (image [(0x147, 0x1E)]) = .next s :=
  ⟨⟨_, rfl⟩, ⟨_, rfl⟩, ⟨_, rfl⟩, ⟨_, rfl⟩, _, rfl⟩

/-- Both columns of R37. -/
theorem witness_ResetRegisterValues :
    (∃ s, power (image [(0x143, 0xC0)]) = .next s) ∧ (image [(0x143, 0xC0)]).byte 0x143 = 0xC0 ∧
    (∃ s, power (image [(0x143, 0x80)]) = .next s) ∧ (image [(0x143, 0x80)]).byte 0x143 = 0x80 ∧
    (∃ s, power (image []) = .next s) ∧ (image []).byte 0x143 = 0x00 :=
  ⟨⟨_, rfl⟩, rfl, ⟨_, rfl⟩, rfl, ⟨_, rfl⟩, rfl⟩

theorem witness_OneFlagAtATime :
    (7 < 8 ∧ 7 = Flag.z.bit) ∧ (0 < 8 ∧ 0 ≠ Flag.z.bit) ∧ busRead s0 0xFFFF = .ok (0x00, s0) ∧
    ∃ t, busWrite s0 0xFFFF 0x01 = .ok t := ⟨by decide, by decide, rfl, _, rfl⟩

theorem witness_PairIsItsTwoBytes : Op16.sp ≠ Op16.hl := by decide

/-- A push; an instruction that writes `SP`, one that moves it, and one that leaves it. -/
theorem witness_PushRule :
    (∃ t, push16 s0 0x1234 = .ok t) ∧ (∃ t, exec (.ldSpD16 0x1234) s0 = .next t) ∧
    (∃ t, exec (.call 0x1234) s0 = .next t) ∧ ∃ t, exec .addHlSp s0 = .next t :=
  ⟨⟨_, rfl⟩, ⟨_, rfl⟩, ⟨_, rfl⟩, _, rfl⟩

theorem witness_FlagsLowNibbleStaysZero :
    s0.f.toNat % 16 = 0 ∧ ∃ t, step (at0 [0x97]) = .next t := ⟨by decide, _, rfl⟩

/-- A fetch over the end of the address space; a jump, a call, and an instruction that is neither. -/
theorem witness_ProgramCounterLaw :
    (∃ b t, fetch8 { s0 with pc := 0xFFFF } = .ok (b, t)) ∧
    (∃ w t, fetch16 { s0 with pc := 0xFFFF } = .ok (w, t)) ∧
    (∃ t, exec (.jp 0x8000) s0 = .next t) ∧ (∃ t, exec (.call 0x0110) s0 = .next t) ∧
    ∃ t, exec (.ldhLoad 0x44) s0 = .next t :=
  ⟨⟨_, _, rfl⟩, ⟨_, _, rfl⟩, ⟨_, rfl⟩, ⟨_, rfl⟩, _, rfl⟩

end Sys2Proof.Tests
end

/-! ## What an instruction that completes did: `PC`, `F` and the mapper registers -/

namespace Sys2Proof.Machine

/-! ### The effect of an instruction before it retires -/

/-- What an instruction other than a jump or a call can have made of `s` before `PC` and `CYC` move,
one alternative per shared operation of the model (tied to it by `exec_next`). -/
inductive Effect (s : State) : State → Prop
  | none : Effect s s
  | loadPair (p : Op16) (v : Word) : Effect s (s.writeOp16 p v)
  | addHl (v : Word) (z n h c : Bool) : Effect s ((s.writeOp16 .hl v).writeFlags z n h c)
  | alu (r : AluResult 8) : Effect s (s.commit8 r)
  | aluDrawn (r : AluResult 8) : Effect s (s.drawn.commit8 r)
  | store (loc : Loc) (v : Byte) : Effect s (s.writeCell loc v)
  | load (v : Byte) : Effect s (s.setA v)

theorem Effect.pc_eq {s u : State} (h : Effect s u) : u.pc = s.pc := by
  cases h <;> simp

theorem Effect.mapper_eq {s u : State} (h : Effect s u) : u.mapper = s.mapper := by
  cases h <;> simp

/-- `F` is left alone or written whole by `WriteFlags` (R163). -/
theorem Effect.f_cases {s u : State} (h : Effect s u) :
    u.f = s.f ∨ ∃ z n h c, u.f = packFlags z n h c := by
  cases h with
  | addHl v z n h c => exact .inr ⟨z, n, h, c, rfl⟩
  | alu r | aluDrawn r => exact .inr ⟨r.z, r.n, r.h, r.c, rfl⟩
  | none | loadPair | store | load => exact .inl (by simp)

section
variable {s t : State} {op : Byte}

theorem loadPair_next {p : Op16} {v : Word} (h : loadPair op p v s = .next t) :
    ∃ u, Effect s u ∧ t = u.retire op 3 := by
  cases h
  exact ⟨_, .loadPair p v, rfl⟩

theorem addHl_next {p : Op16} (h : addHl op p s = .next t) :
    ∃ u, Effect s u ∧ t = u.retire op 1 := by
  cases h
  exact ⟨_, .addHl .., rfl⟩

theorem accumulate_next {alu : Byte → Byte → AluResult 8} {x : Op8}
    (h : accumulate alu op x s = .next t) : ∃ u, Effect s u ∧ t = u.retire op 1 := by
  rcases accumulate_cases alu op x s with ⟨-, -, hf⟩ | ⟨b, u, -, rfl | ⟨-, rfl⟩, hn⟩
  · rw [hf] at h; cases h
  · rw [hn] at h; cases h; exact ⟨_, .alu _, rfl⟩
  · rw [hn] at h; cases h; exact ⟨_, .aluDrawn _, rfl⟩

theorem accumulateImm_next {alu : Byte → Byte → AluResult 8} {d8 : Byte}
    (h : accumulateImm alu op d8 s = .next t) : ∃ u, Effect s u ∧ t = u.retire op 2 := by
  cases h
  exact ⟨_, .alu _, rfl⟩

theorem execLdhStore_effect {a8 : Byte} (h : execLdhStore a8 s = .next t) :
    ∃ u, Effect s u ∧ t = u.retire 0xE0 2 := by
  obtain ⟨loc, -, hn⟩ := execLdhStore_next a8 s
  rw [hn] at h; cases h
  exact ⟨_, .store loc s.a, rfl⟩

theorem execLdhLoad_effect {a8 : Byte} (h : execLdhLoad a8 s = .next t) :
    ∃ u, Effect s u ∧ t = u.retire 0xF0 2 := by
  obtain ⟨loc, -, hn⟩ := execLdhLoad_next a8 s
  rw [hn] at h; cases h
  exact ⟨_, .load _, rfl⟩

theorem execCall_next {target : Word} (h : execCall target s = .next t) :
    ∃ w, push16 s (s.pc + 3) = .ok w ∧ t = (w.retire 0xCD 3).setPc target := by
  rcases execCall_cases target s with ⟨x, -, hf⟩ | ⟨w, hw, hn⟩
  · rw [hf] at h; cases h
  · rw [hn] at h; cases h; exact ⟨w, hw, rfl⟩

end

/-- Everything an instruction that completes can have done: an effect and then its retirement, with its
own opcode and length; a jump; or a push and a jump. -/
theorem exec_next {i : Instr} {s t : State} (h : exec i s = .next t) :
    ((∀ target, i ≠ .jp target ∧ i ≠ .call target) ∧
      ∃ u, Effect s u ∧ t = u.retire i.opcode i.length) ∨
    (∃ target, i = .jp target ∧ t = (s.retire 0xC3 3).setPc target) ∨
    (∃ target w, i = .call target ∧ push16 s (s.pc + 3) = .ok w ∧
      t = (w.retire 0xCD 3).setPc target) := by
  cases i with
  | nop => cases h; exact .inl ⟨by simp, s, .none, rfl⟩
  | ldBcD16 | ldDeD16 | ldHlD16 | ldSpD16 => exact .inl ⟨by simp, loadPair_next h⟩
  | addHlBc | addHlDe | addHlHl | addHlSp => exact .inl ⟨by simp, addHl_next h⟩
  | addAB | addAC | addAD | addAE | addAH | addAL | addAMem | addAA =>
    simp only [exec_addAB, exec_addAC, exec_addAD, exec_addAE, exec_addAH, exec_addAL, exec_addAMem,
      exec_addAA] at h
    exact .inl ⟨by simp, accumulate_next h⟩
  | subB | subC | subD | subE | subH | subL | subMem | subA =>
    simp only [exec_subB, exec_subC, exec_subD, exec_subE, exec_subH, exec_subL, exec_subMem,
      exec_subA] at h
    exact .inl ⟨by simp, accumulate_next h⟩
  | addAImm | subImm => exact .inl ⟨by simp, accumulateImm_next h⟩
  | jp target => cases h; exact .inr (.inl ⟨target, rfl, rfl⟩)
  | call target =>
    obtain ⟨w, hw, ht⟩ := execCall_next h
    exact .inr (.inr ⟨target, w, rfl, hw, ht⟩)
  | ldhStore => exact .inl ⟨by simp, execLdhStore_effect h⟩
  | ldhLoad => exact .inl ⟨by simp, execLdhLoad_effect h⟩

/-! ### The mapper registers (R32) -/

/-- A write that changes the mapper registers is a register write, and generation 0 has none. -/
theorem busWrite_mapper_ne {s t : State} {addr : Word} {v : Byte} (h : busWrite s addr v = .ok t)
    (hne : t.mapper ≠ s.mapper) : addr.toNat < 0x8000 ∧ s.mapper ≠ .gen0 := by
  rcases busWrite_cases s addr v with
    ⟨-, h'⟩ | ⟨hrom, h'⟩ | ⟨loc, -, h'⟩ | ⟨i, -, h'⟩ | ⟨-, h'⟩ <;> rw [h'] at h <;> cases h
  · exact ⟨hrom, fun hg => hne (by simp [hg, Mapper.write])⟩
  · exact absurd (State.writeCell_mapper ..) hne
  · exact absurd (State.writeCell_mapper ..) hne
  · exact absurd rfl hne

/-- A push changes the mapper registers by its low byte or, if that one did not, by its high byte. -/
theorem push16_mapper_ne {s t : State} {v : Word} (h : push16 s v = .ok t)
    (hne : t.mapper ≠ s.mapper) :
    s.mapper ≠ .gen0 ∧ ((s.sp - 2).toNat < 0x8000 ∨ (s.sp - 1).toNat < 0x8000) := by
  obtain ⟨u, hlow, hhigh⟩ := push16_ok h
  by_cases hu : u.mapper = s.mapper
  · rw [← hu] at hne
    obtain ⟨haddr, hgen⟩ := busWrite_mapper_ne hhigh hne
    exact ⟨hu ▸ hgen, .inr (push_addr s.sp ▸ haddr)⟩
  · obtain ⟨haddr, hgen⟩ := busWrite_mapper_ne hlow hu
    exact ⟨hgen, .inl haddr⟩

/-- Settles O32: only `writeMapper` touches the registers, and only CALL's push can reach it, since
every other instruction is an `Effect`. -/
theorem mapperChangesOnlyByRomWrites : Obligations.MapperChangesOnlyByRomWrites := by
  refine ⟨fun _ _ _ _ h hne => busWrite_mapper_ne h hne, fun i s t h hne => ?_⟩
  rcases exec_next h with ⟨-, u, hu, rfl⟩ | ⟨target, -, rfl⟩ | ⟨target, w, rfl, hw, rfl⟩
  · exact absurd hu.mapper_eq hne
  · exact absurd rfl hne
  · exact ⟨⟨target, rfl⟩, push16_mapper_ne hw hne⟩

/-! ### The flags (R26) -/

theorem push16_f {s t : State} {v : Word} (h : push16 s v = .ok t) : t.f = s.f := by
  obtain ⟨u, hlow, hhigh⟩ := push16_ok h
  rw [busWrite_keeps hhigh, busWrite_keeps hlow, State.setSp_f]

/-- An instruction leaves `F` alone or writes it whole by `WriteFlags`. -/
theorem exec_f_cases {i : Instr} {s t : State} (h : exec i s = .next t) :
    t.f = s.f ∨ ∃ z n h c, t.f = packFlags z n h c := by
  rcases exec_next h with ⟨-, u, hu, rfl⟩ | ⟨target, -, rfl⟩ | ⟨target, w, -, hw, rfl⟩
  · exact hu.f_cases
  · exact .inl rfl
  · exact .inl (by simpa using push16_f hw)

/-- The value of a flag is the binary digit of `F` at its place. -/
theorem State.toNat_flag (s : State) (x : Flag) : (s.flag x).toNat = s.f.toNat / 2 ^ x.bit % 2 := by
  rw [State.flag, ← BitVec.testBit_toNat, Nat.toNat_testBit]

/-- Settles O59: `F` is the sum of its binary digits; a step reads `F` unchanged into `exec`, which
keeps it or writes a `packFlags`, whose low nibble is zero. -/
theorem flagsLowNibbleStaysZero : Obligations.FlagsLowNibbleStaysZero := by
  refine ⟨fun s hs => ?_, by decide, fun s t hs h => ?_⟩
  · have hlt := s.f.isLt
    simp only [State.toNat_flag, Flag.bit]
    omega
  · rcases step_cases s with ⟨x, -, hf⟩ | ⟨i, s', -, -, hs', hn⟩
    · rw [hf] at h; cases h
    · have hf : s'.f = s.f := by rw [hs']
      rcases exec_f_cases (hn ▸ h) with ht | ⟨z, n, y, c, ht⟩
      · rw [ht, hf]; exact hs
      · rw [ht, toNat_packFlags]; omega

/-! ### The program counter (R23, R24) -/

/-- `Fetch16()` reads two bytes and advances `PC` by two (R131). -/
theorem fetch16_ok {s t : State} {w : Word} (h : fetch16 s = .ok (w, t)) :
    ∃ u, memRead16 s s.pc = .ok (w, u) ∧ t = u.setPc (s.pc + 2) := by
  unfold fetch16 at h
  split at h
  · cases h
  · next w' u hr => cases h; exact ⟨u, hr, rfl⟩

/-- Settles O60: the fetches end in `setPc`, an `Effect` keeps `PC` so that `retire` adds the length to
the old one, and JP and CALL end in `setPc target`. -/
theorem programCounterLaw : Obligations.ProgramCounterLaw := by
  refine ⟨fun s t b h => ?_, fun s t w h => ?_, fun i s t h => ?_⟩
  · obtain ⟨u, -, rfl⟩ := fetch8_ok h
    rfl
  · obtain ⟨u, -, rfl⟩ := fetch16_ok h
    rfl
  · rcases exec_next h with ⟨hi, u, hu, rfl⟩ | ⟨target, rfl, rfl⟩ | ⟨target, w, rfl, -, rfl⟩
    · split
      · next target => exact absurd rfl (hi target).1
      · next target => exact absurd rfl (hi target).2
      · rw [State.retire_pc, hu.pc_eq]
    · rfl
    · rfl

end Sys2Proof.Machine

/-! ## The bus, range by range: ROM, the echo of work RAM, the unused range -/

namespace Sys2Proof.Machine

/-! ### One rule per kind of access: what a read gives and what a write does -/

section
variable {s : State} {addr : Word}

theorem busRead_of_rom {phys : Nat} (h : s.access addr = .rom phys) :
    busRead s addr = .ok (s.cart.rom.read phys, s) := by
  simp only [busRead, busPeek, h]

theorem busWrite_of_rom {phys : Nat} (h : s.access addr = .rom phys) (v : Byte) :
    busWrite s addr v = .ok (s.writeMapper addr v) := by
  simp only [busWrite, h]

theorem busRead_of_cell {loc : Loc} (h : s.access addr = .cell loc) :
    busRead s addr = .ok (s.readCell loc, s) := by
  simp only [busRead, busPeek, h]

theorem busWrite_of_cell {loc : Loc} (h : s.access addr = .cell loc) (v : Byte) :
    busWrite s addr v = .ok (s.writeCell loc v) := by
  simp only [busWrite, h]

theorem busRead_of_fixed {w : Byte} (h : s.access addr = .fixed w) :
    busRead s addr = .ok (w, s) := by
  simp only [busRead, busPeek, h]

theorem busWrite_of_fixed {w : Byte} (h : s.access addr = .fixed w) (v : Byte) :
    busWrite s addr v = .ok s := by
  simp only [busWrite, h]

/-- Every address of a cell reads the byte that was written to the cell. -/
theorem busRead_writeCell {loc : Loc} (h : s.access addr = .cell loc) (v : Byte) :
    busRead (s.writeCell loc v) addr = .ok (v, s.writeCell loc v) := by
  rw [busRead_of_cell ((s.writeCell_access loc v addr).trans h), State.readCell_writeCell_same]

end

/-! ### The unused range (R64) -/

/-- Settles O42: the range decodes to the fixed byte 0x00. -/
theorem unusedRangeIsTolerated : Obligations.UnusedRangeIsTolerated := by
  intro s addr v hlo hhi
  have hfix := s.access_unused hlo hhi
  exact ⟨busRead_of_fixed hfix, busWrite_of_fixed hfix v⟩

/-! ### ROM (R58) -/

/-- Every ROM size of R84 has at least the two banks that the two windows show. -/
theorem two_le_romBanks {c : Cart} (h : c.romSizeWf) : 2 ≤ c.romSize / 0x4000 := by
  obtain ⟨code, -, hsize⟩ := h
  have hpos : 0 < 2 ^ code := Nat.two_pow_pos code
  rw [hsize, Nat.shiftLeft_eq]
  omega

/-- Without a mapper the image is seen unbanked. -/
theorem romPhys_gen0 {c : Cart} (h : c.romSizeWf) (n : Nat) : romPhys c .gen0 n = n := by
  have hbanks := two_le_romBanks h
  have hlo : Mapper.loBank .gen0 % (c.romSize / 0x4000) = 0 := Nat.zero_mod _
  have hhi : Mapper.hiBank .gen0 % (c.romSize / 0x4000) = 1 := Nat.mod_eq_of_lt hbanks
  unfold romPhys
  simp only [hlo, hhi]
  split <;> omega

/-- Generation 0 has no register to write (R58). -/
theorem State.writeMapper_gen0 {s : State} (h : s.mapper = .gen0) (addr : Word) (v : Byte) :
    s.writeMapper addr v = s := by
  simp only [State.writeMapper, h, Mapper.write]
  rw [← h]

/-- Settles O41: below 0x8000 the access is the ROM image, whose write is `writeMapper`; that is no
change in generation 0, and no write reaches the cartridge. -/
theorem romReadsAndWrites : Obligations.RomReadsAndWrites := by
  intro s addr v hwf hrom
  obtain ⟨hsize, -⟩ := hwf
  have hacc := s.access_rom hrom
  have hwrite := busWrite_of_rom hacc v
  refine ⟨busRead_of_rom hacc, fun hgen => ⟨?_, ?_⟩, hwrite, fun addr' t ht => ?_⟩
  · rw [hgen, romPhys_gen0 hsize]
  · rw [hwrite, State.writeMapper_gen0 hgen]
  · rw [busWrite_keeps ht]

/-! ### Work RAM and its echo (R62) -/

/-- The address that an echo address mirrors. -/
theorem toNat_sub_echo {addr : Word} (h : 0xE000 ≤ addr.toNat) :
    (addr - 0x2000).toNat = addr.toNat - 0x2000 :=
  BitVec.toNat_sub_of_le (BitVec.le_def.2 (show 0x2000 ≤ addr.toNat by omega))

/-- An echo address and the address 0x2000 below it reach one work-RAM cell. -/
theorem State.access_sub_echo (s : State) {addr : Word} (hlo : 0xE000 ≤ addr.toNat)
    (hhi : addr.toNat < 0xFE00) :
    s.access (addr - 0x2000) = .cell (.wram (addr.toNat - 0xE000)) := by
  have hsub := toNat_sub_echo hlo
  rw [s.access_wram (by omega) (by omega), hsub, Nat.sub_sub]

theorem ExtCell.access_ne_wram (x : ExtCell) (off : Nat) : x.access ≠ .cell (.wram off) := by
  cases x <;> simp [ExtCell.access]

/-- A work-RAM cell is reached from its own address and, where its offset is below 0x1E00, from its
echo, and from nowhere else. -/
theorem State.access_eq_wram {s : State} {addr : Word} {off : Nat}
    (h : s.access addr = .cell (.wram off)) :
    addr.toNat = 0xC000 + off ∨ addr.toNat = 0xE000 + off ∧ off < 0x1E00 := by
  by_cases hrom : addr.toNat < 0x8000
  · rw [s.access_rom hrom] at h; cases h
  by_cases hvideo : addr.toNat < 0xA000
  · rw [s.access_video ⟨by omega, hvideo⟩] at h; cases h
  by_cases hext : addr.toNat < 0xC000
  · rw [s.access_ext (by omega) hext] at h
    exact absurd h (ExtCell.access_ne_wram _ off)
  by_cases hwram : addr.toNat < 0xE000
  · rw [s.access_wram (by omega) hwram, Access.cell.injEq, Loc.wram.injEq] at h; omega
  by_cases hecho : addr.toNat < 0xFE00
  · rw [s.access_echo (by omega) hecho, Access.cell.injEq, Loc.wram.injEq] at h; omega
  by_cases hoam : addr.toNat < 0xFEA0
  · rw [s.access_oam (by omega) hoam] at h; cases h
  by_cases hunused : addr.toNat < 0xFF00
  · rw [s.access_unused (by omega) hunused] at h; cases h
  · obtain ⟨loc, hloc, ⟨rfl, -⟩ | ⟨rfl, -⟩ | ⟨rfl, -⟩⟩ := access_high s (addr := addr) (by omega) <;>
      rw [hloc] at h <;> cases h

/-- Settles O40: both addresses reach one cell of work RAM; the echo ends at offset 0x1E00, so a cell
above that has one address. -/
theorem echoAliasesWorkRam : Obligations.EchoAliasesWorkRam := by
  intro s addr v
  refine ⟨fun hlo hhi => ?_, fun hlo hhi addr' heq => ?_⟩
  · have hecho := s.access_echo hlo hhi
    have hwram := s.access_sub_echo hlo hhi
    have hread : busRead s addr = busRead s (addr - 0x2000) := by
      rw [busRead_of_cell hecho, busRead_of_cell hwram]
    have hwrite : busWrite s addr v = busWrite s (addr - 0x2000) v := by
      rw [busWrite_of_cell hecho, busWrite_of_cell hwram]
    exact ⟨hread, hwrite, _, busWrite_of_cell hecho v, busRead_writeCell hecho v,
      busRead_writeCell hwram v⟩
  · rw [s.access_wram (by omega) hhi] at heq
    apply BitVec.eq_of_toNat_eq
    rcases State.access_eq_wram heq with haddr | ⟨-, hoff⟩ <;> omega

end Sys2Proof.Machine

/-! ## The 8-bit add and the write of the flags (R160, R163) -/

namespace Sys2Proof.Machine

/-- The low nibble of a byte as a number. -/
theorem toNat_lowNibble (b : Byte) : (b.extractLsb' 0 4).toNat = b.toNat % 16 := by
  rw [BitVec.extractLsb'_toNat, Nat.shiftRight_zero]

/-- Settles O54: a sum of bytes is the sum of the numbers modulo 256, so it is zero exactly when that
remainder is; `H` and `C` compare the sums of the low nibbles and of the bytes as numbers. -/
theorem alu8AddRule : Obligations.Alu8AddRule := by
  intro a b
  have hsum : (a + b).toNat = (a.toNat + b.toNat) % 256 := BitVec.toNat_add a b
  refine ⟨hsum, ?_, rfl, ?_, decide_eq_true_iff⟩
  · calc (a + b == 0) = true ↔ a + b = 0 := beq_iff_eq
      _ ↔ (a + b).toNat = 0 := BitVec.toNat_inj.symm
      _ ↔ (a.toNat + b.toNat) % 256 = 0 := by rw [hsum]
  · rw [← toNat_lowNibble a, ← toNat_lowNibble b]
    exact decide_eq_true_iff

/-- A bit is given by its number. -/
theorem bool_eq_of_toNat_eq {x y : Bool} (h : x.toNat = y.toNat) : x = y := by
  rw [Bool.eq_iff_iff, ← Bool.toNat_eq_one, ← Bool.toNat_eq_one, h]

/-- The value that `WriteFlags(Z, N, H, C)` gives a flag (R163; tied to it by
`State.writeFlags_flag`). -/
def Flag.among (z n h c : Bool) : Flag → Bool
  | .z => z
  | .n => n
  | .h => h
  | .c => c

/-- Each flag reads as it was written: it is the binary digit at its place in the packed sum. -/
@[simp] theorem State.writeFlags_flag (s : State) (z n h c : Bool) (x : Flag) :
    (s.writeFlags z n h c).flag x = x.among z n h c := by
  have hz := z.toNat_lt
  have hn := n.toNat_lt
  have hh := h.toNat_lt
  have hc := c.toNat_lt
  apply bool_eq_of_toNat_eq
  rw [State.toNat_flag, State.writeFlags_f, toNat_packFlags]
  cases x <;> simp only [Flag.bit, Flag.among] <;> omega

/-- Settles O55: `F` is the packed flags, whose value is `toNat_packFlags`, and each flag reads as
written. -/
theorem writeFlagsRule : Obligations.WriteFlagsRule := by
  intro s z n h c
  have hflag := s.writeFlags_flag z n h c
  exact ⟨toNat_packFlags z n h c, hflag .z, hflag .n, hflag .h, hflag .c, rfl⟩

end Sys2Proof.Machine

/-! ## Decoder and encoder are inverse (R121, R123, R126, R127) -/

namespace Sys2Proof

/-! ### The decoder, one rule per format -/

/-- The immediate is assembled from the bytes it is cut into, in either order (R123). -/
theorem imm16Bytes_eq_pair (o : Imm16Order) (v : Word) :
    ∃ b1 b2, imm16Bytes o v = [b1, b2] ∧ imm16 o b1 b2 = v := by
  cases o with
  | little => exact ⟨v.low, v.high, rfl, v.ofBytes_high_low⟩
  | big => exact ⟨v.high, v.low, rfl, v.ofBytes_high_low⟩

/-- Two bytes are those of the immediate they assemble to (R123). -/
theorem imm16Bytes_imm16 (o : Imm16Order) (b1 b2 : Byte) :
    imm16Bytes o (imm16 o b1 b2) = [b1, b2] := by
  cases o <;> simp [imm16Bytes, imm16]

section
variable {op : Byte}

theorem decode_cons {row : OpRow} (h : opRow op = some row) (o : Imm16Order) (bs : List Byte) :
    decode o (op :: bs) = decodeOperand o op row bs := by
  simp only [decode, h]

theorem decode_of_op {i : Instr} (h : opRow op = some (.op i)) (o : Imm16Order) (rest : List Byte) :
    decode o (op :: rest) = .ok (i, rest) := by
  rw [decode_cons h, decodeOperand]

theorem decode_of_d8 {k : Byte → Instr} (h : opRow op = some (.d8 k)) (o : Imm16Order) (d : Byte)
    (rest : List Byte) : decode o (op :: d :: rest) = .ok (k d, rest) := by
  rw [decode_cons h, decodeOperand]

theorem decode_of_ld16 {k : Word → Instr} (h : opRow op = some (.ld16 k)) (o : Imm16Order) (v : Word)
    (rest : List Byte) : decode o (op :: imm16Bytes o v ++ rest) = .ok (k v, rest) := by
  obtain ⟨b1, b2, hbytes, himm⟩ := imm16Bytes_eq_pair o v
  rw [hbytes, ← himm]
  exact decode_cons h o _

theorem decode_of_d16 {k : Word → Instr} (h : opRow op = some (.d16 k)) (o : Imm16Order) (v : Word)
    (rest : List Byte) : decode o (op :: imm16Bytes .little v ++ rest) = .ok (k v, rest) := by
  obtain ⟨b1, b2, hbytes, himm⟩ := imm16Bytes_eq_pair .little v
  rw [hbytes, ← himm]
  exact decode_cons h o _

end

/-- Settles O2: each instruction has the format of its opcode's row. -/
theorem decodeOfEncode : Obligations.DecodeOfEncode := by
  intro o i rest _
  cases i with
  | nop | addHlBc | addHlDe | addHlHl | addHlSp => exact decode_of_op rfl o rest
  | addAB | addAC | addAD | addAE | addAH | addAL | addAMem | addAA => exact decode_of_op rfl o rest
  | subB | subC | subD | subE | subH | subL | subMem | subA => exact decode_of_op rfl o rest
  | addAImm d | subImm d | ldhStore d | ldhLoad d => exact decode_of_d8 rfl o d rest
  | ldBcD16 v | ldDeD16 v | ldHlD16 v | ldSpD16 v => exact decode_of_ld16 rfl o v rest
  | jp v | call v => exact decode_of_d16 rfl o v rest

/-- Settles O1: each string is the encoding of its instruction, followed by what is left. -/
theorem decodeKnownWords : Obligations.DecodeKnownWords :=
  ⟨decodeOfEncode .little .nop [] rfl, decodeOfEncode .little (.ldBcD16 0x1234) [] rfl,
    decodeOfEncode .big (.ldBcD16 0x3412) [] rfl, decodeOfEncode .little (.ldSpD16 0xFFFE) [0x00] rfl,
    decodeOfEncode .little .addHlHl [] rfl, decodeOfEncode .little .addAMem [] rfl,
    decodeOfEncode .little (.addAImm 0xFF) [] rfl, decodeOfEncode .little .subA [] rfl,
    decodeOfEncode .little (.subImm 0x0F) [] rfl, decodeOfEncode .big (.jp 0x0150) [] rfl,
    decodeOfEncode .little (.call 0x0110) [] rfl, decodeOfEncode .little (.ldhStore 0x81) [] rfl,
    decodeOfEncode .little (.ldhLoad 0x80) [] rfl⟩

/-! ### What the bytes of an instruction are -/

/-- The facts of `Laws.Coding` for any instruction. -/
theorem coding (i : Instr) : Laws.Coding.Statement i := by
  open Laws.Coding in
  cases i with
  | nop => exact nop
  | ldBcD16 v => exact ldBcD16 v
  | ldDeD16 v => exact ldDeD16 v
  | ldHlD16 v => exact ldHlD16 v
  | ldSpD16 v => exact ldSpD16 v
  | addHlBc => exact addHlBc
  | addHlDe => exact addHlDe
  | addHlHl => exact addHlHl
  | addHlSp => exact addHlSp
  | addAB => exact addAB
  | addAC => exact addAC
  | addAD => exact addAD
  | addAE => exact addAE
  | addAH => exact addAH
  | addAL => exact addAL
  | addAMem => exact addAMem
  | addAA => exact addAA
  | addAImm d => exact addAImm d
  | subB => exact subB
  | subC => exact subC
  | subD => exact subD
  | subE => exact subE
  | subH => exact subH
  | subL => exact subL
  | subMem => exact subMem
  | subA => exact subA
  | subImm d => exact subImm d
  | jp v => exact jp v
  | call v => exact call v
  | ldhStore d => exact ldhStore d
  | ldhLoad d => exact ldhLoad d

theorem Instr.wf_eq_true (i : Instr) : i.wf = true := (coding i).1

theorem Instr.opcode_mem_admitted (i : Instr) : i.opcode ∈ admittedOpcodes := (coding i).2.1

/-- The operand bytes of a row's format are those of the instruction they decode to (R121). -/
theorem decodeOperand_ok {o : Imm16Order} {op : Byte} {row : OpRow} {bs rest : List Byte} {i : Instr}
    (henc : row.EncodesAs op) (h : decodeOperand o op row bs = .ok (i, rest)) :
    op :: bs = encode o i ++ rest := by
  unfold decodeOperand at h
  split at h <;> cases h
  · rw [henc]; rfl
  · rw [henc]; rfl
  · rw [henc, imm16Bytes_imm16]; rfl
  · rw [henc, imm16Bytes_imm16]; rfl

/-- Settles O3: the opcode's row fixes the operand bytes of what is decoded. -/
theorem encodeOfDecode : Obligations.EncodeOfDecode := by
  intro o bs rest i h
  refine ⟨?_, i.wf_eq_true⟩
  cases bs with
  | nil => cases h
  | cons op bs =>
    cases hrow : opRow op with
    | none => simp [decode, hrow] at h
    | some row => exact decodeOperand_ok (opRow_encodesAs hrow) (decode_cons hrow o bs ▸ h)

/-! ### The admitted opcodes -/

/-- A row of the opcode map is that of an instruction. -/
theorem exists_opcode_eq {op : Byte} {row : OpRow} (h : opRow op = some row) :
    ∃ i : Instr, i.opcode = op := by
  have henc := opRow_encodesAs h
  cases row with
  | op i => exact ⟨i, by simp [Instr.opcode, henc .little]⟩
  | d8 k => exact ⟨k 0, by simp [Instr.opcode, henc .little]⟩
  | ld16 k | d16 k => exact ⟨k 0, by simp [Instr.opcode, henc .little]⟩

/-- The opcode map and the list of admitted opcodes agree: the map has rows of instructions only, and
every byte of the list has a row. -/
theorem opRow_eq_none_iff (op : Byte) : opRow op = none ↔ op ∉ admittedOpcodes := by
  have hlist : ∀ op ∈ admittedOpcodes, (opRow op).isSome = true := by decide
  constructor
  · intro hnone hmem
    simpa [hnone] using hlist op hmem
  · intro hmem
    cases hrow : opRow op with
    | none => rfl
    | some row =>
      obtain ⟨i, rfl⟩ := exists_opcode_eq hrow
      exact absurd i.opcode_mem_admitted hmem

/-- Operand bytes are never what makes an opcode unsupported. -/
theorem decodeOperand_ne_unsupported (o : Imm16Order) (op op' : Byte) (row : OpRow) (bs : List Byte) :
    decodeOperand o op row bs ≠ .error (.unsupportedOpcode op') := by
  unfold decodeOperand
  split <;> simp

/-- Settles O4: the decoder rejects by name exactly the bytes without a row. -/
theorem onlyAdmittedOpcodesDecode : Obligations.OnlyAdmittedOpcodesDecode := by
  refine ⟨rfl, by decide, Instr.opcode_mem_admitted, fun o op rest => ?_⟩
  rw [← opRow_eq_none_iff]
  cases hrow : opRow op with
  | none => simp [decode, hrow]
  | some row =>
    rw [decode_cons hrow]
    simp [decodeOperand_ne_unsupported o op op row rest]

/-! ### The length of a row's format (R121) -/

/-- The number of operand bytes of a row's format (R121). -/
def OpRow.size : OpRow → Nat
  | .op _ => 0
  | .d8 _ => 1
  | .ld16 _ => 2
  | .d16 _ => 2

/-- A completed decoding took all operand bytes of the row. -/
theorem decodeOperand_length {o : Imm16Order} {op : Byte} {row : OpRow} {bs : List Byte}
    {i : Instr} (h : decodeOperand o op row bs = .ok (i, [])) : bs.length = row.size := by
  unfold decodeOperand at h
  split at h <;> cases h <;> rfl

/-- The row of an instruction's opcode has the instruction's length (R121). -/
theorem length_eq_of_opRow {i : Instr} {row : OpRow} (h : opRow i.opcode = some row) :
    i.length = row.size + 1 := by
  obtain ⟨-, -, -, -, -, hbytes⟩ := coding i
  obtain ⟨hhead, hlen⟩ := hbytes .little
  have hdec := decodeOfEncode .little i [] i.wf_eq_true
  rw [List.append_nil] at hdec
  cases henc : encode .little i with
  | nil => rw [henc] at hhead; cases hhead
  | cons op operands =>
    rw [henc] at hhead hdec hlen
    cases hhead
    rw [decode_cons h] at hdec
    rw [← hlen, List.length_cons, decodeOperand_length hdec]

end Sys2Proof

/-! ## The address decoder and the bus (R51 to R70), the pairs and single flags (R21, R27) -/

namespace Sys2Proof.Machine

/-! ### What an address reaches -/

/-- The address decoder as one case split: each of the ten ranges with what it reaches (R51). -/
theorem State.access_regions (s : State) (addr : Word) :
    (addr.toNat < 0x8000 ∧ s.access addr = .rom (romPhys s.cart s.mapper addr.toNat)) ∨
    (InVideo addr ∧ s.access addr = .video) ∨
    ((0xA000 ≤ addr.toNat ∧ addr.toNat < 0xC000) ∧
      s.access addr = (extCell s.cart s.mapper (addr.toNat - 0xA000)).access) ∨
    ((0xC000 ≤ addr.toNat ∧ addr.toNat < 0xE000) ∧
      s.access addr = .cell (.wram (addr.toNat - 0xC000))) ∨
    ((0xE000 ≤ addr.toNat ∧ addr.toNat < 0xFE00) ∧
      s.access addr = .cell (.wram (addr.toNat - 0xE000))) ∨
    ((0xFE00 ≤ addr.toNat ∧ addr.toNat < 0xFEA0) ∧
      s.access addr = .cell (.oam (addr.toNat - 0xFE00))) ∨
    ((0xFEA0 ≤ addr.toNat ∧ addr.toNat < 0xFF00) ∧ s.access addr = .fixed 0x00) ∨
    ((0xFF00 ≤ addr.toNat ∧ addr.toNat < 0xFF80) ∧
      s.access addr = .cell (.io (addr.toNat - 0xFF00))) ∨
    ((0xFF80 ≤ addr.toNat ∧ addr.toNat < 0xFFFF) ∧
      s.access addr = .cell (.hram (addr.toNat - 0xFF80))) ∨
    (addr.toNat = 0xFFFF ∧ s.access addr = .cell .ie) := by
  have hlt := addr.isLt
  by_cases hrom : addr.toNat < 0x8000
  · exact .inl ⟨hrom, s.access_rom hrom⟩
  refine .inr ?_
  by_cases hvideo : addr.toNat < 0xA000
  · exact .inl ⟨⟨by omega, hvideo⟩, s.access_video ⟨by omega, hvideo⟩⟩
  refine .inr ?_
  by_cases hext : addr.toNat < 0xC000
  · exact .inl ⟨⟨by omega, hext⟩, s.access_ext (by omega) hext⟩
  refine .inr ?_
  by_cases hwram : addr.toNat < 0xE000
  · exact .inl ⟨⟨by omega, hwram⟩, s.access_wram (by omega) hwram⟩
  refine .inr ?_
  by_cases hecho : addr.toNat < 0xFE00
  · exact .inl ⟨⟨by omega, hecho⟩, s.access_echo (by omega) hecho⟩
  refine .inr ?_
  by_cases hoam : addr.toNat < 0xFEA0
  · exact .inl ⟨⟨by omega, hoam⟩, s.access_oam (by omega) hoam⟩
  refine .inr ?_
  by_cases hunused : addr.toNat < 0xFF00
  · exact .inl ⟨⟨by omega, hunused⟩, s.access_unused (by omega) hunused⟩
  refine .inr ?_
  by_cases hio : addr.toNat < 0xFF80
  · exact .inl ⟨⟨by omega, hio⟩, s.access_io (by omega) hio⟩
  refine .inr ?_
  by_cases hhram : addr.toNat < 0xFFFF
  · exact .inl ⟨⟨by omega, hhram⟩, s.access_hram (by omega) hhram⟩
  · exact .inr ⟨by omega, s.access_ie (by omega)⟩

/-- Settles O36: the ranges of the decoder, with the four things the external-RAM window can show. -/
theorem everyAddressHasItsRegion : Obligations.EveryAddressHasItsRegion := by
  intro s addr
  refine ⟨fun h => ⟨_, s.access_rom h⟩, s.access_video, fun hlo hhi => ?_, s.access_wram,
    s.access_echo, s.access_oam, s.access_unused, s.access_io, s.access_hram,
    fun h => s.access_ie (Nat.le_of_eq h.symm)⟩
  rw [s.access_ext hlo hhi]
  refine ⟨fun hgen => by rw [hgen]; rfl, ?_⟩
  cases extCell s.cart s.mapper (addr.toNat - 0xA000) with
  | byte off => exact .inl ⟨off, rfl⟩
  | nibble i => exact .inr (.inl ⟨i, rfl⟩)
  | timer => exact .inr (.inr (.inl rfl))
  | absent => exact .inr (.inr (.inr rfl))

/-! ### Reads (R52, R59, R102) -/

/-- A timer register lies behind the window of generation 3 only (R102). -/
theorem extCell_timer {c : Cart} {m : Mapper} {off : Nat} (h : extCell c m off = .timer) :
    m.gen = .g3 := by
  cases m with
  | gen3 => rfl
  | gen0 => cases h
  | gen1 | gen2 | gen5 => simp only [extCell] at h; split at h <;> cases h

theorem State.access_timer {s : State} {addr : Word} (h : s.access addr = .timer) :
    s.mapper.gen = .g3 ∧ 0xA000 ≤ addr.toNat ∧ addr.toNat < 0xC000 := by
  rcases s.access_regions addr with ⟨-, h'⟩ | ⟨-, h'⟩ | ⟨hext, h'⟩ | ⟨-, h'⟩ | ⟨-, h'⟩ | ⟨-, h'⟩ |
    ⟨-, h'⟩ | ⟨-, h'⟩ | ⟨-, h'⟩ | ⟨-, h'⟩ <;> rw [h'] at h
  case inr.inr.inl =>
    cases hcell : extCell s.cart s.mapper (addr.toNat - 0xA000) with
    | timer => exact ⟨extCell_timer hcell, hext⟩
    | byte | nibble | absent => rw [hcell] at h; cases h
  all_goals cases h

/-- Only a timer register has no byte to give. -/
theorem busPeek_none {s : State} {addr : Word} (h : busPeek s addr = .ok none) :
    s.access addr = .timer := by
  unfold busPeek at h
  split at h
  case h_4 htimer => exact htimer
  all_goals cases h

/-- Settles O38: of the three things a read can do two complete, and the draw is behind the window of
generation 3. -/
theorem readsChangeNothing : Obligations.ReadsChangeNothing := by
  intro s t addr v h
  rcases busRead_cases s addr with ⟨-, h'⟩ | ⟨w, hpeek, h'⟩ | ⟨hpeek, h'⟩ <;> rw [h'] at h <;> cases h
  · exact .inl ⟨hpeek, rfl⟩
  · exact .inr ⟨hpeek, rfl, rfl, State.access_timer (busPeek_none hpeek)⟩

/-- A fetch from the video range faults before there is an opcode (R226). -/
theorem step_fetch_video {s : State} (hf : s.fault = none) (h : InVideo s.pc) :
    step s = .fault (.videoAccess s.pc .read) := by
  simp only [step, fetchInstr, hf, fetch8, busRead_video h]

/-- Settles O37: the bus faults in the video range and completes elsewhere; a fetch is a read. -/
theorem videoRangeFaults : Obligations.VideoRangeFaults := fun s _ v =>
  ⟨fun h => ⟨busRead_video h, busWrite_video h⟩, fun h hf => step_fetch_video hf h,
    fun h => ⟨busRead_completes s h, busWrite_completes s v h⟩⟩

/-! ### Plain storage (R60 to R67, R71) -/

theorem busPeek_of_cell {s : State} {addr : Word} {loc : Loc} (h : s.access addr = .cell loc) :
    busPeek s addr = .ok (some (s.readCell loc)) := by
  simp only [busPeek, h]

/-- A plain cell and a 4-bit cell are never the same byte of `ERAM`: only generation 2 has 4-bit cells,
and it has no plain ones. -/
theorem State.nibble_ne_cell {s : State} {addr addr' : Word} {loc : Loc} {i : Nat}
    (hcell : s.access addr = .cell loc) (hnib : s.access addr' = .nibble i) : Loc.eram i ≠ loc := by
  rintro rfl
  exact (State.access_cell_inside hcell).2 ⟨i, rfl⟩ (State.access_nibble_inside hnib).2

/-- After a write to a cell that an address reaches, its addresses read the byte, all others what they
read before. -/
theorem busPeek_writeCell {s : State} {addr : Word} {loc : Loc} (h : s.access addr = .cell loc)
    (v : Byte) (addr' : Word) :
    busPeek (s.writeCell loc v) addr' =
      if s.access addr' = .cell loc then .ok (some v) else busPeek s addr' := by
  split
  · next heq =>
    rw [busPeek_of_cell ((s.writeCell_access loc v addr').trans heq), State.readCell_writeCell_same]
  · next hne =>
    unfold busPeek
    rw [State.writeCell_access]
    cases hacc : s.access addr' with
    | cell loc' =>
      have hloc : loc' ≠ loc := fun e => hne (e ▸ hacc)
      simp only [State.readCell_writeCell_other s v hloc]
    | nibble i => simp only [State.readCell_writeCell_other s v (State.nibble_ne_cell h hacc)]
    | rom | timer | fixed | video => simp only [State.writeCell_cart]

/-- Settles O39: the write is the write of the cell. -/
theorem plainStorageReadsBack : Obligations.PlainStorageReadsBack := fun _ _ _ v h =>
  ⟨_, busWrite_of_cell h v, busPeek_writeCell h v⟩

/-! ### One flag at a time (R27) -/

/-- The bit that is one flag. -/
theorem getLsbD_flagBit (x : Flag) (k : Nat) :
    (1#8 <<< x.bit).getLsbD k = decide (x.bit = k) := by
  have hbit : x.bit < 8 := by cases x <;> decide
  have h := BitVec.getLsbD_twoPow (w := 8) x.bit k
  rw [BitVec.twoPow] at h
  simp [h, hbit]

/-- A flag set or cleared is that bit alone. -/
theorem getLsbD_setFlag (f : Byte) (x : Flag) (v : Bool) {k : Nat} (hk : k < 8) :
    (setFlag f x v).getLsbD k = if k = x.bit then v else f.getLsbD k := by
  unfold setFlag
  cases v with
  | true =>
    rw [if_pos rfl, BitVec.getLsbD_or, getLsbD_flagBit]
    by_cases hx : k = x.bit
    · simp [hx]
    · simp [hx, Ne.symm hx]
  | false =>
    rw [if_neg Bool.false_ne_true, BitVec.getLsbD_and, BitVec.getLsbD_not, getLsbD_flagBit]
    by_cases hx : k = x.bit
    · simp [hx]
    · simp [hx, Ne.symm hx, hk]

/-- Settles O56: the masks of R27, and no bus transaction touches a register. -/
theorem oneFlagAtATime : Obligations.OneFlagAtATime := by
  refine ⟨fun f x v k hk => getLsbD_setFlag f x v hk, fun s t addr v h => ?_, fun s t addr v h => ?_⟩
  · obtain ⟨n, p, rfl⟩ := busRead_same h
    rfl
  · rw [busWrite_keeps h]

/-! ### The pairs (R21) -/

/-- A pair written is read back. -/
@[simp] theorem State.readOp16_writeOp16_same (s : State) (p : Op16) (v : Word) :
    (s.writeOp16 p v).readOp16 p = v := by
  cases p with
  | bc | de | hl => exact v.ofBytes_high_low
  | sp => rfl

/-- The pairs share no byte. -/
theorem State.readOp16_writeOp16_other (s : State) {p q : Op16} (v : Word) (h : q ≠ p) :
    (s.writeOp16 p v).readOp16 q = s.readOp16 q := by
  cases p <;> cases q <;> try rfl
  all_goals exact absurd rfl h

/-- Settles O57: a pair is `Word.ofBytes` of its registers, and a pair write its two halves. -/
theorem pairIsItsTwoBytes : Obligations.PairIsItsTwoBytes := fun s v =>
  ⟨Word.toNat_ofBytes _ _, Word.toNat_ofBytes _ _, Word.toNat_ofBytes _ _, Word.toNat_ofBytes _ _,
    fun p => ⟨s.readOp16_writeOp16_same p v, fun _ => s.readOp16_writeOp16_other v⟩,
    v.toNat_high, v.toNat_low, v.toNat_high, v.toNat_low, v.toNat_high, v.toNat_low⟩

end Sys2Proof.Machine

/-! ## What an instruction leaves alone, and the machine invariant (R22, R26, R31, R220) -/

namespace Sys2Proof.Machine

/-! ### The meaning of each instruction is one of nine operations -/

/-- The registers that make up a pair (R21). -/
def Op16.regs : Op16 → List Reg
  | .bc => [.b, .c]
  | .de => [.d, .e]
  | .hl => [.h, .l]
  | .sp => [.sp]

/-- The operation of the model that an instruction is, with its "written by" column (R22). Every
instruction has one (`meaning`), so a fact about `exec` needs one proof per operation. -/
inductive Meaning : Instr → Prop
  | nop : Meaning .nop
  | jp (target : Word) : Meaning (.jp target)
  | call (target : Word) : Meaning (.call target)
  | ldhStore (a8 : Byte) : Meaning (.ldhStore a8)
  | ldhLoad (a8 : Byte) : Meaning (.ldhLoad a8)
  | loadPair {i : Instr} (op : Byte) (p : Op16) (v : Word)
      (exec_eq : ∀ s, exec i s = loadPair op p v s) (regs_eq : writtenRegs i = p.regs) : Meaning i
  | addHl {i : Instr} (op : Byte) (p : Op16)
      (exec_eq : ∀ s, exec i s = addHl op p s) (regs_eq : writtenRegs i = [.h, .l, .f]) : Meaning i
  | accumulate {i : Instr} (alu : Byte → Byte → AluResult 8) (op : Byte) (x : Op8)
      (exec_eq : ∀ s, exec i s = accumulate alu op x s) (regs_eq : writtenRegs i = [.a, .f])
      (mem_form : x = .mem → i = .addAMem ∨ i = .subMem) : Meaning i
  | accumulateImm {i : Instr} (alu : Byte → Byte → AluResult 8) (op d8 : Byte)
      (exec_eq : ∀ s, exec i s = accumulateImm alu op d8 s) (regs_eq : writtenRegs i = [.a, .f]) :
      Meaning i

theorem meaning (i : Instr) : Meaning i := by
  cases i with
  | nop => exact .nop
  | jp target => exact .jp target
  | call target => exact .call target
  | ldhStore a8 => exact .ldhStore a8
  | ldhLoad a8 => exact .ldhLoad a8
  | ldBcD16 v => exact .loadPair 0x01 .bc v (exec_ldBcD16 v) rfl
  | ldDeD16 v => exact .loadPair 0x11 .de v (exec_ldDeD16 v) rfl
  | ldHlD16 v => exact .loadPair 0x21 .hl v (exec_ldHlD16 v) rfl
  | ldSpD16 v => exact .loadPair 0x31 .sp v (exec_ldSpD16 v) rfl
  | addHlBc => exact .addHl 0x09 .bc exec_addHlBc rfl
  | addHlDe => exact .addHl 0x19 .de exec_addHlDe rfl
  | addHlHl => exact .addHl 0x29 .hl exec_addHlHl rfl
  | addHlSp => exact .addHl 0x39 .sp exec_addHlSp rfl
  | addAB => exact .accumulate aluAdd8 0x80 .b exec_addAB rfl (by simp)
  | addAC => exact .accumulate aluAdd8 0x81 .c exec_addAC rfl (by simp)
  | addAD => exact .accumulate aluAdd8 0x82 .d exec_addAD rfl (by simp)
  | addAE => exact .accumulate aluAdd8 0x83 .e exec_addAE rfl (by simp)
  | addAH => exact .accumulate aluAdd8 0x84 .h exec_addAH rfl (by simp)
  | addAL => exact .accumulate aluAdd8 0x85 .l exec_addAL rfl (by simp)
  | addAMem => exact .accumulate aluAdd8 0x86 .mem exec_addAMem rfl (by simp)
  | addAA => exact .accumulate aluAdd8 0x87 .a exec_addAA rfl (by simp)
  | addAImm d8 => exact .accumulateImm aluAdd8 0xC6 d8 (exec_addAImm d8) rfl
  | subB => exact .accumulate aluSub8 0x90 .b exec_subB rfl (by simp)
  | subC => exact .accumulate aluSub8 0x91 .c exec_subC rfl (by simp)
  | subD => exact .accumulate aluSub8 0x92 .d exec_subD rfl (by simp)
  | subE => exact .accumulate aluSub8 0x93 .e exec_subE rfl (by simp)
  | subH => exact .accumulate aluSub8 0x94 .h exec_subH rfl (by simp)
  | subL => exact .accumulate aluSub8 0x95 .l exec_subL rfl (by simp)
  | subMem => exact .accumulate aluSub8 0x96 .mem exec_subMem rfl (by simp)
  | subA => exact .accumulate aluSub8 0x97 .a exec_subA rfl (by simp)
  | subImm d8 => exact .accumulateImm aluSub8 0xD6 d8 (exec_subImm d8) rfl

/-! ### Outcomes: no refusal, and faults in the video range only (R6, R222) -/

section
variable {s : State} {op : Byte}

theorem accumulate_fault {alu : Byte → Byte → AluResult 8} {x : Op8} {y : Fault}
    (h : accumulate alu op x s = .fault y) :
    x = .mem ∧ InVideo s.hl ∧ y = .videoAccess s.hl .read := by
  rcases accumulate_cases alu op x s with ⟨hx, hv, hf⟩ | ⟨b, u, -, -, hn⟩
  · rw [hf] at h; cases h; exact ⟨hx, hv, rfl⟩
  · rw [hn] at h; cases h

theorem push16_fault {v : Word} {y : Fault} (h : push16 s v = .error y) :
    ∃ addr, (addr = s.sp - 2 ∨ addr = s.sp - 1) ∧ InVideo addr ∧ y = .videoAccess addr .write := by
  rcases push16_cases s v with ⟨hv, hf⟩ | ⟨-, hv, hf⟩ | ⟨-, -, u, w, -, -, hn⟩
  · rw [hf] at h; cases h; exact ⟨_, .inl rfl, hv, rfl⟩
  · rw [hf] at h; cases h; exact ⟨_, .inr rfl, hv, rfl⟩
  · rw [hn] at h; cases h

theorem execCall_fault {target : Word} {y : Fault} (h : execCall target s = .fault y) :
    ∃ addr, (addr = s.sp - 2 ∨ addr = s.sp - 1) ∧ InVideo addr ∧ y = .videoAccess addr .write := by
  rcases execCall_cases target s with ⟨x, hx, hf⟩ | ⟨w, -, hn⟩
  · rw [hf] at h; cases h; exact push16_fault hx
  · rw [hn] at h; cases h

end

/-- Settles O10: of the nine operations two can fault, each on the bus. -/
theorem meaningsFaultOnlyInVideo : Obligations.MeaningsFaultOnlyInVideo := by
  intro i s x h
  cases meaning i with
  | nop | jp => cases h
  | call target =>
    obtain ⟨addr, haddr, hv, hx⟩ := execCall_fault h
    exact .inr ⟨target, addr, rfl, haddr, hv, hx⟩
  | ldhStore a8 =>
    obtain ⟨loc, -, hn⟩ := execLdhStore_next a8 s
    rw [exec_ldhStore, hn] at h
    cases h
  | ldhLoad a8 =>
    obtain ⟨loc, -, hn⟩ := execLdhLoad_next a8 s
    rw [exec_ldhLoad, hn] at h
    cases h
  | loadPair op p v he | addHl op p he | accumulateImm alu op d8 he => rw [he] at h; cases h
  | accumulate alu op y he _ hmem =>
    obtain ⟨hy, hv, hx⟩ := accumulate_fault (he s ▸ h)
    exact .inl ⟨hmem hy, hv, hx⟩

/-- No instruction is left without a meaning. -/
theorem exec_ne_refused (i : Instr) (s : State) (r : Refusal) : exec i s ≠ .refused r := by
  intro h
  cases meaning i with
  | nop | jp => cases h
  | call target =>
    rcases execCall_cases target s with ⟨x, -, hf⟩ | ⟨w, -, hn⟩
    · rw [exec_call, hf] at h; cases h
    · rw [exec_call, hn] at h; cases h
  | ldhStore a8 =>
    obtain ⟨loc, -, hn⟩ := execLdhStore_next a8 s
    rw [exec_ldhStore, hn] at h
    cases h
  | ldhLoad a8 =>
    obtain ⟨loc, -, hn⟩ := execLdhLoad_next a8 s
    rw [exec_ldhLoad, hn] at h
    cases h
  | loadPair op p v he | addHl op p he | accumulateImm alu op d8 he => rw [he] at h; cases h
  | accumulate alu op y he =>
    rw [he] at h
    rcases accumulate_cases alu op y s with ⟨-, -, hf⟩ | ⟨b, u, -, -, hn⟩
    · rw [hf] at h; cases h
    · rw [hn] at h; cases h

/-- Settles O8: a step is a faulting fetch or the meaning of an instruction. -/
theorem stepNeverRefuses : Obligations.StepNeverRefuses := by
  intro s r h
  rcases step_cases s with ⟨x, -, hf⟩ | ⟨i, t, -, -, -, hn⟩
  · rw [hf] at h; cases h
  · exact exec_ne_refused i t r (hn ▸ h)

/-! ### Registers and storage an instruction does not write (R22) -/

section
variable (s : State) (r : Reg)

@[simp] theorem State.retire_reg (op : Byte) (len : Nat) : (s.retire op len).reg r = s.reg r := by
  cases r <;> rfl

@[simp] theorem State.setPc_reg (v : Word) : (s.setPc v).reg r = s.reg r := by
  cases r <;> rfl

@[simp] theorem State.drawn_reg : s.drawn.reg r = s.reg r := by
  cases r <;> rfl

@[simp] theorem State.writeCell_reg (loc : Loc) (v : Byte) : (s.writeCell loc v).reg r = s.reg r := by
  cases r <;> simp [State.reg]

variable {r}

theorem State.setSp_reg (v : Word) (h : r ≠ .sp) : (s.setSp v).reg r = s.reg r := by
  cases r <;> try rfl
  all_goals exact absurd rfl h

theorem State.setA_reg (v : Byte) (h : r ≠ .a) : (s.setA v).reg r = s.reg r := by
  cases r <;> try rfl
  all_goals exact absurd rfl h

theorem State.writeFlags_reg (z n y x : Bool) (h : r ≠ .f) :
    (s.writeFlags z n y x).reg r = s.reg r := by
  cases r <;> try rfl
  all_goals exact absurd rfl h

theorem State.writeOp16_reg (p : Op16) (v : Word) (h : r ∉ p.regs) :
    (s.writeOp16 p v).reg r = s.reg r := by
  cases p <;> cases r <;> try rfl
  all_goals exact absurd (by decide) h

end

theorem busWrite_reg {s t : State} {addr : Word} {v : Byte} (h : busWrite s addr v = .ok t)
    (r : Reg) : t.reg r = s.reg r := by
  rw [busWrite_keeps h]
  cases r <;> rfl

/-- `t` has the storage of `s`, and its registers but for those listed. -/
def Frame (rs : List Reg) (s t : State) : Prop :=
  s.SameMemory t ∧ ∀ r ∉ rs, t.reg r = s.reg r

section
variable {s t : State} {op : Byte}

theorem loadPair_frame {p : Op16} {v : Word} (h : loadPair op p v s = .next t) :
    Frame p.regs s t := by
  cases h
  refine ⟨by simp [State.SameMemory], fun r hr => ?_⟩
  rw [State.retire_reg, State.writeOp16_reg s p v hr]

theorem addHl_frame {p : Op16} (h : addHl op p s = .next t) : Frame [.h, .l, .f] s t := by
  cases h
  refine ⟨by simp [State.SameMemory], fun r hr => ?_⟩
  obtain ⟨hh, hl, hf⟩ : r ≠ .h ∧ r ≠ .l ∧ r ≠ .f := by simpa using hr
  have hpair : r ∉ Op16.hl.regs := by simp [Op16.regs, hh, hl]
  rw [State.retire_reg, State.writeFlags_reg _ _ _ _ _ hf, State.writeOp16_reg _ _ _ hpair]

theorem State.commit8_frame (s : State) (x : AluResult 8) (op : Byte) (len : Nat) :
    Frame [.a, .f] s ((s.commit8 x).retire op len) := by
  refine ⟨by simp [State.SameMemory], fun r hr => ?_⟩
  obtain ⟨ha, hf⟩ : r ≠ .a ∧ r ≠ .f := by simpa using hr
  rw [State.retire_reg, State.commit8, State.writeFlags_reg _ _ _ _ _ hf, State.setA_reg _ _ ha]

theorem accumulate_frame {alu : Byte → Byte → AluResult 8} {x : Op8}
    (h : accumulate alu op x s = .next t) : Frame [.a, .f] s t := by
  rcases accumulate_cases alu op x s with ⟨-, -, hf⟩ | ⟨b, u, -, hu, hn⟩
  · rw [hf] at h; cases h
  · rw [hn] at h
    cases h
    have hframe := u.commit8_frame (alu s.a b) op 1
    rcases hu with rfl | ⟨-, rfl⟩
    · exact hframe
    · exact ⟨hframe.1, fun r hr => (hframe.2 r hr).trans (s.drawn_reg r)⟩

theorem accumulateImm_frame {alu : Byte → Byte → AluResult 8} {d8 : Byte}
    (h : accumulateImm alu op d8 s = .next t) : Frame [.a, .f] s t := by
  cases h
  exact s.commit8_frame _ op 2

theorem execLdhLoad_frame {a8 : Byte} (h : execLdhLoad a8 s = .next t) : Frame [.a] s t := by
  obtain ⟨loc, -, hn⟩ := execLdhLoad_next a8 s
  rw [hn] at h
  cases h
  refine ⟨by simp [State.SameMemory], fun r hr => ?_⟩
  rw [State.retire_reg, State.setA_reg _ _ (by simpa using hr)]

end

/-- Every instruction but the two that store changes the registers of its "written by" column only. -/
theorem exec_frame {i : Instr} {s t : State} (h : exec i s = .next t)
    (hcall : ∀ target, i ≠ .call target) (hstore : ∀ a8, i ≠ .ldhStore a8) :
    Frame (writtenRegs i) s t := by
  cases meaning i with
  | nop | jp => cases h; exact ⟨by simp [State.SameMemory], fun r _ => by simp⟩
  | loadPair op p v he hregs => exact hregs ▸ loadPair_frame (he s ▸ h)
  | addHl op p he hregs => exact hregs ▸ addHl_frame (he s ▸ h)
  | accumulate alu op x he hregs => exact hregs ▸ accumulate_frame (he s ▸ h)
  | accumulateImm alu op d8 he hregs => exact hregs ▸ accumulateImm_frame (he s ▸ h)
  | ldhLoad => exact execLdhLoad_frame h
  | call target => exact absurd rfl (hcall target)
  | ldhStore a8 => exact absurd rfl (hstore a8)

/-- Settles O25: storage is in the frame, and a read depends on nothing else. -/
theorem otherInstructionsKeepMemory : Obligations.OtherInstructionsKeepMemory := by
  intro i s t h hcall hstore
  obtain ⟨hmem, -⟩ := exec_frame h hcall hstore
  exact ⟨hmem, busPeek_congr hmem⟩

/-- A completed push moves `SP` and writes storage (R202). -/
theorem push16_keeps {s t : State} {v : Word} (h : push16 s v = .ok t) :
    t = { s with sp := s.sp - 2, eram := t.eram, wram := t.wram, oam := t.oam, io := t.io
                 hram := t.hram, ie := t.ie, mapper := t.mapper } := by
  obtain ⟨u, hlow, hhigh⟩ := push16_ok h
  rw [busWrite_keeps hhigh, busWrite_keeps hlow]
  rfl

theorem push16_reg {s t : State} {v : Word} (h : push16 s v = .ok t) {r : Reg} (hr : r ≠ .sp) :
    t.reg r = s.reg r := by
  obtain ⟨u, hlow, hhigh⟩ := push16_ok h
  rw [busWrite_reg hhigh, busWrite_reg hlow, State.setSp_reg _ _ hr]

theorem busWrite_gen {s t : State} {addr : Word} {v : Byte} (h : busWrite s addr v = .ok t) :
    t.mapper.gen = s.mapper.gen := by
  rcases busWrite_cases s addr v with ⟨-, h'⟩ | ⟨-, h'⟩ | ⟨loc, -, h'⟩ | ⟨i, -, h'⟩ | ⟨-, h'⟩ <;>
    rw [h'] at h <;> cases h
  · exact Mapper.write_gen _ _ _
  · rw [State.writeCell_mapper]
  · rw [State.writeCell_mapper]
  · rfl

theorem push16_gen {s t : State} {v : Word} (h : push16 s v = .ok t) :
    t.mapper.gen = s.mapper.gen := by
  obtain ⟨u, hlow, hhigh⟩ := push16_ok h
  rw [busWrite_gen hhigh, busWrite_gen hlow, State.setSp_mapper]

/-- The frame of each instruction; CALL and the LDH store touch no register beside `SP`. -/
theorem exec_reg_eq {i : Instr} {s t : State} (h : exec i s = .next t) {r : Reg}
    (hr : r ∉ writtenRegs i) : t.reg r = s.reg r := by
  by_cases hcall : ∃ target, i = .call target
  · obtain ⟨target, rfl⟩ := hcall
    obtain ⟨w, hw, rfl⟩ := execCall_next h
    have hsp : r ≠ .sp := fun e => hr (e ▸ List.mem_singleton.2 rfl)
    rw [State.setPc_reg, State.retire_reg, push16_reg hw hsp]
  by_cases hstore : ∃ a8, i = .ldhStore a8
  · obtain ⟨a8, rfl⟩ := hstore
    obtain ⟨loc, -, hn⟩ := execLdhStore_next a8 s
    rw [exec_ldhStore, hn] at h
    cases h
    rw [State.retire_reg, State.writeCell_reg]
  · exact (exec_frame h (fun a e => hcall ⟨a, e⟩) (fun a e => hstore ⟨a, e⟩)).2 r hr

/-- Settles O27: a register that is not in the column is left alone. -/
theorem registersChangeOnlyWhereWritten : Obligations.RegistersChangeOnlyWhereWritten :=
  fun _ _ _ _ h hne => Classical.byContradiction fun hr => hne (exec_reg_eq h hr)

/-! ### The push and `SP` (R202) -/

theorem Word.ofNat_mod_eq_low (v : Word) : BitVec.ofNat 8 (v.toNat % 256) = v.low := by
  rw [← Word.toNat_low, BitVec.ofNat_toNat, BitVec.setWidth_eq]

theorem Word.ofNat_div_eq_high (v : Word) : BitVec.ofNat 8 (v.toNat / 256) = v.high := by
  rw [← Word.toNat_high, BitVec.ofNat_toNat, BitVec.setWidth_eq]

/-- Only the two instructions of `SP`'s "written by" column can change it. -/
theorem exec_sp_eq {i : Instr} {s t : State} (h : exec i s = .next t) (hsp : .sp ∉ writtenRegs i) :
    t.sp = s.sp :=
  exec_reg_eq h hsp

/-- Settles O58: a push is two bus writes at the new `SP`; among the instructions `SP` is written by
LD SP and CALL alone. -/
theorem pushRule : Obligations.PushRule := by
  refine ⟨fun s v => ⟨rfl, fun t h => ?_⟩, fun i s t h => ?_⟩
  · obtain ⟨u, hlow, hhigh⟩ := push16_ok h
    have hsp : t.sp = s.sp - 2 := by rw [push16_keeps h]
    rw [hsp, Word.ofNat_mod_eq_low, Word.ofNat_div_eq_high]
    refine ⟨?_, u, hlow, hhigh⟩
    rw [BitVec.toNat_sub, Nat.add_comm]
    rfl
  · split
    · cases h; rfl
    · obtain ⟨w, hw, rfl⟩ := execCall_next h
      rw [State.setPc_sp, State.retire_sp, push16_keeps hw]
    · next hld hcall =>
      refine exec_sp_eq h fun hmem => ?_
      cases i with
      | ldSpD16 v => exact hld v rfl
      | call target => exact hcall target rfl
      | _ => exact absurd hmem (by simp [writtenRegs])

/-! ### Cycles and the fixed parts (R35, R132, R263) -/

section
variable {s u : State}

theorem Effect.cyc_eq (h : Effect s u) : u.cyc = s.cyc := by cases h <;> simp

theorem Effect.params_eq (h : Effect s u) : u.params = s.params := by cases h <;> simp

theorem Effect.cart_eq (h : Effect s u) : u.cart = s.cart := by cases h <;> simp

theorem Effect.fault_eq (h : Effect s u) : u.fault = s.fault := by cases h <;> simp

end

/-- An instruction that completes adds the cost of its opcode (R132). -/
theorem exec_cyc {i : Instr} {s t : State} (h : exec i s = .next t) :
    t.cyc = s.cyc + s.params.cost i.opcode := by
  rcases exec_next h with ⟨-, u, hu, rfl⟩ | ⟨target, rfl, rfl⟩ | ⟨target, w, rfl, hw, rfl⟩
  · rw [State.retire_cyc, hu.cyc_eq, hu.params_eq]
  · rfl
  · rw [State.setPc_cyc, State.retire_cyc, push16_keeps hw]; rfl

/-- An instruction that completes keeps the cartridge, the parameters, the generation and the fault
record (R34, R35). -/
theorem exec_fixed {i : Instr} {s t : State} (h : exec i s = .next t) :
    t.cart = s.cart ∧ t.params = s.params ∧ t.mapper.gen = s.mapper.gen ∧ t.fault = s.fault := by
  rcases exec_next h with ⟨-, u, hu, rfl⟩ | ⟨target, -, rfl⟩ | ⟨target, w, -, hw, rfl⟩
  · exact ⟨hu.cart_eq, hu.params_eq, congrArg Mapper.gen hu.mapper_eq, hu.fault_eq⟩
  · exact ⟨rfl, rfl, rfl, rfl⟩
  · have hcart : w.cart = s.cart := by rw [push16_keeps hw]
    have hparams : w.params = s.params := by rw [push16_keeps hw]
    have hfault : w.fault = s.fault := by rw [push16_keeps hw]
    have hgen := push16_gen hw
    exact ⟨hcart, hparams, hgen, hfault⟩

/-- A step that completes is an instruction run in the state before, but for the count of draws. -/
theorem step_next {s t : State} (h : step s = .next t) :
    s.fault = none ∧ ∃ i n, exec i { s with draws := n } = .next t := by
  rcases step_cases s with ⟨x, -, hf⟩ | ⟨i, u, -, hnone, hu, hn⟩
  · rw [hf] at h; cases h
  · exact ⟨hnone, i, u.draws, by rw [← hu, ← hn, h]⟩

/-- Settles O31: the fetch keeps all of them, and so does every instruction. -/
theorem fixedPartsStay : Obligations.FixedPartsStay := by
  intro s t h
  obtain ⟨hnone, i, n, hexec⟩ := step_next h
  obtain ⟨hcart, hparams, hgen, hfault⟩ := exec_fixed hexec
  exact ⟨hcart, hparams, hgen, hnone, hfault.trans hnone⟩

/-- With the table's costs an instruction adds a cost of the table. -/
theorem exec_cyc_table {i : Instr} {s t : State} (hcosts : s.TableCosts) (h : exec i s = .next t) :
    ∃ n ∈ [4, 8, 12, 16, 24], t.cyc = s.cyc + n := by
  obtain ⟨-, -, hcost, -⟩ := coding i
  exact ⟨_, hcost, by rw [exec_cyc h, s.costIs_default i.opcode hcosts]⟩

/-- Settles O30: the fetch adds nothing. -/
theorem cycleLaw : Obligations.CycleLaw := by
  refine ⟨fun i s t h => exec_cyc h, fun s t hcosts h => ?_⟩
  obtain ⟨-, i, n, hexec⟩ := step_next h
  exact exec_cyc_table (s := { s with draws := n }) hcosts hexec

/-! ### The invariant (R26, R31, R93, R98, R264) -/

/-- What a state promises of its storage depends on the storage alone. -/
theorem State.SameMemory.memoryInv {s t : State} (h : s.SameMemory t) (hs : s.MemoryInv) :
    t.MemoryInv := by
  obtain ⟨he, hw, ho, hi, hh, -, hm, hc⟩ := h
  simpa only [State.MemoryInv, he, hw, ho, hi, hh, hm, hc] using hs

theorem State.SameMemory.mapperInv {s t : State} (h : s.SameMemory t) (hs : s.MapperInv) :
    t.MapperInv := by
  obtain ⟨he, -, -, -, -, -, hm, -⟩ := h
  simpa only [State.MapperInv, he, hm] using hs

/-- Only the two instructions that store touch storage, and each does it by the bus. -/
theorem exec_storageInv {i : Instr} {s t : State} (h : exec i s = .next t) (hm : s.MemoryInv)
    (hr : s.MapperInv) : t.MemoryInv ∧ t.MapperInv := by
  by_cases hcall : ∃ target, i = .call target
  · obtain ⟨target, rfl⟩ := hcall
    obtain ⟨w, hw, rfl⟩ := execCall_next h
    have hinv := push16_inv hm hr hw
    exact hinv
  by_cases hstore : ∃ a8, i = .ldhStore a8
  · obtain ⟨a8, rfl⟩ := hstore
    obtain ⟨loc, hacc, hn⟩ := execLdhStore_next a8 s
    rw [exec_ldhStore, hn] at h
    cases h
    have hinv := busWrite_inv hm hr (busWrite_of_cell hacc s.a)
    exact hinv
  · obtain ⟨hmem, -⟩ := exec_frame h (fun a e => hcall ⟨a, e⟩) (fun a e => hstore ⟨a, e⟩)
    exact ⟨hmem.memoryInv hm, hmem.mapperInv hr⟩

theorem exec_flagsInv {i : Instr} {s t : State} (h : exec i s = .next t) (hs : s.FlagsInv) :
    t.FlagsInv := by
  rcases exec_f_cases h with hf | ⟨z, n, y, c, hf⟩
  · rw [State.FlagsInv, hf]; exact hs
  · rw [State.FlagsInv, hf]; cases z <;> cases n <;> cases y <;> cases c <;> rfl

theorem exec_cyclesInv {i : Instr} {s t : State} (h : exec i s = .next t) (hs : s.CyclesInv) :
    t.CyclesInv := by
  intro hcosts
  obtain ⟨-, hparams, -⟩ := exec_fixed h
  rw [hparams] at hcosts
  obtain ⟨n, hn, hcyc⟩ := exec_cyc_table hcosts h
  have hmul : ∀ n ∈ [4, 8, 12, 16, 24], n % 4 = 0 := by decide
  have hn := hmul n hn
  have hold := hs hcosts
  omega

theorem exec_inv {i : Instr} {s t : State} (h : exec i s = .next t) (hs : s.Inv) : t.Inv := by
  obtain ⟨hflags, hmem, hmapper, hcycles, hcart⟩ := hs
  obtain ⟨htmem, htmapper⟩ := exec_storageInv h hmem hmapper
  obtain ⟨htcart, -⟩ := exec_fixed h
  exact ⟨exec_flagsInv h hflags, htmem, htmapper, exec_cyclesInv h hcycles, htcart ▸ hcart⟩

/-- Settles O33: the fetch changes the count of draws only, of which the invariant does not speak, and
every instruction keeps each of its parts. -/
theorem stepKeepsInvariant : Obligations.StepKeepsInvariant := by
  intro s t hs h
  obtain ⟨-, i, n, hexec⟩ := step_next h
  exact exec_inv hexec hs

/-- Settles O34: the arrays are empty, `F` is 0xB0 and the blank cartridge is a cartridge. -/
theorem invariantHoldsAtReset : Obligations.InvariantHoldsAtReset :=
  ⟨by decide, by decide, trivial, fun _ => rfl, ⟨0, by decide, rfl⟩, by decide, by decide, by decide⟩

end Sys2Proof.Machine

/-! ## The effect of each instruction in exact arithmetic (R140 to R188, R200, R210 to R212) -/

namespace Sys2Proof.Machine

/-! ### The ALU functions (R160 to R163) -/

/-- A flag that says `P` weighs `n` in `F` exactly when `P` holds. -/
theorem toNat_mul_of_iff {b : Bool} {P : Prop} [Decidable P] (h : b = true ↔ P) (n : Nat) :
    b.toNat * n = if P then n else 0 := by
  by_cases hP : P
  · simp [h.2 hP, hP]
  · have hb : b = false := Bool.eq_false_iff.2 (mt h.1 hP)
    simp [hb, hP]

/-- A difference of bytes is zero exactly when they are the same number. -/
theorem sub_beq_zero_iff (a b : Byte) : (a - b == 0) = true ↔ a.toNat = b.toNat := by
  have ha := a.isLt
  have hb := b.isLt
  have hsub : (a - b).toNat = (256 - b.toNat + a.toNat) % 256 := BitVec.toNat_sub a b
  calc (a - b == 0) = true ↔ a - b = 0 := beq_iff_eq
    _ ↔ (a - b).toNat = 0 := BitVec.toNat_inj.symm
    _ ↔ a.toNat = b.toNat := by rw [hsub]; omega

/-- The low `k` bits of a value as a number. -/
theorem toNat_extract_low {w : Nat} (v : BitVec w) {k m : Nat} (hm : 2 ^ k = m) :
    (v.extractLsb' 0 k).toNat = v.toNat % m := by
  rw [BitVec.extractLsb'_toNat, Nat.shiftRight_zero, ← hm]

/-- The half carry of a 16-bit sum is the carry out of bit 11 (R162). -/
theorem aluAdd16_h_iff (mode : Add16Z) (a b : Word) (z : Bool) :
    (aluAdd16 mode a b z).h = true ↔ a.toNat % 4096 + b.toNat % 4096 > 4095 := by
  have hlow (w : Word) : (w.extractLsb' 0 12).toNat = w.toNat % 4096 := toNat_extract_low w rfl
  rw [← hlow a, ← hlow b]
  exact decide_eq_true_iff

/-- The half borrow of a byte difference is the borrow of the low nibbles (R161). -/
theorem aluSub8_h_iff (a b : Byte) :
    (aluSub8 a b).h = true ↔ a.toNat % 16 < b.toNat % 16 := by
  rw [← toNat_lowNibble a, ← toNat_lowNibble b]
  exact decide_eq_true_iff

section
variable (s : State) {op : Byte} {n : Nat}

/-- The committed sum of bytes is what `Add8Post` says in numbers (R160, R168). -/
theorem add8Post_commit8 (b : Byte) (len : Nat) (hcost : s.CostIs op n) :
    Add8Post s ((s.commit8 (aluAdd8 s.a b)).retire op len) b op len n := by
  obtain ⟨hr, hz, hn, hh, hc⟩ := alu8AddRule s.a b
  refine ⟨hr, ?_, rfl, hcost⟩
  rw [State.retire_f, State.commit8_f, toNat_packFlags, toNat_mul_of_iff hz, hn, toNat_mul_of_iff hh,
    toNat_mul_of_iff hc]
  simp

/-- The committed difference of bytes is what `Sub8Post` says in numbers (R161, R179). -/
theorem sub8Post_commit8 (b : Byte) (len : Nat) (hcost : s.CostIs op n) :
    Sub8Post s ((s.commit8 (aluSub8 s.a b)).retire op len) b op len n := by
  have hb := b.isLt
  have hr : (s.a - b).toNat = (256 - b.toNat + s.a.toNat) % 256 := BitVec.toNat_sub s.a b
  have hc : (aluSub8 s.a b).c = true ↔ s.a.toNat < b.toNat := decide_eq_true_iff
  refine ⟨?_, ?_, rfl, hcost⟩
  · rw [State.retire_a, State.commit8_a]
    simp only [aluSub8, hr]
    omega
  · have hz : (aluSub8 s.a b).z = true ↔ s.a.toNat = b.toNat := sub_beq_zero_iff s.a b
    rw [State.retire_f, State.commit8_f, toNat_packFlags, toNat_mul_of_iff hz,
      toNat_mul_of_iff (aluSub8_h_iff s.a b), toNat_mul_of_iff hc]
    rfl

/-- The sum of a byte pair with `HL` is what `AddHlPost` says in numbers (R162, R164). -/
theorem addHlPost_addHl (p : Op16) (hcost : s.CostIs op 8) :
    ∃ t, addHl op p s = .next t ∧ AddHlPost s t (s.readOp16 p).toNat op := by
  refine ⟨_, rfl, ?_, ?_, rfl, hcost⟩
  · rw [← Word.toNat_ofBytes s.h, ← Word.toNat_ofBytes]
    simp only [State.retire_h, State.retire_l, State.writeFlags_h, State.writeFlags_l,
      State.writeOp16_hl_h, State.writeOp16_hl_l, Word.ofBytes_high_low]
    exact BitVec.toNat_add ..
  · have hhl : s.h.toNat * 256 + s.l.toNat = s.hl.toNat := (Word.toNat_ofBytes s.h s.l).symm
    have hsum : (s.hl + s.readOp16 p).toNat = (s.hl.toNat + (s.readOp16 p).toNat) % 65536 :=
      BitVec.toNat_add ..
    have hc : (aluAdd16 s.params.add16Z s.hl (s.readOp16 p) (s.flag .z)).c = true ↔
        s.hl.toNat + (s.readOp16 p).toNat > 65535 := decide_eq_true_iff
    rw [hhl, State.retire_f, State.writeFlags_f, toNat_packFlags, toNat_mul_of_iff (aluAdd16_h_iff ..),
      toNat_mul_of_iff hc]
    cases hmode : s.params.add16Z with
    | fromResult =>
      have hz : (s.hl + s.readOp16 p == 0) = true ↔
          (s.hl.toNat + (s.readOp16 p).toNat) % 65536 = 0 := by
        rw [beq_iff_eq, ← BitVec.toNat_inj, hsum]; rfl
      simp only [aluAdd16, toNat_mul_of_iff hz, Bool.toNat_false, Nat.zero_mul, Nat.add_zero]
    | unchanged =>
      have hf := s.f.isLt
      have hz : (s.flag .z).toNat * 128 = s.f.toNat / 128 * 128 := by
        rw [s.toNat_flag, Flag.bit]; omega
      simp only [aluAdd16, hz, Bool.toNat_false, Nat.zero_mul, Nat.add_zero]

end

/-- Settles O14: the four forms add the pair's value. -/
theorem addHlEffect : Obligations.AddHlEffect := by
  intro s
  have h (op : Byte) (p : Op16) (hcost : s.CostIs op 8) := addHlPost_addHl s p hcost
  have hbc := h 0x09 .bc (s.costIs_default 0x09)
  have hde := h 0x19 .de (s.costIs_default 0x19)
  have hhl := h 0x29 .hl (s.costIs_default 0x29)
  have hsp := h 0x39 .sp (s.costIs_default 0x39)
  simp only [State.readOp16, State.bc, State.de, State.hl, Word.toNat_ofBytes] at hbc hde hhl hsp
  exact ⟨hbc, hde, hhl, hsp⟩

/-- Settles O15: each form commits the sum of `A` and its operand. -/
theorem addAEffect : Obligations.AddAEffect := fun s =>
  ⟨⟨_, rfl, add8Post_commit8 s s.b 1 (s.costIs_default 0x80)⟩,
    ⟨_, rfl, add8Post_commit8 s s.c 1 (s.costIs_default 0x81)⟩,
    ⟨_, rfl, add8Post_commit8 s s.d 1 (s.costIs_default 0x82)⟩,
    ⟨_, rfl, add8Post_commit8 s s.e 1 (s.costIs_default 0x83)⟩,
    ⟨_, rfl, add8Post_commit8 s s.h 1 (s.costIs_default 0x84)⟩,
    ⟨_, rfl, add8Post_commit8 s s.l 1 (s.costIs_default 0x85)⟩,
    ⟨_, rfl, add8Post_commit8 s s.a 1 (s.costIs_default 0x87)⟩,
    fun d8 => ⟨_, rfl, add8Post_commit8 s d8 2 (s.costIs_default 0xC6)⟩⟩

/-- A difference of equal numbers is zero without a borrow. -/
theorem Sub8Post.self {s t : State} {op : Byte} {len n : Nat} (h : Sub8Post s t s.a op len n) :
    t.a = 0x00 ∧ t.f = 0xC0 := by
  obtain ⟨ha, hf, -⟩ := h
  refine ⟨BitVec.eq_of_toNat_eq (ha.trans ?_), BitVec.eq_of_toNat_eq (hf.trans ?_)⟩
  · rw [Nat.add_sub_cancel_left]; rfl
  · simp

/-- Settles O16: each form commits the difference of `A` and its operand. -/
theorem subEffect : Obligations.SubEffect := fun s =>
  have hself := sub8Post_commit8 s s.a 1 (s.costIs_default 0x97)
  ⟨⟨_, rfl, sub8Post_commit8 s s.b 1 (s.costIs_default 0x90)⟩,
    ⟨_, rfl, sub8Post_commit8 s s.c 1 (s.costIs_default 0x91)⟩,
    ⟨_, rfl, sub8Post_commit8 s s.d 1 (s.costIs_default 0x92)⟩,
    ⟨_, rfl, sub8Post_commit8 s s.e 1 (s.costIs_default 0x93)⟩,
    ⟨_, rfl, sub8Post_commit8 s s.h 1 (s.costIs_default 0x94)⟩,
    ⟨_, rfl, sub8Post_commit8 s s.l 1 (s.costIs_default 0x95)⟩,
    ⟨_, rfl, hself, hself.self⟩,
    fun d8 => ⟨_, rfl, sub8Post_commit8 s d8 2 (s.costIs_default 0xD6)⟩⟩

/-! ### The memory operand (R168, R176, R186) -/

theorem accumulate_mem {alu : Byte → Byte → AluResult 8} {op b : Byte} {s u : State}
    (h : busRead s s.hl = .ok (b, u)) :
    accumulate alu op .mem s = .next ((u.commit8 (alu u.a b)).retire op 1) := by
  simp only [accumulate, State.readOp8, h]

/-- A completed read gives the byte that is there, where there is one. -/
theorem busRead_of_peek {s : State} {addr : Word} {v : Byte} (h : busPeek s addr = .ok (some v)) :
    busRead s addr = .ok (v, s) := by
  simp only [busRead, h]

/-- Settles O17: outside the video range the read completes, and the rest is the ALU. -/
theorem memoryOperandEffect : Obligations.MemoryOperandEffect := by
  intro s hv
  obtain ⟨b, u, hread⟩ := busRead_completes s hv
  refine ⟨b, u, hread, ?_, fun v hpeek => ?_, ?_, ?_⟩
  · rcases (busRead_next hread).2 with rfl | rfl <;> rfl
  · rw [busRead_of_peek hpeek] at hread
    cases hread
    exact ⟨rfl, rfl⟩
  · exact ⟨_, accumulate_mem hread, add8Post_commit8 u b 1 (u.costIs_default 0x86)⟩
  · exact ⟨_, accumulate_mem hread, sub8Post_commit8 u b 1 (u.costIs_default 0x96)⟩

theorem accumulate_mem_video {alu : Byte → Byte → AluResult 8} {op : Byte} {s : State}
    (h : InVideo s.hl) : accumulate alu op .mem s = .fault (.videoAccess s.hl .read) := by
  simp only [accumulate, State.readOp8, busRead_video h]

/-- Settles O18: the read of `HL` faults first. -/
theorem memoryOperandTraps : Obligations.MemoryOperandTraps := fun _ h =>
  ⟨accumulate_mem_video h, accumulate_mem_video h⟩

/-! ### NOP, the pair loads, JP (R140, R150, R200) -/

/-- Settles O12: NOP only retires. -/
theorem nopEffect : Obligations.NopEffect := fun s => ⟨exec_nop s, s.costIs_default 0x00⟩

/-- Settles O13: a pair load writes the two halves of the immediate and retires. -/
theorem loadPairEffect : Obligations.LoadPairEffect := fun s v =>
  ⟨⟨_, rfl, v.toNat_high, v.toNat_low, rfl⟩, ⟨_, rfl, v.toNat_high, v.toNat_low, rfl⟩,
    ⟨_, rfl, v.toNat_high, v.toNat_low, rfl⟩, exec_ldSpD16 v s, s.costIs_default 0x01,
    s.costIs_default 0x11, s.costIs_default 0x21, s.costIs_default 0x31⟩

/-- Settles O19: JP retires and sets `PC`. -/
theorem jumpEffect : Obligations.JumpEffect := fun s target =>
  ⟨exec_jp target s, s.costIs_default 0xC3⟩

/-! ### LDH (R210 to R212) -/

/-- An address from 0xFF00 up is the only one of its cell: the echo ends below it. -/
theorem State.access_high_unique {s : State} {addr addr' : Word} {loc : Loc}
    (hhigh : 0xFF00 ≤ addr.toNat) (h : s.access addr = .cell loc) (h' : s.access addr' = .cell loc) :
    addr' = addr := by
  apply BitVec.eq_of_toNat_eq
  obtain ⟨loc, hloc, hcase⟩ := access_high s hhigh
  rw [hloc] at h
  cases h
  rcases s.access_regions addr' with ⟨-, hr⟩ | ⟨-, hr⟩ | ⟨-, hr⟩ | ⟨-, hr⟩ | ⟨-, hr⟩ | ⟨-, hr⟩ |
    ⟨-, hr⟩ | ⟨hin, hr⟩ | ⟨hin, hr⟩ | ⟨hin, hr⟩ <;> rw [hr] at h'
  case inr.inr.inl =>
    cases hx : extCell s.cart s.mapper (addr'.toNat - 0xA000) <;> rw [hx] at h' <;> cases h'
    simp at hcase
  all_goals cases h'
  all_goals simp at hcase <;> omega

/-- Settles O23: the store writes the cell of `0xFF00 + a8`, which no other address reaches. -/
theorem ldhStoreEffect : Obligations.LdhStoreEffect := by
  intro s a8
  have haddr := ldhAddr_toNat a8
  obtain ⟨loc, hacc, hn⟩ := execLdhStore_next a8 s
  refine ⟨_, hn, fun addr => ?_, ?_, s.costIs_default 0xE0⟩
  · rw [State.retire_busPeek, busPeek_writeCell hacc]
    have hiff : s.access addr = .cell loc ↔ addr.toNat = 0xFF00 + a8.toNat := by
      rw [← haddr, BitVec.toNat_inj]
      exact ⟨State.access_high_unique (by omega) hacc, fun h => h ▸ hacc⟩
    simp only [hiff]
  · obtain ⟨loc', hacc', hcase⟩ := access_high s (addr := ldhAddr a8) (by omega)
    rw [hacc] at hacc'
    cases hacc'
    rcases hcase with ⟨rfl, -⟩ | ⟨rfl, -⟩ | ⟨rfl, -⟩ <;> rfl

/-- Settles O24: the load reads a plain cell. -/
theorem ldhLoadEffect : Obligations.LdhLoadEffect := by
  intro s a8 addr h
  obtain rfl : addr = ldhAddr a8 := BitVec.eq_of_toNat_eq (h.trans (ldhAddr_toNat a8).symm)
  obtain ⟨loc, hacc, hn⟩ := execLdhLoad_next a8 s
  exact ⟨_, busPeek_of_cell hacc, hn, s.costIs_default 0xF0⟩

end Sys2Proof.Machine

/-! ## CALL and words in plain storage (R54, R55, R75, R91, R201, R202) -/

namespace Sys2Proof.Machine

/-! ### The windows (R91, R31) -/

/-- A ROM size of R84 is a whole number of banks, at least two. -/
theorem romSize_eq_banks {c : Cart} (h : c.romSizeWf) :
    c.romSize = c.romSize / 0x4000 * 0x4000 := by
  obtain ⟨code, -, hsize⟩ := h
  rw [hsize, Nat.shiftLeft_eq]
  omega

/-- A byte of a bank lies inside an image that has the bank. -/
theorem bank_offset_lt {bank banks off : Nat} (hbank : bank < banks) (hoff : off < 0x4000) :
    bank * 0x4000 + off < banks * 0x4000 := by
  omega

/-- The physical ROM address lies inside the image (R91). -/
theorem romPhys_lt {c : Cart} (h : c.romSizeWf) (m : Mapper) {n : Nat} (hn : n < 0x8000) :
    romPhys c m n < c.romSize := by
  have htwo := two_le_romBanks h
  have hbanks : 0 < c.romSize / 0x4000 := by omega
  have hlo (hn : n < 0x4000) := bank_offset_lt (Nat.mod_lt m.loBank hbanks) hn
  have hhi : n - 0x4000 < 0x4000 := by omega
  have hhi := bank_offset_lt (Nat.mod_lt m.hiBank hbanks) hhi
  rw [← romSize_eq_banks h] at hlo hhi
  unfold romPhys
  split
  · next hn => exact hlo hn
  · exact hhi

/-- Settles O44: bank numbers are reduced modulo the banks there are, RAM offsets modulo the RAM. -/
theorem windowsStayInside : Obligations.WindowsStayInside := by
  intro c m ⟨hsize, _⟩
  exact ⟨fun n hn => romPhys_lt hsize m hn, fun off o hoff h => (extCell_byte hoff h).1,
    fun off i h => extCell_nibble h⟩

/-! ### Neighbouring addresses reach different cells (R75) -/

/-- A RAM size of R85 is even. -/
theorem ramSize_even {c : Cart} (h : c.ramSizeWf) : c.ramSize % 2 = 0 := by
  have hall : ∀ n ∈ [0, 0x800, 0x2000, 0x8000, 0x20000, 0x10000], n % 2 = 0 := by decide
  exact hall _ h

/-- The window keeps the parity of the offset. -/
theorem ramPhys_mod_two {c : Cart} (h : c.ramSizeWf) (bank off : Nat) :
    ramPhys c bank off % 2 = off % 2 := by
  rw [ramPhys, Nat.mod_mod_of_dvd _ (Nat.dvd_of_mod_eq_zero (ramSize_even h))]
  omega

theorem extCell_byte_mod_two {c : Cart} (h : c.ramSizeWf) {m : Mapper} {off o : Nat}
    (hx : extCell c m off = .byte o) : o % 2 = off % 2 := by
  cases m with
  | gen0 => cases hx; rfl
  | gen1 | gen5 =>
    simp only [extCell] at hx
    split at hx <;> cases hx
    exact ramPhys_mod_two h _ _
  | gen2 => simp only [extCell] at hx; split at hx <;> cases hx
  | gen3 =>
    simp only [extCell] at hx
    split at hx
    · cases hx
    split at hx
    · split at hx <;> cases hx
      exact ramPhys_mod_two h _ _
    · split at hx <;> cases hx

/-- The offset of a cell in its array; `IE`, the byte at 0xFFFF, counts as offset 1. -/
def Loc.offset : Loc → Nat
  | .eram off => off
  | .wram off => off
  | .oam off => off
  | .io off => off
  | .hram off => off
  | .ie => 1

/-- Every array starts at an even address, so a cell has the parity of each address that reaches it. -/
theorem State.access_cell_mod_two {s : State} (hwf : s.cart.ramSizeWf) {addr : Word} {loc : Loc}
    (h : s.access addr = .cell loc) : loc.offset % 2 = addr.toNat % 2 := by
  rcases s.access_regions addr with ⟨-, hr⟩ | ⟨-, hr⟩ | ⟨hin, hr⟩ | ⟨hin, hr⟩ | ⟨hin, hr⟩ |
    ⟨hin, hr⟩ | ⟨-, hr⟩ | ⟨hin, hr⟩ | ⟨hin, hr⟩ | ⟨hin, hr⟩ <;> rw [hr] at h
  case inr.inr.inl =>
    cases hx : extCell s.cart s.mapper (addr.toNat - 0xA000) <;> rw [hx] at h <;> cases h
    have hpar := extCell_byte_mod_two hwf hx
    rw [Loc.offset]
    omega
  all_goals cases h
  all_goals rw [Loc.offset]; omega

/-- So the two bytes of a word never fall into one cell. -/
theorem State.access_succ_ne {s : State} (hwf : s.cart.ramSizeWf) {addr : Word} {x y : Loc}
    (hx : s.access addr = .cell x) (hy : s.access (addr + 1) = .cell y) : x ≠ y := by
  rintro rfl
  have hsucc : (addr + 1).toNat = (addr.toNat + 1) % 65536 := BitVec.toNat_add ..
  have hpx := State.access_cell_mod_two hwf hx
  have hpy := State.access_cell_mod_two hwf hy
  omega

/-! ### A word in two plain cells -/

section
variable {s : State} {addr : Word} {x y : Loc}

theorem memWrite16_cells (hx : s.access addr = .cell x) (hy : s.access (addr + 1) = .cell y)
    (v : Word) : memWrite16 s addr v = .ok ((s.writeCell x v.low).writeCell y v.high) := by
  have hy' : (s.writeCell x v.low).access (addr + 1) = .cell y := by rw [State.writeCell_access, hy]
  simp only [memWrite16, busWrite_of_cell hx, busWrite_of_cell hy']

theorem memRead16_cells (hx : s.access addr = .cell x) (hy : s.access (addr + 1) = .cell y) :
    memRead16 s addr = .ok (Word.ofBytes (s.readCell y) (s.readCell x), s) := by
  simp only [memRead16, busRead_of_cell hx, busRead_of_cell hy]

/-- The later of two writes to different cells leaves the earlier one. -/
theorem State.readCell_writeCell_writeCell (s : State) (h : x ≠ y) (lo hi : Byte) :
    ((s.writeCell x lo).writeCell y hi).readCell x = lo := by
  rw [State.readCell_writeCell_other _ _ h, State.readCell_writeCell_same]

end

/-- Settles O43: the two cells differ, so both bytes are still there when the word is read. -/
theorem wordRoundTrip : Obligations.WordRoundTrip := by
  intro s addr v x y hwf hx hy
  obtain ⟨-, hram, -⟩ := hwf
  have hlow := s.readCell_writeCell_writeCell (State.access_succ_ne hram hx hy) v.low v.high
  refine ⟨_, memWrite16_cells hx hy v, ?_, ?_, ?_⟩
  · rw [memRead16_cells (x := x) (y := y) (by simpa using hx) (by simpa using hy), hlow,
      State.readCell_writeCell_same, Word.ofBytes_high_low]
  · rw [hlow, Word.toNat_low]
  · rw [State.readCell_writeCell_same, Word.toNat_high]

/-! ### CALL (R201, R202) -/

theorem execCall_of_push {s w : State} (target : Word) (h : push16 s (s.pc + 3) = .ok w) :
    execCall target s = .next ((w.retire 0xCD 3).setPc target) := by
  simp only [execCall, h]

theorem execCall_of_push_fault {s : State} {x : Fault} (target : Word)
    (h : push16 s (s.pc + 3) = .error x) : execCall target s = .fault x := by
  simp only [execCall, h]

/-- The state after a CALL whose push left `w`. -/
theorem call_next_eq {s w : State} {v : Word} (target : Word) (h : push16 s v = .ok w) :
    (w.retire 0xCD 3).setPc target = { w with pc := target, cyc := s.cyc + s.params.cost 0xCD } := by
  have hcyc : w.cyc = s.cyc := by rw [push16_keeps h]
  have hparams : w.params = s.params := by rw [push16_keeps h]
  rw [← hcyc, ← hparams]
  rfl

/-- Settles O20: the push is its two bus writes, and then CALL retires and jumps. -/
theorem callEffect : Obligations.CallEffect := by
  intro s target h2 h1
  rcases push16_cases s (s.pc + 3) with ⟨hv, -⟩ | ⟨-, hv, -⟩ | ⟨-, -, u, w, hlow, hhigh, hpush⟩
  · exact absurd hv h2
  · exact absurd hv h1
  · rw [Word.ofNat_mod_eq_low, Word.ofNat_div_eq_high]
    have hexec := execCall_of_push target hpush
    rw [call_next_eq target hpush] at hexec
    exact ⟨u, w, hlow, hhigh, hexec, push16_keeps hpush, s.costIs_default 0xCD⟩

/-- Settles O22: the push faults on its first byte in the range. -/
theorem callTrapsInVideo : Obligations.CallTrapsInVideo := by
  intro s target
  rcases push16_cases s (s.pc + 3) with ⟨h2, hf⟩ | ⟨h2, h1, hf⟩ | ⟨h2, h1, -⟩
  · exact ⟨fun _ => execCall_of_push_fault target hf, fun h => absurd h2 h⟩
  · exact ⟨fun h => absurd h h2, fun _ _ => execCall_of_push_fault target hf⟩
  · exact ⟨fun h => absurd h h2, fun _ h => absurd h h1⟩

/-- Settles O21: a push into plain cells is the word write, whose cells differ. -/
theorem callPushesReturnAddress : Obligations.CallPushesReturnAddress := by
  intro s target x y hwf hx hy
  obtain ⟨-, hram, -⟩ := hwf
  rw [← push_addr] at hy
  have hne := State.access_succ_ne hram hx hy
  have hpush : push16 s (s.pc + 3) = .ok (((s.setSp (s.sp - 2)).writeCell x (s.pc + 3).low).writeCell y
      (s.pc + 3).high) := memWrite16_cells (s := s.setSp (s.sp - 2)) hx hy _
  refine ⟨hne, _, execCall_of_push target hpush, rfl, by simp, ?_, ?_, ?_, ?_, fun z hzx hzy => ?_⟩
  · simp [State.readCell_writeCell_writeCell _ hne, Word.toNat_low]
  · simp [Word.toNat_high]
  · exact busPeek_of_cell (by simpa using hx)
  · exact busPeek_of_cell (by simpa using hy)
  · simp [State.readCell_writeCell_other _ _ hzx, State.readCell_writeCell_other _ _ hzy]

/-! ### The frame of CALL -/

section
variable {s t : State} {addr : Word} {v : Byte}

/-- A write leaves every cell but the stored one. -/
theorem busWrite_readCell (h : busWrite s addr v = .ok t) {z : Loc}
    (hz : storedCell s addr ≠ some z) : t.readCell z = s.readCell z := by
  rcases busWrite_cases s addr v with ⟨-, h'⟩ | ⟨-, h'⟩ | ⟨loc, hacc, h'⟩ | ⟨i, hacc, h'⟩ | ⟨-, h'⟩ <;>
    rw [h'] at h <;> cases h
  · rw [State.writeMapper_readCell]
  · exact State.readCell_writeCell_other _ _ fun e => hz (by simp only [storedCell, hacc, e])
  · exact State.readCell_writeCell_other _ _ fun e => hz (by simp only [storedCell, hacc, e])
  · rfl

theorem busWrite_cart (h : busWrite s addr v = .ok t) : t.cart = s.cart := by
  rw [busWrite_keeps h]

/-- Which cell an address stores to depends on the cartridge and the mapper registers. -/
theorem storedCell_congr (hc : t.cart = s.cart) (hm : t.mapper = s.mapper) (addr : Word) :
    storedCell t addr = storedCell s addr := by
  unfold storedCell
  rw [State.access_congr hc hm]

/-- A read gives the same where the access is the same and the cell, if any, too. -/
theorem busPeek_eq_of_storedCell (hc : t.cart = s.cart) (hm : t.mapper = s.mapper)
    (hcell : ∀ z, storedCell s addr = some z → t.readCell z = s.readCell z) :
    busPeek t addr = busPeek s addr := by
  unfold busPeek
  rw [State.access_congr hc hm, hc]
  cases hacc : s.access addr with
  | cell loc => simp only [hcell loc (by simp only [storedCell, hacc])]
  | nibble i => simp only [hcell (.eram i) (by simp only [storedCell, hacc])]
  | rom | timer | fixed | video => rfl

/-- No cell lies in the ROM range. -/
theorem storedCell_rom (h : addr.toNat < 0x8000) : storedCell s addr = none := by
  simp only [storedCell, s.access_rom h]

end

/-- The address of the high byte, where the low byte went to the ROM range, is there too or in the video
range. -/
theorem push_high_rom {sp : Word} (h2 : (sp - 2).toNat < 0x8000) (h1 : ¬ InVideo (sp - 1)) :
    (sp - 1).toNat < 0x8000 := by
  have hsucc : (sp - 2 + 1).toNat = ((sp - 2).toNat + 1) % 65536 := BitVec.toNat_add ..
  rw [push_addr] at hsucc
  exact Nat.lt_of_not_le fun hge => h1 ⟨hge, by omega⟩

/-- A push leaves every cell but those of its two bytes. If its low byte was a register write, so that
the windows may have moved, its high byte is no store. -/
theorem push16_readCell {s t : State} {v : Word} (h : push16 s v = .ok t) {z : Loc}
    (h2 : storedCell s (s.sp - 2) ≠ some z) (h1 : storedCell s (s.sp - 1) ≠ some z) :
    t.readCell z = s.readCell z := by
  rcases push16_cases s v with ⟨-, hf⟩ | ⟨-, -, hf⟩ | ⟨-, hv1, u, w, hlow, hhigh, hn⟩
  · rw [hf] at h; cases h
  · rw [hf] at h; cases h
  rw [hn] at h
  cases h
  have hu : u.readCell z = s.readCell z := by
    simpa using busWrite_readCell hlow (z := z) h2
  have hcart : u.cart = s.cart := (busWrite_cart hlow).trans (s.setSp_cart _)
  refine (busWrite_readCell hhigh ?_).trans hu
  by_cases hm : u.mapper = s.mapper
  · rwa [storedCell_congr hcart hm]
  · obtain ⟨hrom, -⟩ := busWrite_mapper_ne hlow hm
    rw [storedCell_rom (push_high_rom hrom hv1)]
    simp

/-- A push changes no mapper register in generation 0 or outside the ROM range. -/
theorem push16_mapper_eq {s t : State} {v : Word} (h : push16 s v = .ok t)
    (hquiet : s.mapper = .gen0 ∨ (0x8000 ≤ (s.sp - 2).toNat ∧ 0x8000 ≤ (s.sp - 1).toNat)) :
    t.mapper = s.mapper := by
  refine Classical.byContradiction fun hne => ?_
  obtain ⟨hgen, hrom⟩ := push16_mapper_ne h hne
  rcases hquiet with hgen0 | ⟨h2, h1⟩
  · exact hgen hgen0
  · omega

/-- Settles O26: CALL is its push, whose frame is that of two bus writes. -/
theorem callFrame : Obligations.CallFrame := by
  intro s t target h
  obtain ⟨w, hw, rfl⟩ := execCall_next h
  rw [call_next_eq target hw]
  refine ⟨?_, fun z h2 h1 => ?_, fun hquiet => ?_⟩
  · rw [push16_keeps hw]
  · have hcell := push16_readCell hw h2 h1
    exact hcell
  · have hmapper := push16_mapper_eq hw hquiet
    refine ⟨hmapper, fun addr haddr => ?_⟩
    have hcart : w.cart = s.cart := by rw [push16_keeps hw]
    refine busPeek_eq_of_storedCell (t := { w with pc := target, cyc := _ }) hcart hmapper
      fun z hz => ?_
    rcases haddr with hnone | ⟨hne2, hne1⟩
    · rw [hnone] at hz; cases hz
    · have hcell := push16_readCell hw (hz ▸ hne2.symm) (hz ▸ hne1.symm)
      exact hcell

end Sys2Proof.Machine

/-! ## What does not steer the machine: `PC` on the bus, `F` and `CYC` everywhere (R28, R30, R261) -/

namespace Sys2Proof.Machine

/-! ### Changes of the state that the bus does not see -/

/-- A change of the state that leaves storage and the count of draws alone and commutes with every
update that a bus transaction makes. -/
structure BusNeutral (φ : State → State) : Prop where
  sameMemory (s : State) : s.SameMemory (φ s)
  draws (s : State) : (φ s).draws = s.draws
  drawn (s : State) : φ s.drawn = (φ s).drawn
  writeCell (s : State) (loc : Loc) (v : Byte) : φ (s.writeCell loc v) = (φ s).writeCell loc v
  writeMapper (s : State) (addr : Word) (v : Byte) :
    φ (s.writeMapper addr v) = (φ s).writeMapper addr v

theorem busNeutral_setPc (v : Word) : BusNeutral (State.setPc · v) where
  sameMemory s := ⟨rfl, rfl, rfl, rfl, rfl, rfl, rfl, rfl⟩
  draws _ := rfl
  drawn _ := rfl
  writeCell s loc v := by cases loc <;> rfl
  writeMapper _ _ _ := rfl

namespace BusNeutral
variable {φ : State → State}

theorem access_eq (hφ : BusNeutral φ) (s : State) (addr : Word) :
    (φ s).access addr = s.access addr := by
  obtain ⟨-, -, -, -, -, -, hm, hc⟩ := hφ.sameMemory s
  exact State.access_congr hc hm addr

/-- A read runs alike under the change. -/
theorem busRead_eq (hφ : BusNeutral φ) (s : State) (addr : Word) :
    busRead (φ s) addr = (busRead s addr).map (Prod.map id φ) := by
  have hpeek := busPeek_congr (hφ.sameMemory s) addr
  unfold busRead
  rw [hpeek]
  cases busPeek s addr with
  | error x => rfl
  | ok o =>
    cases o with
    | some v => rfl
    | none => rw [hφ.draws, ← hφ.drawn]; rfl

/-- A write runs alike under the change. -/
theorem busWrite_eq (hφ : BusNeutral φ) (s : State) (addr : Word) (v : Byte) :
    busWrite (φ s) addr v = (busWrite s addr v).map φ := by
  unfold busWrite
  rw [hφ.access_eq]
  cases s.access addr with
  | rom phys => exact congrArg Except.ok (hφ.writeMapper s addr v).symm
  | cell loc => exact congrArg Except.ok (hφ.writeCell s loc v).symm
  | nibble i => exact congrArg Except.ok (hφ.writeCell s (.eram i) (v &&& 0x0F)).symm
  | timer | fixed | video => rfl

theorem memRead16_eq (hφ : BusNeutral φ) (s : State) (addr : Word) :
    memRead16 (φ s) addr = (memRead16 s addr).map (Prod.map id φ) := by
  unfold memRead16
  rw [hφ.busRead_eq]
  cases busRead s addr with
  | error x => rfl
  | ok p =>
    simp only [Except.map, Prod.map, hφ.busRead_eq]
    cases busRead p.2 (addr + 1) <;> rfl

theorem memWrite16_eq (hφ : BusNeutral φ) (s : State) (addr v : Word) :
    memWrite16 (φ s) addr v = (memWrite16 s addr v).map φ := by
  unfold memWrite16
  rw [hφ.busWrite_eq]
  cases busWrite s addr v.low with
  | error x => rfl
  | ok u => exact hφ.busWrite_eq u (addr + 1) v.high

theorem readBytes_eq (hφ : BusNeutral φ) (n : Nat) (s : State) (addr : Word) :
    readBytes n (φ s) addr = (readBytes n s addr).map (Prod.map id φ) := by
  induction n generalizing s addr with
  | zero => rfl
  | succ n ih =>
    unfold readBytes
    rw [hφ.busRead_eq]
    cases busRead s addr with
    | error x => rfl
    | ok p =>
      simp only [Except.map, Prod.map, ih]
      cases readBytes n p.2 (addr + 1) <;> rfl

end BusNeutral

/-! ### Changes of the state that no instruction but the arithmetic ones sees -/

/-- A change that the bus does not see and that leaves alone, and commutes with the update of, all that
the fetch and the instructions without arithmetic read and write. -/
structure Passive (φ : State → State) : Prop extends BusNeutral φ where
  fault (s : State) : (φ s).fault = s.fault
  params (s : State) : (φ s).params = s.params
  pc (s : State) : (φ s).pc = s.pc
  sp (s : State) : (φ s).sp = s.sp
  a (s : State) : (φ s).a = s.a
  setPc (s : State) (v : Word) : φ (s.setPc v) = (φ s).setPc v
  setSp (s : State) (v : Word) : φ (s.setSp v) = (φ s).setSp v
  setA (s : State) (v : Byte) : φ (s.setA v) = (φ s).setA v
  writeOp16 (s : State) (p : Op16) (v : Word) : φ (s.writeOp16 p v) = (φ s).writeOp16 p v
  retire (s : State) (op : Byte) (len : Nat) : φ (s.retire op len) = (φ s).retire op len

/-- The change of the next state, if there is one. -/
def mapNext (φ : State → State) :
    Host.Outcome State Fault Refusal → Host.Outcome State Fault Refusal
  | .next t => .next (φ t)
  | .fault x => .fault x
  | .refused r => .refused r

namespace Passive
variable {φ : State → State}

/-! #### The fetch -/

theorem fetch8_eq (hφ : Passive φ) (s : State) :
    fetch8 (φ s) = (fetch8 s).map (Prod.map id φ) := by
  unfold fetch8
  rw [hφ.pc, hφ.busRead_eq]
  cases busRead s s.pc with
  | error x => rfl
  | ok p => simp only [Except.map, Prod.map, hφ.setPc, id]

theorem fetch16_eq (hφ : Passive φ) (s : State) :
    fetch16 (φ s) = (fetch16 s).map (Prod.map id φ) := by
  unfold fetch16
  rw [hφ.pc, hφ.memRead16_eq]
  cases memRead16 s s.pc with
  | error x => rfl
  | ok p => simp only [Except.map, Prod.map, hφ.setPc, id]

theorem fetchImm16_eq (hφ : Passive φ) (s : State) :
    fetchImm16 (φ s) = (fetchImm16 s).map (Prod.map id φ) := by
  unfold fetchImm16
  rw [hφ.params]
  cases s.params.imm16Order with
  | little => exact hφ.fetch16_eq s
  | big =>
    simp only [hφ.fetch8_eq]
    cases fetch8 s with
    | error x => rfl
    | ok p =>
      simp only [Except.map, Prod.map, hφ.fetch8_eq]
      cases fetch8 p.2 <;> rfl

theorem fetchOperand_eq (hφ : Passive φ) (s : State) (row : OpRow) :
    fetchOperand (φ s) row = (fetchOperand s row).map (Prod.map id φ) := by
  unfold fetchOperand
  cases row with
  | op i => rfl
  | d8 k => simp only [hφ.fetch8_eq]; cases fetch8 s <;> rfl
  | ld16 k => simp only [hφ.fetchImm16_eq]; cases fetchImm16 s <;> rfl
  | d16 k => simp only [hφ.fetch16_eq]; cases fetch16 s <;> rfl

theorem fetchInstr_eq (hφ : Passive φ) (s : State) :
    fetchInstr (φ s) = (fetchInstr s).map (Prod.map id φ) := by
  unfold fetchInstr
  rw [hφ.fault, hφ.pc, hφ.fetch8_eq]
  cases s.fault with
  | some x => rfl
  | none =>
    cases fetch8 s with
    | error x => rfl
    | ok p =>
      simp only [Except.map, Prod.map, id]
      cases opRow p.1 with
      | none => rfl
      | some row =>
        simp only [hφ.fetchOperand_eq]
        cases fetchOperand p.2 row with
        | error x => rfl
        | ok q => simp only [Except.map, Prod.map, hφ.setPc]; rfl

/-! #### The instructions without arithmetic -/

theorem loadPair_eq (hφ : Passive φ) (op : Byte) (p : Op16) (v : Word) (s : State) :
    loadPair op p v (φ s) = mapNext φ (loadPair op p v s) := by
  simp only [loadPair, mapNext, hφ.retire, hφ.writeOp16]

theorem execCall_eq (hφ : Passive φ) (target : Word) (s : State) :
    execCall target (φ s) = mapNext φ (execCall target s) := by
  unfold execCall push16
  rw [hφ.sp, hφ.pc, ← hφ.setSp, hφ.memWrite16_eq]
  cases memWrite16 (s.setSp (s.sp - 2)) (s.sp - 2) (s.pc + 3) with
  | error x => rfl
  | ok w => simp only [Except.map, mapNext, hφ.setPc, hφ.retire]

theorem execLdhStore_eq (hφ : Passive φ) (a8 : Byte) (s : State) :
    execLdhStore a8 (φ s) = mapNext φ (execLdhStore a8 s) := by
  unfold execLdhStore
  rw [hφ.a, hφ.busWrite_eq]
  cases busWrite s (ldhAddr a8) s.a with
  | error x => rfl
  | ok w => simp only [Except.map, mapNext, hφ.retire]

theorem execLdhLoad_eq (hφ : Passive φ) (a8 : Byte) (s : State) :
    execLdhLoad a8 (φ s) = mapNext φ (execLdhLoad a8 s) := by
  unfold execLdhLoad
  rw [hφ.busRead_eq]
  cases busRead s (ldhAddr a8) with
  | error x => rfl
  | ok p => simp only [Except.map, Prod.map, mapNext, hφ.retire, hφ.setA, id]

/-- An instruction that does not write `F`, which is one without arithmetic, runs alike under the
change. -/
theorem exec_eq (hφ : Passive φ) {i : Instr} (h : .f ∉ writtenRegs i) (s : State) :
    exec i (φ s) = mapNext φ (exec i s) := by
  cases meaning i with
  | nop => simp only [exec_nop, mapNext, hφ.retire]
  | jp target => simp only [exec_jp, mapNext, hφ.setPc, hφ.retire]
  | call target => exact hφ.execCall_eq target s
  | ldhStore a8 => exact hφ.execLdhStore_eq a8 s
  | ldhLoad a8 => exact hφ.execLdhLoad_eq a8 s
  | loadPair op p v he => rw [he, he]; exact hφ.loadPair_eq op p v s
  | addHl _ _ _ hregs | accumulate _ _ _ _ hregs | accumulateImm _ _ _ _ hregs =>
    exact absurd (by simp [hregs]) h

end Passive

/-- An instruction that writes `F` is one of the three arithmetic operations (R28). -/
theorem exec_of_writes_f {i : Instr} (h : .f ∈ writtenRegs i) :
    (∃ op p, ∀ s, exec i s = addHl op p s) ∨ (∃ alu op x, ∀ s, exec i s = accumulate alu op x s) ∨
    ∃ alu op d8, ∀ s, exec i s = accumulateImm alu op d8 s := by
  cases meaning i with
  | nop | jp | call | ldhStore | ldhLoad => simp [writtenRegs] at h
  | loadPair _ p _ _ hregs => rw [hregs] at h; cases p <;> simp [Op16.regs] at h
  | addHl op p he => exact .inl ⟨op, p, he⟩
  | accumulate alu op x he => exact .inr (.inl ⟨alu, op, x, he⟩)
  | accumulateImm alu op d8 he => exact .inr (.inr ⟨alu, op, d8, he⟩)

/-! ### The cycle counter (R30, R261) -/

/-- The state with a counter higher by `n`. -/
def State.addCyc (n : Nat) (s : State) : State := { s with cyc := s.cyc + n }

theorem passive_addCyc (n : Nat) : Passive (State.addCyc n) where
  sameMemory _ := ⟨rfl, rfl, rfl, rfl, rfl, rfl, rfl, rfl⟩
  draws _ := rfl
  drawn _ := rfl
  writeCell s loc v := by cases loc <;> rfl
  writeMapper _ _ _ := rfl
  fault _ := rfl
  params _ := rfl
  pc _ := rfl
  sp _ := rfl
  a _ := rfl
  setPc _ _ := rfl
  setSp _ _ := rfl
  setA _ _ := rfl
  writeOp16 s p v := by cases p <;> rfl
  retire s op len := by simp only [State.addCyc, State.retire, Nat.add_right_comm]

theorem State.addCyc_commit8 (n : Nat) (s : State) (r : AluResult 8) :
    (s.addCyc n).commit8 r = (s.commit8 r).addCyc n := rfl

theorem accumulateImm_addCyc (alu : Byte → Byte → AluResult 8) (op d8 : Byte) (n : Nat) (s : State) :
    accumulateImm alu op d8 (s.addCyc n) = mapNext (State.addCyc n) (accumulateImm alu op d8 s) := by
  simp only [accumulateImm, mapNext, (passive_addCyc n).retire, (passive_addCyc n).a,
    State.addCyc_commit8]

/-- An operand is read alike under a higher counter. -/
theorem State.readOp8_addCyc (n : Nat) (s : State) (x : Op8) :
    (s.addCyc n).readOp8 x = (s.readOp8 x).map (Prod.map id (State.addCyc n)) := by
  cases x with
  | mem => exact (passive_addCyc n).busRead_eq s s.hl
  | _ => rfl

theorem accumulate_addCyc (alu : Byte → Byte → AluResult 8) (op : Byte) (x : Op8) (n : Nat)
    (s : State) :
    accumulate alu op x (s.addCyc n) = mapNext (State.addCyc n) (accumulate alu op x s) := by
  unfold accumulate
  rw [State.readOp8_addCyc]
  cases s.readOp8 x with
  | error f => rfl
  | ok p =>
    simp only [Except.map, Prod.map, mapNext, (passive_addCyc n).retire, (passive_addCyc n).a,
      State.addCyc_commit8, id]

theorem addHl_addCyc (op : Byte) (p : Op16) (n : Nat) (s : State) :
    addHl op p (s.addCyc n) = mapNext (State.addCyc n) (addHl op p s) := by
  have hread : (s.addCyc n).readOp16 p = s.readOp16 p := by cases p <;> rfl
  simp only [addHl, hread, mapNext, (passive_addCyc n).retire]
  rfl

theorem exec_addCyc (i : Instr) (n : Nat) (s : State) :
    exec i (s.addCyc n) = mapNext (State.addCyc n) (exec i s) := by
  by_cases hf : .f ∈ writtenRegs i
  · rcases exec_of_writes_f hf with ⟨op, p, he⟩ | ⟨alu, op, x, he⟩ | ⟨alu, op, d8, he⟩
    · rw [he, he, addHl_addCyc]
    · rw [he, he, accumulate_addCyc]
    · rw [he, he, accumulateImm_addCyc]
  · exact (passive_addCyc n).exec_eq hf s

theorem step_addCyc (n : Nat) (s : State) :
    step (s.addCyc n) = mapNext (State.addCyc n) (step s) := by
  unfold step
  rw [(passive_addCyc n).fetchInstr_eq]
  cases fetchInstr s with
  | error x => rfl
  | ok p => exact exec_addCyc p.1 n p.2

/-- Settles O29: neither the fetch nor an instruction reads the counter. -/
theorem cycleCounterSteersNothing : Obligations.CycleCounterSteersNothing := by
  intro s n
  refine (step_addCyc n s).trans ?_
  cases step s <;> rfl

/-! ### The flags (R28) -/

/-- The state with another `F`. -/
def State.setF (g : Byte) (s : State) : State := { s with f := g }

theorem passive_setF (g : Byte) : Passive (State.setF g) where
  sameMemory _ := ⟨rfl, rfl, rfl, rfl, rfl, rfl, rfl, rfl⟩
  draws _ := rfl
  drawn _ := rfl
  writeCell s loc v := by cases loc <;> rfl
  writeMapper _ _ _ := rfl
  fault _ := rfl
  params _ := rfl
  pc _ := rfl
  sp _ := rfl
  a _ := rfl
  setPc _ _ := rfl
  setSp _ _ := rfl
  setA _ _ := rfl
  writeOp16 s p v := by cases p <;> rfl
  retire _ _ _ := rfl

/-- `WriteFlags` forgets the old `F`. -/
theorem State.setF_commit8 (g : Byte) (s : State) (r : AluResult 8) :
    (s.setF g).commit8 r = s.commit8 r := rfl

theorem State.readOp8_setF (g : Byte) (s : State) (x : Op8) :
    (s.setF g).readOp8 x = (s.readOp8 x).map (Prod.map id (State.setF g)) := by
  cases x with
  | mem => exact (passive_setF g).busRead_eq s s.hl
  | _ => rfl

theorem accumulate_setF (alu : Byte → Byte → AluResult 8) (op : Byte) (x : Op8) (g : Byte)
    (s : State) : accumulate alu op x (s.setF g) = accumulate alu op x s := by
  unfold accumulate
  rw [State.readOp8_setF]
  cases s.readOp8 x with
  | error f => rfl
  | ok p => simp only [Except.map, Prod.map, (passive_setF g).a, State.setF_commit8, id]

/-- With `ADD16_Z = from_result` the 16-bit add does not read the old Zero flag (R162). -/
theorem aluAdd16_fromResult (a b : Word) (z z' : Bool) :
    aluAdd16 .fromResult a b z = aluAdd16 .fromResult a b z' := rfl

theorem addHl_setF (op : Byte) (p : Op16) (g : Byte) {s : State}
    (hmode : s.params.add16Z = .fromResult) : addHl op p (s.setF g) = addHl op p s := by
  have hread : (s.setF g).readOp16 p = s.readOp16 p := by cases p <;> rfl
  have hhl : (s.setF g).hl = s.hl := rfl
  unfold addHl
  rw [hread, hhl, (passive_setF g).params, hmode,
    aluAdd16_fromResult s.hl (s.readOp16 p) ((s.setF g).flag .z) (s.flag .z)]
  rfl

/-- An instruction that writes `F` does the same from every `F`. -/
theorem exec_setF_of_writes {i : Instr} (h : .f ∈ writtenRegs i) (g : Byte) {s : State}
    (hmode : s.params.add16Z = .fromResult) : exec i (s.setF g) = exec i s := by
  rcases exec_of_writes_f h with ⟨op, p, he⟩ | ⟨alu, op, x, he⟩ | ⟨alu, op, d8, he⟩
  · rw [he, he, addHl_setF op p g hmode]
  · rw [he, he, accumulate_setF]
  · rw [he, he]; rfl

theorem exec_f_of_keeps {i : Instr} {s t : State} (h : exec i s = .next t)
    (hf : .f ∉ writtenRegs i) : t.f = s.f := by
  have hreg : t.reg .f = s.reg .f := exec_reg_eq h hf
  have hnat := congrArg BitVec.toNat hreg
  have ht := t.f.isLt
  have hs := s.f.isLt
  simp only [State.reg, BitVec.toNat_setWidth] at hnat
  exact BitVec.eq_of_toNat_eq (by omega)

/-- Settles O28: an instruction either overwrites `F` without reading it or does not touch it. -/
theorem flagsSteerNothing : Obligations.FlagsSteerNothing := by
  intro i s g hmode
  have hset : ({ s with f := g } : State) = s.setF g := rfl
  rw [hset]
  by_cases hf : .f ∈ writtenRegs i
  · rw [exec_setF_of_writes hf g hmode]
    cases h : exec i s with
    | next t => exact ⟨rfl, .inr rfl⟩
    | fault x => rfl
    | refused r => exact exec_ne_refused i s r h
  · rw [(passive_setF g).exec_eq hf]
    cases h : exec i s with
    | next t => exact ⟨rfl, .inl ⟨exec_f_of_keeps h hf, rfl⟩⟩
    | fault x => rfl
    | refused r => exact exec_ne_refused i s r h

end Sys2Proof.Machine

/-! ## The fetch and the fault record (R34, R127, R132, R221 to R226) -/

namespace Sys2Proof.Machine

/-! ### Bytes in a row -/

section
variable {s t : State} {addr : Word} {n : Nat} {bs : List Byte}

theorem readBytes_succ_ok (h : readBytes (n + 1) s addr = .ok (bs, t)) :
    ∃ b u bs', busRead s addr = .ok (b, u) ∧ readBytes n u (addr + 1) = .ok (bs', t) ∧
      bs = b :: bs' := by
  unfold readBytes at h
  split at h
  · cases h
  · next b u hread =>
    split at h
    · cases h
    · next bs' u' hrest => cases h; exact ⟨b, u, bs', hread, hrest, rfl⟩

theorem readBytes_length (h : readBytes n s addr = .ok (bs, t)) : bs.length = n := by
  induction n generalizing s addr bs with
  | zero => cases h; rfl
  | succ n ih =>
    obtain ⟨b, u, bs', -, hrest, rfl⟩ := readBytes_succ_ok h
    rw [List.length_cons, ih hrest]

theorem busRead_eq_draws {b : Byte} (h : busRead s addr = .ok (b, t)) :
    t = { s with draws := t.draws } := by
  rcases (busRead_next h).2 with rfl | rfl <;> rfl

theorem readBytes_eq_draws (h : readBytes n s addr = .ok (bs, t)) :
    t = { s with draws := t.draws } := by
  induction n generalizing s addr bs with
  | zero => cases h; rfl
  | succ n ih =>
    obtain ⟨b, u, bs', hread, hrest, -⟩ := readBytes_succ_ok h
    rw [ih hrest, busRead_eq_draws hread]

/-- Where every address has a byte to give, nothing is drawn. -/
theorem readBytes_no_draw (h : readBytes n s addr = .ok (bs, t))
    (hpeek : ∀ k < n, busPeek s (addr + BitVec.ofNat 16 k) ≠ .ok none) : t = s := by
  induction n generalizing addr bs with
  | zero => cases h; rfl
  | succ n ih =>
    obtain ⟨b, u, bs', hread, hrest, -⟩ := readBytes_succ_ok h
    rcases readsChangeNothing s u addr b hread with ⟨-, rfl⟩ | ⟨hnone, -⟩
    · refine ih hrest fun k hk => ?_
      have hk := hpeek (k + 1) (by omega)
      rwa [Nat.add_comm k 1, BitVec.ofNat_add, ← BitVec.add_assoc] at hk
    · exact absurd (by simpa using hnone) (hpeek 0 (by omega))

/-- If the first `n` bytes can be read and byte `n` lies in the video range, reading more than `n`
faults there. -/
theorem readBytes_video {m : Nat} (h : readBytes n s addr = .ok (bs, t)) (hm : n < m)
    (hv : InVideo (addr + BitVec.ofNat 16 n)) :
    readBytes m s addr = .error (.videoAccess (addr + BitVec.ofNat 16 n) .read) := by
  induction n generalizing s addr bs m with
  | zero =>
    obtain ⟨m, rfl⟩ := Nat.exists_eq_succ_of_ne_zero (Nat.ne_of_gt hm)
    have hzero : addr + BitVec.ofNat 16 0 = addr := by simp
    rw [hzero] at hv ⊢
    simp only [readBytes, busRead_video hv]
  | succ n ih =>
    obtain ⟨m, rfl⟩ := Nat.exists_eq_succ_of_ne_zero (Nat.ne_zero_of_lt hm)
    obtain ⟨b, u, bs', hread, hrest, -⟩ := readBytes_succ_ok h
    have hsucc : addr + BitVec.ofNat 16 (n + 1) = addr + 1 + BitVec.ofNat 16 n := by
      rw [Nat.add_comm n 1, BitVec.ofNat_add, ← BitVec.add_assoc]; rfl
    rw [hsucc] at hv ⊢
    simp only [readBytes, hread, ih hrest (Nat.lt_of_succ_lt_succ hm) hv]

end

/-! ### The operand fetch of a row is its bytes in a row (R130, R131) -/

section
variable {s t : State} {addr : Word} {bs : List Byte} {x : Fault}

theorem readBytes_one_ok (h : readBytes 1 s addr = .ok (bs, t)) :
    ∃ b, busRead s addr = .ok (b, t) ∧ bs = [b] := by
  obtain ⟨b, u, bs', hread, hrest, rfl⟩ := readBytes_succ_ok h
  cases hrest
  exact ⟨b, hread, rfl⟩

theorem readBytes_two_ok (h : readBytes 2 s addr = .ok (bs, t)) :
    ∃ b1 u b2, busRead s addr = .ok (b1, u) ∧ busRead u (addr + 1) = .ok (b2, t) ∧
      bs = [b1, b2] := by
  obtain ⟨b1, u, bs', hread, hrest, rfl⟩ := readBytes_succ_ok h
  obtain ⟨b2, hread2, rfl⟩ := readBytes_one_ok hrest
  exact ⟨b1, u, b2, hread, hread2, rfl⟩

theorem readBytes_succ_error {n : Nat} (h : readBytes (n + 1) s addr = .error x) :
    busRead s addr = .error x ∨
    ∃ b u, busRead s addr = .ok (b, u) ∧ readBytes n u (addr + 1) = .error x := by
  unfold readBytes at h
  split at h
  · next hread => cases h; exact .inl hread
  · next b u hread =>
    split at h
    · next hrest => cases h; exact .inr ⟨b, u, hread, hrest⟩
    · cases h

theorem readBytes_one_error (h : readBytes 1 s addr = .error x) : busRead s addr = .error x := by
  rcases readBytes_succ_error h with hread | ⟨b, u, -, hrest⟩
  · exact hread
  · cases hrest

theorem fetch8_of_busRead {b : Byte} (h : busRead s s.pc = .ok (b, t)) :
    fetch8 s = .ok (b, t.setPc (s.pc + 1)) := by
  simp only [fetch8, h]

theorem fetch8_of_error (h : busRead s s.pc = .error x) : fetch8 s = .error x := by
  simp only [fetch8, h]

/-- The fetch after a fetched byte reads the byte at the next address. -/
theorem busRead_next_pc {b : Byte} (h : busRead s addr = .ok (b, t)) (pc : Word) :
    busRead (s.setPc pc) addr = .ok (b, t.setPc pc) := by
  rw [busRead_setPc, h]

theorem fetch16_of_readBytes (h : readBytes 2 s s.pc = .ok (bs, t)) :
    ∃ b1 b2, bs = [b1, b2] ∧ fetch16 s = .ok (imm16 .little b1 b2, t.setPc (s.pc + 2)) := by
  obtain ⟨b1, u, b2, h1, h2, rfl⟩ := readBytes_two_ok h
  exact ⟨b1, b2, rfl, by simp only [fetch16, memRead16, h1, h2, imm16]⟩

theorem fetch16_of_error (h : readBytes 2 s s.pc = .error x) : fetch16 s = .error x := by
  rcases readBytes_succ_error h with h1 | ⟨b, u, h1, h2⟩
  · simp only [fetch16, memRead16, h1]
  · simp only [fetch16, memRead16, h1, readBytes_one_error h2]

theorem fetchImm16_of_readBytes (h : readBytes 2 s s.pc = .ok (bs, t)) :
    ∃ b1 b2 pc, bs = [b1, b2] ∧
      fetchImm16 s = .ok (imm16 s.params.imm16Order b1 b2, t.setPc pc) := by
  cases horder : s.params.imm16Order with
  | little =>
    obtain ⟨b1, b2, rfl, h16⟩ := fetch16_of_readBytes h
    exact ⟨b1, b2, s.pc + 2, rfl, by simp only [fetchImm16, horder, h16]⟩
  | big =>
    obtain ⟨b1, u, b2, h1, h2, rfl⟩ := readBytes_two_ok h
    have h2 := fetch8_of_busRead (s := u.setPc (s.pc + 1)) (busRead_next_pc h2 (s.pc + 1))
    exact ⟨b1, b2, _, rfl, by simp only [fetchImm16, horder, fetch8_of_busRead h1, h2]; rfl⟩

theorem fetchImm16_of_error (h : readBytes 2 s s.pc = .error x) : fetchImm16 s = .error x := by
  cases horder : s.params.imm16Order with
  | little => simp only [fetchImm16, horder, fetch16_of_error h]
  | big =>
    rcases readBytes_succ_error h with h1 | ⟨b, u, h1, h2⟩
    · simp only [fetchImm16, horder, fetch8_of_error h1]
    · have h2 : fetch8 (u.setPc (s.pc + 1)) = .error x :=
        fetch8_of_error (by rw [State.setPc_pc, busRead_setPc, readBytes_one_error h2])
      simp only [fetchImm16, horder, fetch8_of_busRead h1, h2]

/-- When the operand bytes can be read, the operand fetch is their decoding. -/
theorem fetchOperand_of_readBytes {row : OpRow} {op : Byte} {i : Instr}
    (h : readBytes row.size s s.pc = .ok (bs, t))
    (hdec : decodeOperand s.params.imm16Order op row bs = .ok (i, [])) :
    ∃ pc, fetchOperand s row = .ok (i, t.setPc pc) := by
  cases row with
  | op j => cases h; cases hdec; exact ⟨s.pc, rfl⟩
  | d8 k =>
    obtain ⟨b, hread, rfl⟩ := readBytes_one_ok h
    cases hdec
    exact ⟨s.pc + 1, by simp only [fetchOperand, fetch8_of_busRead hread]⟩
  | ld16 k =>
    obtain ⟨b1, b2, pc, rfl, himm⟩ := fetchImm16_of_readBytes h
    cases hdec
    exact ⟨pc, by simp only [fetchOperand, himm]⟩
  | d16 k =>
    obtain ⟨b1, b2, rfl, h16⟩ := fetch16_of_readBytes h
    cases hdec
    exact ⟨s.pc + 2, by simp only [fetchOperand, h16]⟩

/-- When an operand byte cannot be read, the operand fetch faults. -/
theorem fetchOperand_of_error {row : OpRow} (h : readBytes row.size s s.pc = .error x) :
    fetchOperand s row = .error x := by
  cases row with
  | op i => cases h
  | d8 k => simp only [fetchOperand, fetch8_of_error (readBytes_one_error h)]
  | ld16 k => simp only [fetchOperand, fetchImm16_of_error h]
  | d16 k => simp only [fetchOperand, fetch16_of_error h]

end

/-! ### The step from the bytes at `PC` -/

section
variable {s t u : State} {op : Byte} {x : Fault}

theorem step_of_operand {row : OpRow} {i : Instr} {pc : Word} (hfault : s.fault = none)
    (hop : busRead s s.pc = .ok (op, u)) (hrow : opRow op = some row)
    (hfetch : fetchOperand (u.setPc (s.pc + 1)) row = .ok (i, t.setPc pc)) :
    step s = exec i (t.setPc s.pc) := by
  simp only [step, fetchInstr, hfault, fetch8_of_busRead hop, hrow, hfetch]
  rfl

theorem step_of_operand_error {row : OpRow} (hfault : s.fault = none)
    (hop : busRead s s.pc = .ok (op, u)) (hrow : opRow op = some row)
    (hfetch : fetchOperand (u.setPc (s.pc + 1)) row = .error x) : step s = .fault x := by
  simp only [step, fetchInstr, hfault, fetch8_of_busRead hop, hrow, hfetch]

theorem step_of_no_row (hfault : s.fault = none) (hop : busRead s s.pc = .ok (op, u))
    (hrow : opRow op = none) : step s = .fault (.unsupportedOpcode op s.pc) := by
  simp only [step, fetchInstr, hfault, fetch8_of_busRead hop, hrow]

theorem State.setPc_self (h : t.pc = s.pc) : t.setPc s.pc = t := by
  rw [← h]; rfl

end

/-- Settles O5: the bytes read are the opcode and the operands of its row, so the fetch decodes them. -/
theorem stepRunsFetchedInstruction : Obligations.StepRunsFetchedInstruction := by
  intro s t n bs i hfault hread hdec
  have hdraws := readBytes_eq_draws hread
  refine ⟨?_, hdraws, readBytes_no_draw hread⟩
  cases bs with
  | nil => cases hdec
  | cons op operands =>
    cases hrow : opRow op with
    | none => simp [decode, hrow] at hdec
    | some row =>
      rw [decode_cons hrow] at hdec
      have hlen := decodeOperand_length hdec
      obtain rfl : n = row.size + 1 := by rw [← readBytes_length hread, ← hlen]; rfl
      obtain ⟨b, u, bs', hop, hrest, hcons⟩ := readBytes_succ_ok hread
      cases hcons
      have hparams : (u.setPc (s.pc + 1)).params = s.params := by rw [busRead_eq_draws hop]; rfl
      have hrest' : readBytes row.size (u.setPc (s.pc + 1)) (s.pc + 1) =
          .ok (operands, t.setPc (s.pc + 1)) := by
        rw [(busNeutral_setPc (s.pc + 1)).readBytes_eq, hrest]; rfl
      obtain ⟨pc, hfetch⟩ := fetchOperand_of_readBytes hrest' (hparams ▸ hdec)
      have hpc : t.pc = s.pc := by rw [hdraws]
      rw [step_of_operand (t := t) hfault hop hrow hfetch, State.setPc_self hpc]

/-- Settles O7: the opcode read first, or an operand byte of its row, is the byte in the range. -/
theorem fetchInVideoFaults : Obligations.FetchInVideoFaults := by
  intro s t n bs hfault hread hfirst hv
  cases n with
  | zero =>
    have hzero : s.pc + BitVec.ofNat 16 0 = s.pc := by simp
    rw [hzero] at hv ⊢
    exact step_fetch_video hfault hv
  | succ n =>
    obtain hn | ⟨i, hhead, hlen⟩ := hfirst
    · cases hn
    obtain ⟨op, u, operands, hop, hrest, rfl⟩ := readBytes_succ_ok hread
    cases hhead
    cases hrow : opRow i.opcode with
    | none => exact absurd i.opcode_mem_admitted ((opRow_eq_none_iff _).1 hrow)
    | some row =>
      have hsize := length_eq_of_opRow hrow
      have hsucc : s.pc + BitVec.ofNat 16 (n + 1) = s.pc + 1 + BitVec.ofNat 16 n := by
        rw [Nat.add_comm n 1, BitVec.ofNat_add, ← BitVec.add_assoc]; rfl
      rw [hsucc] at hv ⊢
      have herror := readBytes_video (m := row.size) hrest (by omega) hv
      refine step_of_operand_error hfault hop hrow (fetchOperand_of_error ?_)
      rw [State.setPc_pc, (busNeutral_setPc (s.pc + 1)).readBytes_eq, herror]
      rfl

/-! ### The fault record (R34, R225, R228) -/

theorem afterStep_of_fault {s : State} {x : Fault} (h : step s = .fault x) :
    s.afterStep = s.recordFault x := by
  simp only [State.afterStep, h]

/-- Settles O6: the decode check comes right after the opcode. -/
theorem unsupportedOpcodeFaults : Obligations.UnsupportedOpcodeFaults := by
  intro s t op hfault hop hadm
  have hstep := step_of_no_row hfault hop ((opRow_eq_none_iff op).2 hadm)
  exact ⟨hstep, afterStep_of_fault hstep⟩

/-- A faulted machine answers its fault (R34). -/
theorem step_recordFault (s : State) (x : Fault) : step (s.recordFault x) = .fault x := rfl

theorem afterSteps_recordFault (s : State) (x : Fault) (k : Nat) :
    State.afterSteps (s.recordFault x) k = s.recordFault x := by
  induction k with
  | zero => rfl
  | succ k ih =>
    have hstay : (s.recordFault x).afterStep = s.recordFault x :=
      afterStep_of_fault (step_recordFault s x)
    rw [State.afterSteps, hstay, ih]

/-- Settles O9: the state after a fault is the old one with the fault recorded, and stays so. -/
theorem faultIsPreciseAndTerminal : Obligations.FaultIsPreciseAndTerminal := by
  intro s x _ h
  have hafter := afterStep_of_fault h
  rw [hafter]
  exact ⟨rfl, step_recordFault s x, afterSteps_recordFault s x⟩

/-! ### Bytes placed in an unbanked ROM (R36, R58) -/

/-- The ROM is seen as it is: there is no mapper, and the ROM has a size of R84. -/
def State.Unbanked (s : State) : Prop := s.mapper = .gen0 ∧ s.cart.romSizeWf

section
variable {s : State} {addr : Word}

theorem State.Unbanked.access (hs : s.Unbanked) (h : addr.toNat < 0x8000) :
    s.access addr = .rom addr.toNat := by
  obtain ⟨hgen, hsize⟩ := hs
  rw [s.access_rom h, hgen, romPhys_gen0 hsize]

theorem State.Unbanked.place (hs : s.Unbanked) (h : addr.toNat < 0x8000) (v : Byte) :
    s.place addr v = s.placeRom addr.toNat v := by
  simp only [State.place, hs.access h]

theorem State.Unbanked.placeRom (hs : s.Unbanked) (phys : Nat) (v : Byte) :
    (s.placeRom phys v).Unbanked := hs

/-- The bytes fit between the address and the end of the ROM range. -/
def FitsRom (addr : Word) (bs : List Byte) : Prop := addr.toNat + bs.length ≤ 0x8000

theorem FitsRom.cons {v : Byte} {bs : List Byte} (h : FitsRom addr (v :: bs)) :
    addr.toNat < 0x8000 ∧ (addr + 1).toNat = addr.toNat + 1 ∧ FitsRom (addr + 1) bs := by
  have hsucc : (addr + 1).toNat = (addr.toNat + 1) % 65536 := BitVec.toNat_add ..
  simp only [FitsRom, List.length_cons] at h ⊢
  omega

/-- Placing bytes there changes the image alone, at their own addresses. -/
theorem State.Unbanked.placeBytes {bs : List Byte} (hs : s.Unbanked) (hfit : FitsRom addr bs) :
    (s.placeBytes addr bs).Unbanked ∧
    s.placeBytes addr bs = { s with cart := (s.placeBytes addr bs).cart } ∧
    ∀ j < addr.toNat, (s.placeBytes addr bs).cart.rom.read j = s.cart.rom.read j := by
  induction bs generalizing s addr with
  | nil => exact ⟨hs, rfl, fun _ _ => rfl⟩
  | cons v bs ih =>
    obtain ⟨haddr, hsucc, hfit⟩ := hfit.cons
    rw [State.placeBytes, hs.place haddr]
    obtain ⟨hunb, heq, hread⟩ := ih (hs.placeRom addr.toNat v) hfit
    refine ⟨hunb, ?_, fun j hj => ?_⟩
    · rw [heq]; rfl
    · rw [hread j (by omega), State.placeRom_cart]
      exact Memory.read_write_other _ v (by omega)

/-- The bytes placed are the bytes read. -/
theorem State.Unbanked.readBytes_placeBytes {bs : List Byte} (hs : s.Unbanked)
    (hfit : FitsRom addr bs) :
    readBytes bs.length (s.placeBytes addr bs) addr = .ok (bs, s.placeBytes addr bs) := by
  induction bs generalizing s addr with
  | nil => rfl
  | cons v bs ih =>
    obtain ⟨haddr, hsucc, hfit⟩ := hfit.cons
    have hs' := hs.placeRom addr.toNat v
    obtain ⟨hunb, -, hread⟩ := hs'.placeBytes hfit
    have hbyte := hread addr.toNat (by omega)
    rw [State.placeRom_cart, Memory.read_write_same] at hbyte
    rw [State.placeBytes, hs.place haddr, List.length_cons, readBytes,
      busRead_of_rom (hunb.access haddr), hbyte]
    simp only [ih hs' hfit]

end

/-- Settles O11: the encoding placed at 0x0100 is read back, decodes to the instruction and draws
nothing. -/
theorem placedInstructionRunsAfterReset : Obligations.PlacedInstructionRunsAfterReset := by
  intro i
  obtain ⟨-, -, -, -, hlen, hbytes⟩ := coding i
  obtain ⟨-, henc⟩ := hbytes State.reset.params.imm16Order
  have hreset : State.reset.Unbanked := ⟨rfl, 0, by decide, rfl⟩
  have hpc : State.reset.pc.toNat = 0x0100 := rfl
  have hfit : FitsRom State.reset.pc (encode State.reset.params.imm16Order i) := by
    unfold FitsRom; omega
  have hread := hreset.readBytes_placeBytes hfit
  obtain ⟨-, heq, -⟩ := hreset.placeBytes hfit
  have hdec := decodeOfEncode State.reset.params.imm16Order i [] i.wf_eq_true
  rw [List.append_nil] at hdec
  generalize State.reset.placeBytes State.reset.pc (encode State.reset.params.imm16Order i) = s at *
  have hs : s.pc = State.reset.pc ∧ s.fault = none ∧ s.params = State.reset.params ∧ s.cyc = 0 := by
    rw [heq]; exact ⟨rfl, rfl, rfl, rfl⟩
  obtain ⟨hspc, hsfault, hsparams, hscyc⟩ := hs
  obtain ⟨hstep, -⟩ := stepRunsFetchedInstruction s s _ _ i hsfault (hspc ▸ hread) (hsparams ▸ hdec)
  exact ⟨hstep, hspc, hscyc⟩

end Sys2Proof.Machine

/-! ## The mapper controllers (R90 to R107) -/

namespace Sys2Proof.Machine

/-! ### Registers -/

theorem toNat_zeroToOne {w : Nat} (v : BitVec (w + 1)) :
    (zeroToOne v).toNat = if v.toNat = 0 then 1 else v.toNat := by
  have hzero : v = 0 ↔ v.toNat = 0 := BitVec.toNat_inj.symm
  unfold zeroToOne
  by_cases h : v = 0
  · rw [if_pos h, if_pos (hzero.1 h)]
    exact BitVec.toNat_one (Nat.succ_pos w)
  · rw [if_neg h, if_neg (mt hzero.2 h)]

/-- A bank register as a number, after the adjustment (R93, R97, R100). -/
theorem toNat_zeroToOne_low (v : Byte) {k m : Nat} (hm : 2 ^ (k + 1) = m) :
    (zeroToOne (v.extractLsb' 0 (k + 1))).toNat = if v.toNat % m = 0 then 1 else v.toNat % m := by
  rw [toNat_zeroToOne, toNat_extract_low v hm]

theorem ramGate_eq (v : Byte) : ramGate v = decide (v.toNat % 16 = 0xA) := by
  have hiff : v.extractLsb' 0 4 = 0xA ↔ v.toNat % 16 = 0xA := by
    rw [← BitVec.toNat_inj, toNat_lowNibble]; exact Iff.rfl
  rw [ramGate, Bool.eq_iff_iff, beq_iff_eq, hiff, decide_eq_true_iff]

/-- A write below 0x8000 is a register write (R90). -/
theorem busWrite_register (s : State) {addr : Word} (h : addr.toNat < 0x8000) (v : Byte) :
    busWrite s addr v = .ok { s with mapper := s.mapper.write addr v } :=
  busWrite_of_rom (s.access_rom h) v

/-- A register as a number, where a range of addresses writes it. -/
theorem toNat_ite {w : Nat} (P : Prop) [Decidable P] (x y : BitVec w) :
    (if P then x else y).toNat = if P then x.toNat else y.toNat :=
  apply_ite BitVec.toNat P x y

section
variable (g md : Bool) (addr : Word) (v : Byte)

/-- Generation 1: each range of addresses writes one register (R93). -/
theorem Mapper.write_gen1 (b1 : BitVec 5) (b2 : BitVec 2) :
    (Mapper.gen1 g b1 b2 md).write addr v =
      .gen1 (if addr.toNat < 0x2000 then ramGate v else g)
        (if 0x2000 ≤ addr.toNat ∧ addr.toNat < 0x4000 then zeroToOne (v.extractLsb' 0 5) else b1)
        (if 0x4000 ≤ addr.toNat ∧ addr.toNat < 0x6000 then v.extractLsb' 0 2 else b2)
        (if 0x6000 ≤ addr.toNat then v.getLsbD 0 else md) := by
  simp only [Mapper.write]
  repeat' split
  all_goals try omega
  all_goals rfl

/-- Generation 2: address bit 8 selects the register (R97). -/
theorem Mapper.write_gen2 (rb : BitVec 4) :
    (Mapper.gen2 g rb).write addr v =
      .gen2 (if addr.toNat < 0x4000 ∧ addr.toNat / 256 % 2 = 0 then ramGate v else g)
        (if addr.toNat < 0x4000 ∧ addr.toNat / 256 % 2 = 1 then zeroToOne (v.extractLsb' 0 4)
          else rb) := by
  have hbit : addr.getLsbD 8 = decide (addr.toNat / 256 % 2 = 1) :=
    Nat.testBit_eq_decide_div_mod_eq
  simp only [Mapper.write, hbit, decide_eq_true_eq]
  repeat' split
  all_goals try omega
  all_goals rfl

/-- Generation 3: each range of addresses writes one register (R100). -/
theorem Mapper.write_gen3 (rb : BitVec 7) (sel : BitVec 4) :
    (Mapper.gen3 g rb sel).write addr v =
      .gen3 (if addr.toNat < 0x2000 then ramGate v else g)
        (if 0x2000 ≤ addr.toNat ∧ addr.toNat < 0x4000 then zeroToOne (v.extractLsb' 0 7) else rb)
        (if 0x4000 ≤ addr.toNat ∧ addr.toNat < 0x6000 then v.extractLsb' 0 4 else sel) := by
  simp only [Mapper.write]
  repeat' split
  all_goals try omega
  all_goals rfl

/-- Generation 5: each range of addresses writes one register (R104). -/
theorem Mapper.write_gen5 (r0 : BitVec 8) (r1 : BitVec 1) (rb : BitVec 4) :
    (Mapper.gen5 g r0 r1 rb).write addr v =
      .gen5 (if addr.toNat < 0x2000 then v == 0x0A else g)
        (if 0x2000 ≤ addr.toNat ∧ addr.toNat < 0x3000 then v else r0)
        (if 0x3000 ≤ addr.toNat ∧ addr.toNat < 0x4000 then v.extractLsb' 0 1 else r1)
        (if 0x4000 ≤ addr.toNat ∧ addr.toNat < 0x6000 then v.extractLsb' 0 4 else rb) := by
  simp only [Mapper.write]
  repeat' split
  all_goals try omega
  all_goals rfl

end

/-! ### The windows -/

section
variable (s : State) {addr : Word}

/-- The image byte seen in the lower ROM window (R91). -/
theorem busPeek_rom_lo (h : addr.toNat < 0x4000) :
    busPeek s addr = .ok (some (s.cart.rom.read
      (s.mapper.loBank % (s.cart.romSize / 0x4000) * 0x4000 + addr.toNat))) := by
  simp only [busPeek, s.access_rom (addr := addr) (by omega), romPhys, h, if_true]

/-- The image byte seen in the upper ROM window (R91). -/
theorem busPeek_rom_hi (hlo : 0x4000 ≤ addr.toNat) (hhi : addr.toNat < 0x8000) :
    busPeek s addr = .ok (some (s.cart.rom.read
      (s.mapper.hiBank % (s.cart.romSize / 0x4000) * 0x4000 + (addr.toNat - 0x4000)))) := by
  simp only [busPeek, s.access_rom hhi, romPhys, Nat.not_lt.2 hlo, if_false]

end

theorem eramExists_of {c : Cart} (hram : c.hasRam = true) (hsize : c.ramSize ≠ 0) :
    eramExists c = true := by
  simp [eramExists, hram, hsize]

theorem eramExists_eq_false {c : Cart} (h : c.hasRam = false ∨ c.ramSize = 0) :
    eramExists c = false := by
  rcases h with h | h <;> simp [eramExists, h]

/-- Settles O45: the register writes, the two ROM windows and the RAM window of generation 1. -/
theorem generation1Controller : Obligations.Generation1Controller := by
  intro s g md b1 b2 addr v hm
  refine ⟨fun h => ?_, fun h => ?_, fun hlo hhi => ?_, fun hlo hhi hg hram hsize => ?_⟩
  · refine ⟨_, _, _, _, by rw [busWrite_register s h, hm, Mapper.write_gen1], ?_, ?_, ?_, ?_⟩
    · rw [ramGate_eq]
    · rw [toNat_ite, toNat_zeroToOne_low v (k := 4) (m := 32) rfl]
    · rw [toNat_ite, toNat_extract_low v (k := 2) (m := 4) rfl]
    · rw [BitVec.getLsbD, Nat.testBit_zero]
  · rw [busPeek_rom_lo s h, hm]; rfl
  · rw [busPeek_rom_hi s hlo hhi, hm]; rfl
  · rw [s.access_ext hlo hhi, hm]
    simp only [extCell, eramExists_of hram hsize, hg, Bool.and_self, if_true, ExtCell.access, ramPhys]

/-- Settles O47: the register writes, the ROM windows, the RAM window and the timer registers of
generation 3. -/
theorem generation3Controller : Obligations.Generation3Controller := by
  intro s g rb sel addr v hm
  refine ⟨fun h => ?_, fun h => ?_, fun hlo hhi => ?_, fun hlo hhi hg hsel hram hsize => ?_,
    fun hlo hhi hg hsel hselC => ?_⟩
  · refine ⟨_, _, _, by rw [busWrite_register s h, hm, Mapper.write_gen3], ?_, ?_, ?_⟩
    · rw [ramGate_eq]
    · rw [toNat_ite, toNat_zeroToOne_low v (k := 6) (m := 128) rfl]
    · rw [toNat_ite, toNat_extract_low v (k := 4) (m := 16) rfl]
  · rw [busPeek_rom_lo s h, hm]; rfl
  · rw [busPeek_rom_hi s hlo hhi, hm]; rfl
  · rw [s.access_ext hlo hhi, hm]
    simp [extCell, eramExists_of hram hsize, hg, hsel, ExtCell.access, ramPhys]
  · have htimer : s.access addr = .timer := by
      rw [s.access_ext hlo hhi, hm]
      simp [extCell, hg, Nat.not_lt.2 hsel, hselC, ExtCell.access]
    refine ⟨?_, ?_⟩
    · simp only [busRead, busPeek, htimer, State.drawn]
    · simp only [busWrite, htimer]

/-- Settles O48: the register writes, the ROM windows and the RAM window of generation 5. -/
theorem generation5Controller : Obligations.Generation5Controller := by
  intro s g r0 r1 rb addr v hm
  refine ⟨fun h => ?_, fun h => ?_, fun hlo hhi => ?_, fun hlo hhi hg hram hsize => ?_⟩
  · refine ⟨_, _, _, _, by rw [busWrite_register s h, hm, Mapper.write_gen5], ?_, ?_, ?_, ?_⟩
    · have hgate : (v == 0x0A) = decide (v.toNat = 0x0A) := by
        rw [Bool.eq_iff_iff, beq_iff_eq, decide_eq_true_iff, ← BitVec.toNat_inj]; rfl
      rw [hgate]
    · rw [toNat_ite]
    · rw [toNat_ite, toNat_extract_low v (k := 1) (m := 2) rfl]
    · rw [toNat_ite, toNat_extract_low v (k := 4) (m := 16) rfl]
  · rw [busPeek_rom_lo s h, hm]; rfl
  · rw [busPeek_rom_hi s hlo hhi, hm]; rfl
  · rw [s.access_ext hlo hhi, hm]
    simp only [extCell, eramExists_of hram hsize, hg, Bool.and_self, if_true, ExtCell.access, ramPhys]

/-! ### The 4-bit cells of generation 2 (R98) -/

/-- The 512 cells repeat through the window. -/
theorem State.access_gen2 {s : State} {rb : BitVec 4} {addr : Word} (hm : s.mapper = .gen2 true rb)
    (hlo : 0xA000 ≤ addr.toNat) (hhi : addr.toNat < 0xC000) :
    s.access addr = .nibble (addr.toNat % 512) := by
  have hoff : (addr.toNat - 0xA000) % 512 = addr.toNat % 512 := by omega
  rw [s.access_ext hlo hhi, hm, extCell, if_pos rfl, ExtCell.access, hoff]

/-- A byte cut to four bits. -/
theorem toNat_and_low4 (v : Byte) : (v &&& 0x0F).toNat = v.toNat % 16 :=
  (BitVec.toNat_and v 0x0F).trans (Nat.and_two_pow_sub_one_eq_mod v.toNat 4)

/-- Four bits under four ones. -/
theorem toNat_or_high4 (v : Byte) : (0xF0 ||| v &&& 0x0F).toNat = 0xF0 + v.toNat % 16 := by
  have hlt : v.toNat % 16 < 2 ^ 4 := Nat.mod_lt _ (by decide)
  rw [BitVec.toNat_or, toNat_and_low4]
  exact (Nat.shiftLeft_add_eq_or_of_lt hlt 0xF).symm

/-- Settles O46: the register writes and ROM windows of generation 2, and its cells, whose addresses all
read the nibble written. -/
theorem generation2Controller : Obligations.Generation2Controller := by
  intro s g rb addr v hm
  refine ⟨fun h => ?_, fun h => ?_, fun hlo hhi => ?_, fun hlo hhi hg => ?_⟩
  · refine ⟨_, _, by rw [busWrite_register s h, hm, Mapper.write_gen2], ?_, ?_⟩
    · rw [ramGate_eq]
    · rw [toNat_ite, toNat_zeroToOne_low v (k := 3) (m := 16) rfl]
  · rw [busPeek_rom_lo s h, hm]; rfl
  · rw [busPeek_rom_hi s hlo hhi, hm]; rfl
  · subst hg
    have hacc := State.access_gen2 hm hlo hhi
    refine ⟨s.writeCell (.eram (addr.toNat % 512)) (v &&& 0x0F), ?_, ?_, fun z hz => ?_,
      fun addr' hlo' hhi' hmod => ⟨0xF0 ||| v &&& 0x0F, ?_, toNat_or_high4 v⟩⟩
    · simp only [busWrite, hacc]
    · rw [State.readCell_writeCell_same, toNat_and_low4]
    · exact State.readCell_writeCell_other s _ hz
    · have hacc' := State.access_gen2 hm hlo' hhi'
      rw [hmod] at hacc'
      simp only [busRead, busPeek, State.writeCell_access, hacc', State.readCell_writeCell_same]

/-! ### Absent RAM (R107) -/

/-- Settles O49: the window reaches nothing, so a read is fixed and a write dropped. -/
theorem absentRamReadsOnes : Obligations.AbsentRamReadsOnes := by
  intro s addr v hlo hhi hcond
  have habsent : extCell s.cart s.mapper (addr.toNat - 0xA000) = .absent := by
    cases hm : s.mapper with
    | gen0 => rw [hm] at hcond; exact hcond.elim
    | gen1 | gen5 =>
      rw [hm] at hcond
      rcases hcond with rfl | hram
      · simp [extCell]
      · simp [extCell, eramExists_eq_false hram]
    | gen2 => rw [hm] at hcond; simp [extCell, hcond]
    | gen3 g rb sel =>
      rw [hm] at hcond
      rcases hcond with rfl | hsel | ⟨hsel, hram⟩
      · rfl
      · have h8 : ¬ sel.toNat < 0x8 := by omega
        have hC : ¬ sel.toNat ≤ 0xC := by omega
        simp [extCell, h8, hC]
      · simp [extCell, hsel, eramExists_eq_false hram]
  have hfixed : s.access addr = .fixed 0xFF := by
    rw [s.access_ext hlo hhi, habsent]; rfl
  exact ⟨busRead_of_fixed hfixed, busWrite_of_fixed hfixed v⟩

end Sys2Proof.Machine

/-! ## The cartridge and the machine created from it (R80 to R87, R250) -/

namespace Sys2Proof.Machine

/-! ### The byte tables (R83 to R86) -/

/-- The type bytes of R83. -/
def typeBytes : List Nat :=
  [0x00, 0x01, 0x02, 0x03, 0x05, 0x06, 0x08, 0x09, 0x0B, 0x0C, 0x0D, 0x0F, 0x10, 0x11,
    0x12, 0x13, 0x19, 0x1A, 0x1B, 0x1C, 0x1D, 0x1E, 0x20, 0x22, 0xFC, 0xFD, 0xFE, 0xFF]

/-- The type bytes of the controllers without a mapper rule (R106). -/
def unmappedBytes : List Nat := [0x0B, 0x0C, 0x0D, 0x20, 0x22, 0xFC, 0xFD, 0xFE, 0xFF]

theorem cartType_eq_none_iff (b : Byte) : cartType b = none ↔ b.toNat ∉ typeBytes := by
  unfold cartType typeBytes
  split <;> simp_all

/-- What a recognised type byte says (R83). -/
theorem cartType_some {b : Byte} {t : CartType} (h : cartType b = some t) :
    (resetMapper t.gen = none ↔ b.toNat ∈ unmappedBytes) ∧
    (b.toNat ∈ [0x00, 0x08, 0x09] → t.gen = .g0) ∧
    (b.toNat ∈ [0x01, 0x02, 0x03] → t.gen = .g1) ∧
    (b.toNat ∈ [0x05, 0x06] → t.gen = .g2) ∧
    (b.toNat ∈ [0x0F, 0x10, 0x11, 0x12, 0x13] → t.gen = .g3) ∧
    (b.toNat ∈ [0x19, 0x1A, 0x1B, 0x1C, 0x1D, 0x1E] → t.gen = .g5) ∧
    (b.toNat ∈ [0x01, 0x02, 0x03, 0x0F, 0x10, 0x11, 0x12, 0x13, 0x19, 0x1A, 0x1B, 0x1C, 0x1D, 0x1E] →
      (t.hasRam = true ↔ b.toNat ∈ [0x02, 0x03, 0x10, 0x12, 0x13, 0x1A, 0x1B, 0x1D, 0x1E])) := by
  unfold cartType at h
  split at h <;> cases h
  all_goals
    next hb =>
    rw [hb]
    decide

theorem romSizeOf_eq_none_iff (code : Byte) :
    romSizeOf code = none ↔ code.toNat ∈ [0x52, 0x53, 0x54] := by
  have hcode (n : Byte) : code = n ↔ code.toNat = n.toNat := BitVec.toNat_inj.symm
  unfold romSizeOf
  by_cases hsmall : code.toNat ≤ 8
  · rw [if_pos hsmall]
    refine iff_of_false (by simp only [reduceCtorEq, not_false_eq_true]) fun hmem => ?_
    have hlarge : ∀ n ∈ [0x52, 0x53, 0x54], 8 < n := by decide
    exact absurd hsmall (Nat.not_le_of_lt (hlarge _ hmem))
  · have hrefused : (code = 0x52 ∨ code = 0x53 ∨ code = 0x54) ↔ code.toNat ∈ [0x52, 0x53, 0x54] := by
      simp only [hcode, List.mem_cons, List.not_mem_nil, or_false]
      exact Iff.rfl
    rw [if_neg hsmall, ← hrefused]
    split
    · next h => exact iff_of_true rfl h
    · next h => exact iff_of_false (by simp only [reduceCtorEq, not_false_eq_true]) h

/-- The ROM size of a size code that is not refused (R84). -/
theorem romSizeOf_some {code : Byte} {size : Nat} (h : romSizeOf code = some size) :
    size = if code.toNat ≤ 8 then 0x8000 * 2 ^ code.toNat else 0x8000 := by
  unfold romSizeOf at h
  by_cases hsmall : code.toNat ≤ 8
  · rw [if_pos hsmall] at h ⊢
    rw [← Option.some.inj h, Nat.shiftLeft_eq]
  · rw [if_neg hsmall] at h ⊢
    split at h
    · cases h
    · exact (Option.some.inj h).symm

theorem romSizeOf_wf {code : Byte} {size : Nat} (h : romSizeOf code = some size) :
    ∃ c < 9, size = 0x8000 <<< c := by
  rw [romSizeOf_some h]
  split
  · next hsmall => exact ⟨code.toNat, by omega, (Nat.shiftLeft_eq ..).symm⟩
  · exact ⟨0, by decide, rfl⟩

theorem ramSizeOf_eq (code : Byte) :
    ramSizeOf code = if code.toNat = 1 then 0x800 else if code.toNat = 2 then 0x2000
      else if code.toNat = 3 then 0x8000 else if code.toNat = 4 then 0x20000
      else if code.toNat = 5 then 0x10000 else 0 := by
  unfold ramSizeOf
  split <;> simp_all

theorem ramSizeOf_wf (code : Byte) :
    ramSizeOf code ∈ [0, 0x800, 0x2000, 0x8000, 0x20000, 0x10000] := by
  unfold ramSizeOf
  split <;> decide

theorem licensed_eq_false_iff (flag old : Byte) :
    licensed flag old = false ↔ flag.toNat = 0x03 ∧ old.toNat ≠ 0x33 := by
  have hflag : flag = 0x03 ↔ flag.toNat = 0x03 := BitVec.toNat_inj.symm
  have hold : old = 0x33 ↔ old.toNat = 0x33 := BitVec.toNat_inj.symm
  simp only [licensed, Bool.not_eq_false', Bool.and_eq_true, beq_iff_eq, bne_iff_ne, hflag, hold,
    ne_eq]

/-! ### What loading does (R87, R250) -/

/-- The configuration of an image with its type and its ROM size. -/
def cartOf (img : Image) (t : CartType) (size : Nat) : Cart :=
  { rom := img.bytes, romSize := size, hasRam := t.hasRam
    ramSize := ramSizeOf (img.byte 0x149), color := colorOf (img.byte 0x143)
    battery := t.battery, timer := t.timer, rumble := t.rumble
    accelerometer := t.accelerometer, special := t.gen == .special }

/-- An image is accepted exactly when none of the checks refuses it. -/
theorem loadCart_eq_ok_iff {img : Image} {c : Cart} {m : Mapper} :
    loadCart img = .ok (c, m) ↔
      ¬ img.length < 0x150 ∧ ∃ t size, cartType (img.byte 0x147) = some t ∧
        romSizeOf (img.byte 0x148) = some size ∧
        licensed (img.byte 0x146) (img.byte 0x14B) = true ∧ resetMapper t.gen = some m ∧
        img.length = size ∧ c = cartOf img t size := by
  constructor
  · intro h
    unfold loadCart at h
    split at h
    · cases h
    next hlen =>
    split at h
    · cases h
    · cases h
    next t size ht hsize =>
    split at h
    · cases h
    next hlic =>
    split at h
    · cases h
    next m' hm =>
    split at h
    · cases h
    next heq =>
    cases h
    exact ⟨hlen, t, size, ht, hsize, by simpa using hlic, hm, by simpa using heq, rfl⟩
  · rintro ⟨hlen, t, size, ht, hsize, hlic, hm, rfl, rfl⟩
    simp only [loadCart, hlen, ht, hsize, hlic, hm, if_false, Bool.true_eq_false, ne_eq,
      not_true_eq_false, cartOf]

/-- A machine is created exactly from an accepted image, in the boot state. -/
theorem powerOn_eq_next_iff {p : Params} {regs : ResetRegs} {ram : RamInit} {img : Image} {s : State} :
    State.powerOn p regs ram img = .next s ↔
      ∃ c m, loadCart img = .ok (c, m) ∧ s = State.boot p regs ram c m := by
  unfold State.powerOn
  constructor
  · intro h
    split at h
    · cases h
    · next c m hload => cases h; exact ⟨c, m, hload, rfl⟩
  · rintro ⟨c, m, hload, rfl⟩
    rw [hload]

/-- Creation answers a machine or the refusal of the cartridge. -/
theorem powerOn_cases (p : Params) (regs : ResetRegs) (ram : RamInit) (img : Image) :
    (∃ s, State.powerOn p regs ram img = .next s) ∨
    ∃ r, State.powerOn p regs ram img = .refused (.unsupportedCartridge r) := by
  unfold State.powerOn
  cases loadCart img with
  | error r => exact .inr ⟨r, rfl⟩
  | ok q => exact .inl ⟨_, rfl⟩

theorem exists_refused_iff (p : Params) (regs : ResetRegs) (ram : RamInit) (img : Image) :
    (∃ r, State.powerOn p regs ram img = .refused (.unsupportedCartridge r)) ↔
      ¬ ∃ s, State.powerOn p regs ram img = .next s := by
  constructor
  · rintro ⟨r, hr⟩ ⟨s, hs⟩
    rw [hr] at hs
    cases hs
  · exact (powerOn_cases p regs ram img).resolve_left

/-- An image gives a machine exactly when none of the conditions of R87 holds, each read off the bytes
of the header. -/
theorem exists_powerOn_iff (p : Params) (regs : ResetRegs) (ram : RamInit) (img : Image) :
    (∃ s, State.powerOn p regs ram img = .next s) ↔
      ¬ (img.length < 0x150 ∨ (img.byte 0x147).toNat ∉ typeBytes ∨
        (img.byte 0x148).toNat ∈ [0x52, 0x53, 0x54] ∨
        ((img.byte 0x146).toNat = 0x03 ∧ (img.byte 0x14B).toNat ≠ 0x33) ∨
        (img.byte 0x147).toNat ∈ unmappedBytes ∨
        img.length ≠ if (img.byte 0x148).toNat ≤ 8 then 0x8000 * 2 ^ (img.byte 0x148).toNat
          else 0x8000) := by
  rw [← romSizeOf_eq_none_iff, ← licensed_eq_false_iff]
  simp only [not_or, Classical.not_not, ne_eq]
  constructor
  · rintro ⟨s, hs⟩
    obtain ⟨c, m, hload, -⟩ := powerOn_eq_next_iff.1 hs
    obtain ⟨hlen, t, size, ht, hsize, hlic, hm, heq, -⟩ := loadCart_eq_ok_iff.1 hload
    obtain ⟨hunmapped, -⟩ := cartType_some ht
    have htype := mt (cartType_eq_none_iff (img.byte 0x147)).2 (by simp [ht])
    refine ⟨hlen, Classical.not_not.1 htype, by simp [hsize], by simp [hlic], ?_, ?_⟩
    · rw [← hunmapped, hm]; simp
    · rw [heq, romSizeOf_some hsize]
  · rintro ⟨hlen, htype, hcode, hlic, hmapped, heq⟩
    obtain ⟨t, ht⟩ := Option.ne_none_iff_exists'.1 (mt (cartType_eq_none_iff _).1 (Classical.not_not.2 htype))
    obtain ⟨size, hsize⟩ := Option.ne_none_iff_exists'.1 hcode
    obtain ⟨hunmapped, -⟩ := cartType_some ht
    obtain ⟨m, hm⟩ := Option.ne_none_iff_exists'.1 (mt hunmapped.1 hmapped)
    rw [← romSizeOf_some hsize] at heq
    exact ⟨_, powerOn_eq_next_iff.2 ⟨_, m,
      loadCart_eq_ok_iff.2 ⟨hlen, t, size, ht, hsize, by simpa using hlic, hm, heq, rfl⟩, rfl⟩⟩

/-- Settles O50: creation is refused exactly when it gives no machine. -/
theorem loadRefusals : Obligations.LoadRefusals := by
  intro p regs ram img
  refine ⟨powerOn_cases p regs ram img, ?_⟩
  rw [exists_refused_iff, exists_powerOn_iff, Classical.not_not]
  rfl

/-! ### What a created machine holds -/

/-- Settles O51: the boot state of the accepted image. -/
theorem acceptedCartridgeConfiguration : Obligations.AcceptedCartridgeConfiguration := by
  intro p regs ram img s hs
  obtain ⟨c, m, hload, rfl⟩ := powerOn_eq_next_iff.1 hs
  obtain ⟨-, t, size, ht, -, -, hm, heq, rfl⟩ := loadCart_eq_ok_iff.1 hload
  obtain ⟨-, h0, h1, h2, h3, h5, hram⟩ := cartType_some ht
  have hmapper {g : Gen} {m' : Mapper} (hreset : resetMapper g = some m') (hg : t.gen = g) :
      m = m' := by
    rw [hg, hreset] at hm
    cases hm
    rfl
  exact ⟨rfl, heq.symm, rfl, ramSizeOf_eq _, fun h => hmapper rfl (h0 h), fun h => hmapper rfl (h1 h),
    fun h => hmapper rfl (h2 h), fun h => hmapper rfl (h3 h), fun h => hmapper rfl (h5 h), hram,
    rfl, rfl, rfl, rfl, rfl, rfl, rfl, rfl⟩

/-- The column of R37 that a colour byte selects (R82). -/
theorem column_colorOf (regs : ResetRegs) (b : Byte) :
    regs.column (colorOf b) = if b = 0xC0 ∨ b = 0x80 then regs.colour else regs.mono := by
  unfold colorOf
  by_cases hC0 : b = 0xC0
  · rw [if_pos hC0, if_pos (.inl hC0), ResetRegs.column]
  · by_cases h80 : b = 0x80
    · rw [if_neg hC0, if_pos h80, if_pos (.inr h80), ResetRegs.column]
    · rw [if_neg hC0, if_neg h80, if_neg (not_or.2 ⟨hC0, h80⟩), ResetRegs.column]

/-- Settles O52: the boot state takes its registers from the column the colour byte selects. -/
theorem resetRegisterValues : Obligations.ResetRegisterValues := by
  intro p ram img s hs
  obtain ⟨c, m, hload, rfl⟩ := powerOn_eq_next_iff.1 hs
  obtain ⟨-, t, size, -, -, -, -, -, rfl⟩ := loadCart_eq_ok_iff.1 hload
  have hcolumn := column_colorOf ResetRegs.default (img.byte 0x143)
  simp only [State.boot, cartOf, hcolumn]
  by_cases hcolour : img.byte 0x143 = 0xC0 ∨ img.byte 0x143 = 0x80
  · rw [if_pos hcolour]
    exact ⟨rfl, rfl, trivial, fun _ => ⟨rfl, rfl, rfl, rfl, rfl, rfl, rfl, rfl⟩,
      fun hmono => absurd hcolour (not_or.2 hmono)⟩
  · rw [if_neg hcolour]
    exact ⟨rfl, rfl, trivial, fun h => absurd h hcolour,
      fun _ => ⟨rfl, rfl, rfl, rfl, rfl, rfl, rfl, rfl⟩⟩

/-- Settles O53: the blank image is accepted as `Config.blankCart` of generation 0. -/
theorem resetIsBlankPowerOn : Obligations.ResetIsBlankPowerOn :=
  powerOn_eq_next_iff.2 ⟨Config.blankCart, .gen0, rfl, rfl⟩

/-- Both columns of R37 have the low nibble of `F` zero (R26). -/
theorem column_f_low (color : Color) :
    (ResetRegs.default.column color).f.extractLsb' 0 4 = 0 := by
  cases color <;> rfl

/-- No bank register is zero at reset, and no 4-bit cell is listed (R92 to R103). -/
theorem mapperInv_boot {p : Params} {regs : ResetRegs} {c : Cart} {g : Gen} {m : Mapper}
    (h : resetMapper g = some m) : (State.boot p regs RamInit.default c m).MapperInv := by
  cases g <;> cases h
  · trivial
  · exact (by decide : (1 : BitVec 5) ≠ 0)
  · exact ⟨(by decide : (1 : BitVec 4) ≠ 0), fun _ hx => absurd hx List.not_mem_nil⟩
  · exact (by decide : (1 : BitVec 7) ≠ 0)
  · trivial

/-- Settles O35: the arrays start empty, and an accepted image has the sizes of R84 and R85. -/
theorem invariantHoldsAtPowerOn : Obligations.InvariantHoldsAtPowerOn := by
  intro p img s hwf hwithin hs
  obtain ⟨c, m, hload, rfl⟩ := powerOn_eq_next_iff.1 hs
  obtain ⟨-, t, size, -, hsize, -, hm, rfl, rfl⟩ := loadCart_eq_ok_iff.1 hload
  have hempty (n : Nat) : Memory.wf [] ∧ Memory.within [] n := by simp [Memory.wf, Memory.within]
  exact ⟨column_f_low _, ⟨hempty _, hempty _, hempty _, hempty _, hempty _⟩, mapperInv_boot hm,
    fun _ => rfl, romSizeOf_wf hsize, ramSizeOf_wf _, hwf, hwithin⟩

end Sys2Proof.Machine
